-- ==== Sys2Proof/Word.lean ====
section
/-! DEFINITION. The two word types of the machine (00_scope.md R7): data bytes and 16-bit addresses. -/

namespace Sys2Proof

/-- Data width: A, X, Y, SP, P and every bus transaction (R7, R54). -/
abbrev Byte := BitVec 8

/-- Address width: PC and every computed address (R7, R51). -/
abbrev Word := BitVec 16

end Sys2Proof
end

