-- ==== Sys2Proof/Modes.lean ====
section
/-! DEFINITION. The closed enumerations of the dispatch table (30_encoding.md R72): the 12 addressing modes, the
56 mnemonics and the sink, and the operand an instruction carries in each mode. -/

namespace Sys2Proof

/-- The 12 addressing modes (R72, R111 to R122; abbreviations of the glossary in 00_scope.md). -/
inductive Mode where
  | imp | imm | zp0 | zpx | zpy | rel | abs | abx | aby | ind | izx | izy
  deriving DecidableEq, Repr

/-- An operand: the mode with the operand bytes that follow the opcode (R70), a 16-bit operand already put together
little-endian (R53, R76). -/
inductive Operand where
  | imp
  | imm (byte : Byte)
  | zp0 (base : Byte)
  | zpx (base : Byte)
  | zpy (base : Byte)
  | rel (disp : Byte)
  | abs (addr : Word)
  | abx (base : Word)
  | aby (base : Word)
  | ind (ptr : Word)
  | izx (base : Byte)
  | izy (base : Byte)
  deriving DecidableEq, Repr

/-- The mode of an operand. -/
def Operand.mode : Operand → Mode
  | .imp => .imp
  | .imm _ => .imm
  | .zp0 _ => .zp0
  | .zpx _ => .zpx
  | .zpy _ => .zpy
  | .rel _ => .rel
  | .abs _ => .abs
  | .abx _ => .abx
  | .aby _ => .aby
  | .ind _ => .ind
  | .izx _ => .izx
  | .izy _ => .izy

/-- The mnemonic set (R73): 56 documented mnemonics and this spec's `XXX`, the illegal-opcode sink. -/
inductive Mnemonic where
  | lda | ldx | ldy | sta | stx | sty | tax | tay | tsx | txa | txs | tya
  | adc | sbc | and | ora | eor | bit | cmp | cpx | cpy | inc | dec | inx | iny | dex | dey
  | asl | lsr | rol | ror
  | bcc | bcs | beq | bne | bmi | bpl | bvc | bvs | jmp | jsr | rts | brk | rti
  | pha | php | pla | plp | clc | sec | cld | sed | cli | sei | clv | nop | xxx
  deriving DecidableEq, Repr

end Sys2Proof
end

