-- ==== Sys2Proof/Syntax.lean ====
section
/-! DEFINITION. The instructions of opcode_table.json, one constructor per mnemonic. A mnemonic with rows in several
modes carries an `Operand`, whose mode says which of its rows it is; `WellFormed` admits exactly the modes that the
table gives the mnemonic, so the well-formed instructions are the 256 rows with their operand bytes. -/

namespace Sys2Proof

/-- One instruction. A branch carries its displacement byte (mode REL), JSR its target (mode ABS), the sink its own
opcode value (R74); every constructor without an argument is mode IMP. -/
inductive Instr where
  /-- LDA, rule R130. -/
  | lda (operand : Operand)
  /-- LDX, rule R131. -/
  | ldx (operand : Operand)
  /-- LDY, rule R132. -/
  | ldy (operand : Operand)
  /-- STA, rule R133. -/
  | sta (operand : Operand)
  /-- STX, rule R134. -/
  | stx (operand : Operand)
  /-- STY, rule R135. -/
  | sty (operand : Operand)
  /-- TAX, rule R136. -/
  | tax
  /-- TAY, rule R137. -/
  | tay
  /-- TSX, rule R138. -/
  | tsx
  /-- TXA, rule R139. -/
  | txa
  /-- TXS, rule R140. -/
  | txs
  /-- TYA, rule R141. -/
  | tya
  /-- ADC, rule R151. -/
  | adc (operand : Operand)
  /-- SBC, rule R152. -/
  | sbc (operand : Operand)
  /-- AND, rule R153. -/
  | and (operand : Operand)
  /-- ORA, rule R154. -/
  | ora (operand : Operand)
  /-- EOR, rule R155. -/
  | eor (operand : Operand)
  /-- BIT, rule R156. -/
  | bit (operand : Operand)
  /-- CMP, rule R157. -/
  | cmp (operand : Operand)
  /-- CPX, rule R158. -/
  | cpx (operand : Operand)
  /-- CPY, rule R159. -/
  | cpy (operand : Operand)
  /-- INC, rule R160. -/
  | inc (operand : Operand)
  /-- DEC, rule R161. -/
  | dec (operand : Operand)
  /-- INX, rule R162. -/
  | inx
  /-- INY, rule R163. -/
  | iny
  /-- DEX, rule R164. -/
  | dex
  /-- DEY, rule R165. -/
  | dey
  /-- ASL, rule R181. -/
  | asl (operand : Operand)
  /-- LSR, rule R182. -/
  | lsr (operand : Operand)
  /-- ROL, rule R183. -/
  | rol (operand : Operand)
  /-- ROR, rule R184. -/
  | ror (operand : Operand)
  /-- BCC, rule R191. -/
  | bcc (disp : Byte)
  /-- BCS, rule R192. -/
  | bcs (disp : Byte)
  /-- BEQ, rule R193. -/
  | beq (disp : Byte)
  /-- BNE, rule R194. -/
  | bne (disp : Byte)
  /-- BMI, rule R195. -/
  | bmi (disp : Byte)
  /-- BPL, rule R196. -/
  | bpl (disp : Byte)
  /-- BVC, rule R197. -/
  | bvc (disp : Byte)
  /-- BVS, rule R198. -/
  | bvs (disp : Byte)
  /-- JMP, rule R200. -/
  | jmp (operand : Operand)
  /-- JSR, rule R201. -/
  | jsr (target : Word)
  /-- RTS, rule R202. -/
  | rts
  /-- BRK, rule R203. -/
  | brk
  /-- RTI, rule R204. -/
  | rti
  /-- PHA, rule R215. -/
  | pha
  /-- PHP, rule R216. -/
  | php
  /-- PLA, rule R217. -/
  | pla
  /-- PLP, rule R218. -/
  | plp
  /-- CLC, rule R219. -/
  | clc
  /-- SEC, rule R220. -/
  | sec
  /-- CLD, rule R221. -/
  | cld
  /-- SED, rule R222. -/
  | sed
  /-- CLI, rule R223. -/
  | cli
  /-- SEI, rule R224. -/
  | sei
  /-- CLV, rule R225. -/
  | clv
  /-- NOP, rule R226. -/
  | nop
  /-- XXX, rule R227. -/
  | xxx (op : Byte)
  deriving DecidableEq, Repr

/-- The operation identifier of an instruction (R72). -/
def Instr.mnemonic : Instr → Mnemonic
  | .lda _ => .lda
  | .ldx _ => .ldx
  | .ldy _ => .ldy
  | .sta _ => .sta
  | .stx _ => .stx
  | .sty _ => .sty
  | .tax => .tax
  | .tay => .tay
  | .tsx => .tsx
  | .txa => .txa
  | .txs => .txs
  | .tya => .tya
  | .adc _ => .adc
  | .sbc _ => .sbc
  | .and _ => .and
  | .ora _ => .ora
  | .eor _ => .eor
  | .bit _ => .bit
  | .cmp _ => .cmp
  | .cpx _ => .cpx
  | .cpy _ => .cpy
  | .inc _ => .inc
  | .dec _ => .dec
  | .inx => .inx
  | .iny => .iny
  | .dex => .dex
  | .dey => .dey
  | .asl _ => .asl
  | .lsr _ => .lsr
  | .rol _ => .rol
  | .ror _ => .ror
  | .bcc _ => .bcc
  | .bcs _ => .bcs
  | .beq _ => .beq
  | .bne _ => .bne
  | .bmi _ => .bmi
  | .bpl _ => .bpl
  | .bvc _ => .bvc
  | .bvs _ => .bvs
  | .jmp _ => .jmp
  | .jsr _ => .jsr
  | .rts => .rts
  | .brk => .brk
  | .rti => .rti
  | .pha => .pha
  | .php => .php
  | .pla => .pla
  | .plp => .plp
  | .clc => .clc
  | .sec => .sec
  | .cld => .cld
  | .sed => .sed
  | .cli => .cli
  | .sei => .sei
  | .clv => .clv
  | .nop => .nop
  | .xxx _ => .xxx

/-- The operand of an instruction, with its addressing mode (R72). -/
def Instr.operand : Instr → Operand
  | .lda o => o
  | .ldx o => o
  | .ldy o => o
  | .sta o => o
  | .stx o => o
  | .sty o => o
  | .tax => .imp
  | .tay => .imp
  | .tsx => .imp
  | .txa => .imp
  | .txs => .imp
  | .tya => .imp
  | .adc o => o
  | .sbc o => o
  | .and o => o
  | .ora o => o
  | .eor o => o
  | .bit o => o
  | .cmp o => o
  | .cpx o => o
  | .cpy o => o
  | .inc o => o
  | .dec o => o
  | .inx => .imp
  | .iny => .imp
  | .dex => .imp
  | .dey => .imp
  | .asl o => o
  | .lsr o => o
  | .rol o => o
  | .ror o => o
  | .bcc d => .rel d
  | .bcs d => .rel d
  | .beq d => .rel d
  | .bne d => .rel d
  | .bmi d => .rel d
  | .bpl d => .rel d
  | .bvc d => .rel d
  | .bvs d => .rel d
  | .jmp o => o
  | .jsr a => .abs a
  | .rts => .imp
  | .brk => .imp
  | .rti => .imp
  | .pha => .imp
  | .php => .imp
  | .pla => .imp
  | .plp => .imp
  | .clc => .imp
  | .sec => .imp
  | .cld => .imp
  | .sed => .imp
  | .cli => .imp
  | .sei => .imp
  | .clv => .imp
  | .nop => .imp
  | .xxx _ => .imp

end Sys2Proof
end

