-- ==== Sys2Proof/WellFormed.lean ====
section
/-! DEFINITION. Which instructions the encoding admits: the modes each mnemonic has (the "Encoding" line of each
instruction rule of files 42 to 46) and the sink slots (30_encoding.md R74). -/

namespace Sys2Proof

/-- The eight modes of the accumulator readers: LDA, ADC, SBC, AND, ORA, EOR, CMP (R130, R151 to R155, R157). -/
def readModes : List Mode := [.imm, .zp0, .zpx, .abs, .abx, .aby, .izx, .izy]

/-- The modes of each mnemonic. -/
def allowedModes : Mnemonic → List Mode
  | .lda | .adc | .sbc | .and | .ora | .eor | .cmp => readModes
  | .ldx => [.imm, .zp0, .zpy, .abs, .aby]
  | .ldy => [.imm, .zp0, .zpx, .abs, .abx]
  | .sta => [.zp0, .zpx, .abs, .abx, .aby, .izx, .izy]
  | .stx => [.zp0, .zpy, .abs]
  | .sty => [.zp0, .zpx, .abs]
  | .bit => [.zp0, .abs]
  | .cpx | .cpy => [.imm, .zp0, .abs]
  | .inc | .dec => [.zp0, .zpx, .abs, .abx]
  | .asl | .lsr | .rol | .ror => [.imp, .zp0, .zpx, .abs, .abx]
  | .bcc | .bcs | .beq | .bne | .bmi | .bpl | .bvc | .bvs => [.rel]
  | .jmp => [.abs, .ind]
  | .jsr => [.abs]
  | .tax | .tay | .tsx | .txa | .txs | .tya | .inx | .iny | .dex | .dey | .rts | .brk | .rti
  | .pha | .php | .pla | .plp | .clc | .sec | .cld | .sed | .cli | .sei | .clv | .nop | .xxx => [.imp]

/-- The 105 sink slots, as R74 lists them. -/
def sinkSlots : List Byte :=
  [0x02, 0x03, 0x04, 0x07, 0x0B, 0x0C, 0x0F, 0x12, 0x13, 0x14, 0x17, 0x1A, 0x1B, 0x1C, 0x1F] ++
  [0x22, 0x23, 0x27, 0x2B, 0x2F, 0x32, 0x33, 0x34, 0x37, 0x3A, 0x3B, 0x3C, 0x3F] ++
  [0x42, 0x43, 0x44, 0x47, 0x4B, 0x4F, 0x52, 0x53, 0x54, 0x57, 0x5A, 0x5B, 0x5C, 0x5F] ++
  [0x62, 0x63, 0x64, 0x67, 0x6B, 0x6F, 0x72, 0x73, 0x74, 0x77, 0x7A, 0x7B, 0x7C, 0x7F] ++
  [0x80, 0x82, 0x83, 0x87, 0x89, 0x8B, 0x8F, 0x92, 0x93, 0x97, 0x9B, 0x9C, 0x9E, 0x9F] ++
  [0xA3, 0xA7, 0xAB, 0xAF, 0xB2, 0xB3, 0xB7, 0xBB, 0xBF, 0xC2, 0xC3, 0xC7, 0xCB, 0xCF] ++
  [0xD2, 0xD3, 0xD4, 0xD7, 0xDA, 0xDB, 0xDC, 0xDF, 0xE2, 0xE3, 0xE7, 0xEB, 0xEF] ++
  [0xF2, 0xF3, 0xF4, 0xF7, 0xFA, 0xFB, 0xFC, 0xFF]

/-- The sink carries an opcode value of R74's list; every other constructor carries no opcode. -/
def Instr.opcodeFieldOk : Instr → Bool
  | .xxx op => sinkSlots.contains op
  | _ => true

/-- An instruction that the encoding admits: its mode is one of its mnemonic's, and a sink has a sink's opcode. -/
def Instr.wellFormed (i : Instr) : Bool :=
  (allowedModes i.mnemonic).contains i.operand.mode && i.opcodeFieldOk

end Sys2Proof
end

