-- ==== Sys2Proof/Decode.lean ====
section
/-! DEFINITION. The dispatch table (30_encoding.md R72, the grid of R75), the decoder, total on any bytes, and after
it the encoder, written from the "Encoding" lines of the instruction rules of files 42 to 46 (not from the grid). -/

namespace Sys2Proof

/-! ### Bytes and words (R8, R53) -/

/-- `hi:lo`, the 16-bit value of two bytes (R8). -/
def mkWord (hi lo : Byte) : Word := hi ++ lo

/-- `w[7:0]`. -/
def loByte (w : Word) : Byte := w.extractLsb' 0 8

/-- `w[15:8]`. -/
def hiByte (w : Word) : Byte := w.extractLsb' 8 8

/-! ### The dispatch table -/

/-- One row (R72): operation, mode and base cycle count; `none` is the parameter `ILLEGAL_CYCLES` (R74). -/
structure Row where
  mnemonic : Mnemonic
  mode : Mode
  base : Option Nat
  deriving DecidableEq, Repr

/-- A documented row. -/
def row (m : Mnemonic) (md : Mode) (base : Nat) : Row := ⟨m, md, some base⟩

/-- A sink row (R74). -/
def sinkRow : Row := ⟨.xxx, .imp, none⟩

/-- Opcodes 0x00 to 0x0F (R75). -/
def gridRow0 : List Row :=
  [row .brk .imp 7, row .ora .izx 6, sinkRow, sinkRow, sinkRow, row .ora .zp0 3, row .asl .zp0 5, sinkRow,
   row .php .imp 3, row .ora .imm 2, row .asl .imp 2, sinkRow, sinkRow, row .ora .abs 4, row .asl .abs 6, sinkRow]

/-- Opcodes 0x10 to 0x1F (R75). -/
def gridRow1 : List Row :=
  [row .bpl .rel 2, row .ora .izy 5, sinkRow, sinkRow, sinkRow, row .ora .zpx 4, row .asl .zpx 6, sinkRow,
   row .clc .imp 2, row .ora .aby 4, sinkRow, sinkRow, sinkRow, row .ora .abx 4, row .asl .abx 7, sinkRow]

/-- Opcodes 0x20 to 0x2F (R75). -/
def gridRow2 : List Row :=
  [row .jsr .abs 6, row .and .izx 6, sinkRow, sinkRow, row .bit .zp0 3, row .and .zp0 3, row .rol .zp0 5, sinkRow,
   row .plp .imp 4, row .and .imm 2, row .rol .imp 2, sinkRow, row .bit .abs 4, row .and .abs 4, row .rol .abs 6, sinkRow]

/-- Opcodes 0x30 to 0x3F (R75). -/
def gridRow3 : List Row :=
  [row .bmi .rel 2, row .and .izy 5, sinkRow, sinkRow, sinkRow, row .and .zpx 4, row .rol .zpx 6, sinkRow,
   row .sec .imp 2, row .and .aby 4, sinkRow, sinkRow, sinkRow, row .and .abx 4, row .rol .abx 7, sinkRow]

/-- Opcodes 0x40 to 0x4F (R75). -/
def gridRow4 : List Row :=
  [row .rti .imp 6, row .eor .izx 6, sinkRow, sinkRow, sinkRow, row .eor .zp0 3, row .lsr .zp0 5, sinkRow,
   row .pha .imp 3, row .eor .imm 2, row .lsr .imp 2, sinkRow, row .jmp .abs 3, row .eor .abs 4, row .lsr .abs 6, sinkRow]

/-- Opcodes 0x50 to 0x5F (R75). -/
def gridRow5 : List Row :=
  [row .bvc .rel 2, row .eor .izy 5, sinkRow, sinkRow, sinkRow, row .eor .zpx 4, row .lsr .zpx 6, sinkRow,
   row .cli .imp 2, row .eor .aby 4, sinkRow, sinkRow, sinkRow, row .eor .abx 4, row .lsr .abx 7, sinkRow]

/-- Opcodes 0x60 to 0x6F (R75). -/
def gridRow6 : List Row :=
  [row .rts .imp 6, row .adc .izx 6, sinkRow, sinkRow, sinkRow, row .adc .zp0 3, row .ror .zp0 5, sinkRow,
   row .pla .imp 4, row .adc .imm 2, row .ror .imp 2, sinkRow, row .jmp .ind 5, row .adc .abs 4, row .ror .abs 6, sinkRow]

/-- Opcodes 0x70 to 0x7F (R75). -/
def gridRow7 : List Row :=
  [row .bvs .rel 2, row .adc .izy 5, sinkRow, sinkRow, sinkRow, row .adc .zpx 4, row .ror .zpx 6, sinkRow,
   row .sei .imp 2, row .adc .aby 4, sinkRow, sinkRow, sinkRow, row .adc .abx 4, row .ror .abx 7, sinkRow]

/-- Opcodes 0x80 to 0x8F (R75). -/
def gridRow8 : List Row :=
  [sinkRow, row .sta .izx 6, sinkRow, sinkRow, row .sty .zp0 3, row .sta .zp0 3, row .stx .zp0 3, sinkRow,
   row .dey .imp 2, sinkRow, row .txa .imp 2, sinkRow, row .sty .abs 4, row .sta .abs 4, row .stx .abs 4, sinkRow]

/-- Opcodes 0x90 to 0x9F (R75). -/
def gridRow9 : List Row :=
  [row .bcc .rel 2, row .sta .izy 6, sinkRow, sinkRow, row .sty .zpx 4, row .sta .zpx 4, row .stx .zpy 4, sinkRow,
   row .tya .imp 2, row .sta .aby 5, row .txs .imp 2, sinkRow, sinkRow, row .sta .abx 5, sinkRow, sinkRow]

/-- Opcodes 0xA0 to 0xAF (R75). -/
def gridRowA : List Row :=
  [row .ldy .imm 2, row .lda .izx 6, row .ldx .imm 2, sinkRow, row .ldy .zp0 3, row .lda .zp0 3, row .ldx .zp0 3, sinkRow,
   row .tay .imp 2, row .lda .imm 2, row .tax .imp 2, sinkRow, row .ldy .abs 4, row .lda .abs 4, row .ldx .abs 4, sinkRow]

/-- Opcodes 0xB0 to 0xBF (R75). -/
def gridRowB : List Row :=
  [row .bcs .rel 2, row .lda .izy 5, sinkRow, sinkRow, row .ldy .zpx 4, row .lda .zpx 4, row .ldx .zpy 4, sinkRow,
   row .clv .imp 2, row .lda .aby 4, row .tsx .imp 2, sinkRow, row .ldy .abx 4, row .lda .abx 4, row .ldx .aby 4, sinkRow]

/-- Opcodes 0xC0 to 0xCF (R75). -/
def gridRowC : List Row :=
  [row .cpy .imm 2, row .cmp .izx 6, sinkRow, sinkRow, row .cpy .zp0 3, row .cmp .zp0 3, row .dec .zp0 5, sinkRow,
   row .iny .imp 2, row .cmp .imm 2, row .dex .imp 2, sinkRow, row .cpy .abs 4, row .cmp .abs 4, row .dec .abs 6, sinkRow]

/-- Opcodes 0xD0 to 0xDF (R75). -/
def gridRowD : List Row :=
  [row .bne .rel 2, row .cmp .izy 5, sinkRow, sinkRow, sinkRow, row .cmp .zpx 4, row .dec .zpx 6, sinkRow,
   row .cld .imp 2, row .cmp .aby 4, sinkRow, sinkRow, sinkRow, row .cmp .abx 4, row .dec .abx 7, sinkRow]

/-- Opcodes 0xE0 to 0xEF (R75). -/
def gridRowE : List Row :=
  [row .cpx .imm 2, row .sbc .izx 6, sinkRow, sinkRow, row .cpx .zp0 3, row .sbc .zp0 3, row .inc .zp0 5, sinkRow,
   row .inx .imp 2, row .sbc .imm 2, row .nop .imp 2, sinkRow, row .cpx .abs 4, row .sbc .abs 4, row .inc .abs 6, sinkRow]

/-- Opcodes 0xF0 to 0xFF (R75). -/
def gridRowF : List Row :=
  [row .beq .rel 2, row .sbc .izy 5, sinkRow, sinkRow, sinkRow, row .sbc .zpx 4, row .inc .zpx 6, sinkRow,
   row .sed .imp 2, row .sbc .aby 4, sinkRow, sinkRow, sinkRow, row .sbc .abx 4, row .inc .abx 7, sinkRow]

/-- The opcode map of R75, row `hi` by row. -/
def grid : List (List Row) :=
  [gridRow0, gridRow1, gridRow2, gridRow3, gridRow4, gridRow5, gridRow6, gridRow7,
   gridRow8, gridRow9, gridRowA, gridRowB, gridRowC, gridRowD, gridRowE, gridRowF]

/-- `TABLE` of R72: row `hi`, column `lo` of the grid. -/
def table (op : Byte) : Row := (grid.getD (op.toNat / 16) []).getD (op.toNat % 16) sinkRow

/-- Operand bytes of each mode (R71). -/
def Mode.operandBytes : Mode → Nat
  | .imp => 0
  | .imm | .zp0 | .zpx | .zpy | .rel | .izx | .izy => 1
  | .abs | .abx | .aby | .ind => 2

/-! ### Decoding -/

/-- The operand of a mode from the one or two bytes after the opcode (R70, R76); unused bytes are ignored. -/
def Mode.operandOf (m : Mode) (b1 b2 : Byte) : Operand :=
  match m with
  | .imp => .imp
  | .imm => .imm b1
  | .zp0 => .zp0 b1
  | .zpx => .zpx b1
  | .zpy => .zpy b1
  | .rel => .rel b1
  | .abs => .abs (mkWord b2 b1)
  | .abx => .abx (mkWord b2 b1)
  | .aby => .aby (mkWord b2 b1)
  | .ind => .ind (mkWord b2 b1)
  | .izx => .izx b1
  | .izy => .izy b1

/-- The instruction of an opcode and the bytes after it (R70, R72, R76): the table row chooses, whole byte at once. -/
def instrOf (op b1 b2 : Byte) : Instr :=
  let o := (table op).mode.operandOf b1 b2
  match (table op).mnemonic with
  | .lda => .lda o
  | .ldx => .ldx o
  | .ldy => .ldy o
  | .sta => .sta o
  | .stx => .stx o
  | .sty => .sty o
  | .tax => .tax
  | .tay => .tay
  | .tsx => .tsx
  | .txa => .txa
  | .txs => .txs
  | .tya => .tya
  | .adc => .adc o
  | .sbc => .sbc o
  | .and => .and o
  | .ora => .ora o
  | .eor => .eor o
  | .bit => .bit o
  | .cmp => .cmp o
  | .cpx => .cpx o
  | .cpy => .cpy o
  | .inc => .inc o
  | .dec => .dec o
  | .inx => .inx
  | .iny => .iny
  | .dex => .dex
  | .dey => .dey
  | .asl => .asl o
  | .lsr => .lsr o
  | .rol => .rol o
  | .ror => .ror o
  | .bcc => .bcc b1
  | .bcs => .bcs b1
  | .beq => .beq b1
  | .bne => .bne b1
  | .bmi => .bmi b1
  | .bpl => .bpl b1
  | .bvc => .bvc b1
  | .bvs => .bvs b1
  | .jmp => .jmp o
  | .jsr => .jsr (mkWord b2 b1)
  | .rts => .rts
  | .brk => .brk
  | .rti => .rti
  | .pha => .pha
  | .php => .php
  | .pla => .pla
  | .plp => .plp
  | .clc => .clc
  | .sec => .sec
  | .cld => .cld
  | .sed => .sed
  | .cli => .cli
  | .sei => .sei
  | .clv => .clv
  | .nop => .nop
  | .xxx => .xxx op

/-- Why a list of bytes is no instruction. No byte value is rejected (R77): only a list that ends too early is. -/
inductive DecodeReject where
  /-- There is no opcode byte. -/
  | noOpcodeByte
  /-- The opcode's mode wants more operand bytes than the list holds. -/
  | missingOperandBytes (op : Byte)
  deriving DecidableEq, Repr

/-- Decode the first instruction of a list of bytes; the answer carries the bytes after it (R70, R71, R79). -/
def decode : List Byte → Except DecodeReject (Instr × List Byte)
  | [] => .error .noOpcodeByte
  | op :: rest =>
    match (table op).mode.operandBytes, rest with
    | 0, rest => .ok (instrOf op 0 0, rest)
    | 1, b1 :: rest => .ok (instrOf op b1 0, rest)
    | 2, b1 :: b2 :: rest => .ok (instrOf op b1 b2, rest)
    | _, _ => .error (.missingOperandBytes op)

/-! ### Encoding -/

/-- The "Encoding" line of each instruction rule: opcode, mode, base cycles. XXX has no such line (R227). -/
def encodings : Mnemonic → List (Byte × Mode × Nat)
  | .lda => [(0xA9, .imm, 2), (0xA5, .zp0, 3), (0xB5, .zpx, 4), (0xAD, .abs, 4), (0xBD, .abx, 4), (0xB9, .aby, 4), (0xA1, .izx, 6), (0xB1, .izy, 5)]
  | .ldx => [(0xA2, .imm, 2), (0xA6, .zp0, 3), (0xB6, .zpy, 4), (0xAE, .abs, 4), (0xBE, .aby, 4)]
  | .ldy => [(0xA0, .imm, 2), (0xA4, .zp0, 3), (0xB4, .zpx, 4), (0xAC, .abs, 4), (0xBC, .abx, 4)]
  | .sta => [(0x85, .zp0, 3), (0x95, .zpx, 4), (0x8D, .abs, 4), (0x9D, .abx, 5), (0x99, .aby, 5), (0x81, .izx, 6), (0x91, .izy, 6)]
  | .stx => [(0x86, .zp0, 3), (0x96, .zpy, 4), (0x8E, .abs, 4)]
  | .sty => [(0x84, .zp0, 3), (0x94, .zpx, 4), (0x8C, .abs, 4)]
  | .tax => [(0xAA, .imp, 2)]
  | .tay => [(0xA8, .imp, 2)]
  | .tsx => [(0xBA, .imp, 2)]
  | .txa => [(0x8A, .imp, 2)]
  | .txs => [(0x9A, .imp, 2)]
  | .tya => [(0x98, .imp, 2)]
  | .adc => [(0x69, .imm, 2), (0x65, .zp0, 3), (0x75, .zpx, 4), (0x6D, .abs, 4), (0x7D, .abx, 4), (0x79, .aby, 4), (0x61, .izx, 6), (0x71, .izy, 5)]
  | .sbc => [(0xE9, .imm, 2), (0xE5, .zp0, 3), (0xF5, .zpx, 4), (0xED, .abs, 4), (0xFD, .abx, 4), (0xF9, .aby, 4), (0xE1, .izx, 6), (0xF1, .izy, 5)]
  | .and => [(0x29, .imm, 2), (0x25, .zp0, 3), (0x35, .zpx, 4), (0x2D, .abs, 4), (0x3D, .abx, 4), (0x39, .aby, 4), (0x21, .izx, 6), (0x31, .izy, 5)]
  | .ora => [(0x09, .imm, 2), (0x05, .zp0, 3), (0x15, .zpx, 4), (0x0D, .abs, 4), (0x1D, .abx, 4), (0x19, .aby, 4), (0x01, .izx, 6), (0x11, .izy, 5)]
  | .eor => [(0x49, .imm, 2), (0x45, .zp0, 3), (0x55, .zpx, 4), (0x4D, .abs, 4), (0x5D, .abx, 4), (0x59, .aby, 4), (0x41, .izx, 6), (0x51, .izy, 5)]
  | .bit => [(0x24, .zp0, 3), (0x2C, .abs, 4)]
  | .cmp => [(0xC9, .imm, 2), (0xC5, .zp0, 3), (0xD5, .zpx, 4), (0xCD, .abs, 4), (0xDD, .abx, 4), (0xD9, .aby, 4), (0xC1, .izx, 6), (0xD1, .izy, 5)]
  | .cpx => [(0xE0, .imm, 2), (0xE4, .zp0, 3), (0xEC, .abs, 4)]
  | .cpy => [(0xC0, .imm, 2), (0xC4, .zp0, 3), (0xCC, .abs, 4)]
  | .inc => [(0xE6, .zp0, 5), (0xF6, .zpx, 6), (0xEE, .abs, 6), (0xFE, .abx, 7)]
  | .dec => [(0xC6, .zp0, 5), (0xD6, .zpx, 6), (0xCE, .abs, 6), (0xDE, .abx, 7)]
  | .inx => [(0xE8, .imp, 2)]
  | .iny => [(0xC8, .imp, 2)]
  | .dex => [(0xCA, .imp, 2)]
  | .dey => [(0x88, .imp, 2)]
  | .asl => [(0x0A, .imp, 2), (0x06, .zp0, 5), (0x16, .zpx, 6), (0x0E, .abs, 6), (0x1E, .abx, 7)]
  | .lsr => [(0x4A, .imp, 2), (0x46, .zp0, 5), (0x56, .zpx, 6), (0x4E, .abs, 6), (0x5E, .abx, 7)]
  | .rol => [(0x2A, .imp, 2), (0x26, .zp0, 5), (0x36, .zpx, 6), (0x2E, .abs, 6), (0x3E, .abx, 7)]
  | .ror => [(0x6A, .imp, 2), (0x66, .zp0, 5), (0x76, .zpx, 6), (0x6E, .abs, 6), (0x7E, .abx, 7)]
  | .bcc => [(0x90, .rel, 2)]
  | .bcs => [(0xB0, .rel, 2)]
  | .beq => [(0xF0, .rel, 2)]
  | .bne => [(0xD0, .rel, 2)]
  | .bmi => [(0x30, .rel, 2)]
  | .bpl => [(0x10, .rel, 2)]
  | .bvc => [(0x50, .rel, 2)]
  | .bvs => [(0x70, .rel, 2)]
  | .jmp => [(0x4C, .abs, 3), (0x6C, .ind, 5)]
  | .jsr => [(0x20, .abs, 6)]
  | .rts => [(0x60, .imp, 6)]
  | .brk => [(0x00, .imp, 7)]
  | .rti => [(0x40, .imp, 6)]
  | .pha => [(0x48, .imp, 3)]
  | .php => [(0x08, .imp, 3)]
  | .pla => [(0x68, .imp, 4)]
  | .plp => [(0x28, .imp, 4)]
  | .clc => [(0x18, .imp, 2)]
  | .sec => [(0x38, .imp, 2)]
  | .cld => [(0xD8, .imp, 2)]
  | .sed => [(0xF8, .imp, 2)]
  | .cli => [(0x58, .imp, 2)]
  | .sei => [(0x78, .imp, 2)]
  | .clv => [(0xB8, .imp, 2)]
  | .nop => [(0xEA, .imp, 2)]
  | .xxx => []

/-- The opcode of an instruction: a sink's own value (R74), else the opcode its rule gives its mode; none for a mode
the mnemonic does not have. -/
def Instr.opcodeOf (i : Instr) : Option Byte :=
  match i with
  | .xxx op => some op
  | i => ((encodings i.mnemonic).find? (fun e => e.2.1 == i.operand.mode)).map (·.1)

/-- The operand bytes in the order they follow the opcode, low byte first (R53, R70). -/
def Operand.bytes : Operand → List Byte
  | .imp => []
  | .imm b | .zp0 b | .zpx b | .zpy b | .rel b | .izx b | .izy b => [b]
  | .abs a | .abx a | .aby a | .ind a => [loByte a, hiByte a]

/-- The bytes of a well-formed instruction (R70); no bytes for a form that the spec does not encode. -/
def encode (i : Instr) : List Byte :=
  match i.opcodeOf with
  | some op => op :: i.operand.bytes
  | none => []

/-! ### Words of the opcode table -/

/-- The bytes of a number whose bit 0 is bit 0 of the first byte: three, the longest instruction (R70), with every bit
from `nbits` on read as 0. -/
def tableWordBytes (nbits w : Nat) : List Byte :=
  let v := w % 2 ^ nbits
  [BitVec.ofNat 8 v, BitVec.ofNat 8 (v / 256), BitVec.ofNat 8 (v / 65536)]

/-- What the decoder reads from an instruction whose bits, numbered as opcode_table.json numbers them, are `w`. -/
def decodeTableWord (nbits w : Nat) : Option Instr :=
  match decode (tableWordBytes nbits w) with
  | .ok (i, _) => some i
  | .error _ => none

end Sys2Proof
end

