-- ==== Sys2Proof/Config.lean ====
section
/-! DEFINITION. What the spec leaves open and the model does not choose: opaque constants with no body, so that
no proof can see a value. The OPEN parameters that are plain data stand in State (`Env`), RESET_REGS is an argument
of `State.resetWith`. -/

namespace Sys2Proof.Machine

/-- One bus transaction (R10, R50, R54): a read with the byte the bus answered, or a write with the byte sent. -/
inductive BusEvent where
  | read (addr : Word) (answer : Byte)
  | write (addr : Word) (value : Byte)
  deriving DecidableEq, Repr

end Sys2Proof.Machine

namespace Sys2Proof.Config

open Sys2Proof.Machine

/-- FREE VALUE. The parameter `Bus` of R50 (OPEN, 92 D20): the byte a device window answers to a read of an
address, after the transactions of the log (newest first). Log entry 5. -/
opaque busAnswer : List BusEvent → Word → Byte

/-- FREE VALUE. `opcode` outside its validity window (R30, R33; 93 I3). Log entry 3. -/
opaque looseOpcode : Nat → Byte

/-- FREE VALUE. `fetched` outside its validity window (R31, R33; 93 I3). Log entry 3. -/
opaque looseFetched : Nat → Byte

/-- FREE VALUE. `addr_abs` outside its validity window (R32, R33; 93 I3). Log entry 3. -/
opaque looseAddrAbs : Nat → Word

/-- FREE VALUE. `addr_rel` outside its validity window (R32, R33; 93 I3). Log entry 3. -/
opaque looseAddrRel : Nat → Word

end Sys2Proof.Config
end

