-- ==== Sys2Proof/Machine/State.lean ====
section
/-! DEFINITION. The state of the block (10_state.md R20: the Register File is the whole state), the environment that
the spec asks a model to take as parameters (00_scope.md R7), the outcomes that are no next state, and reset. -/

namespace Sys2Proof.Machine

open Sys2Proof

/-- The eight named bits of P (R25). -/
inductive Flag where
  | c | z | i | d | b | u | v | n
  deriving DecidableEq, Repr

/-- The four 8-bit registers that instructions name (R20). -/
inductive Reg where
  | a | x | y | sp
  deriving DecidableEq, Repr

/-- The registers the host may write (R264). -/
inductive HostReg where
  | a | x | y | sp | p | pc
  deriving DecidableEq, Repr

/-- Memory behind the bus: (address, byte) pairs in the canonical form of `Memory.wf` (R51: one space, 65,536 bytes). -/
abbrev Memory := List Host.Cell

/-- An address window that belongs to a device: its reads are answered by the parameter `Bus` (R50, R52). -/
structure Window where
  base : Word
  size : Nat
  deriving DecidableEq, Repr

/-- The OPEN parameters of R7 that are plain data: which windows of the bus are not memory, and `ILLEGAL_CYCLES`
(R74, a count in 1..7 held as one less; opcodes not listed take the spec's default). No step changes them. -/
structure Env where
  devices : List Window
  sinkCosts : List (Byte × Fin 7)
  deriving DecidableEq, Repr

/-- The machine. Fields `a` to `addrRel` are the Register File of R20; `mem` and `env` are the bus and the other
parameters (R7, R50); `busLog` (newest first) and `freeCount` are the model's own (log entries 6 and 3). -/
structure State where
  /-- `A` (R21). -/
  a : Byte
  /-- `X` (R22). -/
  x : Byte
  /-- `Y` (R22). -/
  y : Byte
  /-- `SP`, an offset into the stack page (R24). -/
  sp : Byte
  /-- `P` (R25). -/
  p : Byte
  /-- `PC` (R23). -/
  pc : Word
  /-- `cycles`, the pulses that remain of the current instruction (R29). -/
  cycles : Nat
  /-- `opcode` scratch (R30). -/
  opcode : Byte
  /-- `fetched` scratch (R31). -/
  fetched : Byte
  /-- `addr_abs` scratch (R32). -/
  addrAbs : Word
  /-- `addr_rel` scratch (R32). -/
  addrRel : Word
  /-- Memory behind the bus (R50, R51). -/
  mem : Memory
  /-- Parameters of the environment (R7). -/
  env : Env
  /-- Bus transactions so far, newest first (R50, R52). -/
  busLog : List BusEvent
  /-- Index of the next free value of a scratch register outside its window (R33). -/
  freeCount : Nat
  deriving DecidableEq, Repr

/-- The block raises no exception and no step faults (R240, R101): there is no fault. -/
inductive Fault where
  deriving DecidableEq, Repr

/-- Requests the model turns away. -/
inductive Refusal where
  /-- Raised by `exec` for an instruction without a meaning: none is left. Safe. -/
  | notModelled (mnemonic : String)
  /-- Raised by `hostWrite` when the host writes a register while `cycles > 0` (R264: "a model refuses it"). Safe. -/
  | hostWriteMidInstruction
  deriving DecidableEq, Repr

/-- The parameter `RESET_REGS` of R7 and R35. -/
structure ResetRegs where
  a : Byte
  x : Byte
  y : Byte
  sp : Byte
  p : Byte
  pc : Word
  deriving DecidableEq, Repr

/-- The block right after power-on with the registers the host supplies (R35, R260): `cycles = 0`. Scratch is
unspecified by R35 and DESIGN CHOICE zero here (log entry 2); memory lists nothing and no window is a device's
(log entries 4 and 5). -/
def State.resetWith (r : ResetRegs) : State where
  a := r.a
  x := r.x
  y := r.y
  sp := r.sp
  p := r.p
  pc := r.pc
  cycles := 0
  opcode := 0
  fetched := 0
  addrAbs := 0
  addrRel := 0
  mem := []
  env := ⟨[], []⟩
  busLog := []
  freeCount := 0

/-- Reset with `RESET_REGS` all zero: DESIGN CHOICE, log entry 1 (R35 leaves them to the host). -/
def State.reset : State := State.resetWith ⟨0, 0, 0, 0, 0, 0⟩

end Sys2Proof.Machine
end

