-- ==== Sys2Proof/Machine/Flags.lean ====
section
/-! DEFINITION. The status register and every flag computation (10_state.md R25 to R28; 43_arithmetic_logic.md). -/

namespace Sys2Proof.Machine

open Sys2Proof

/-- Bit position of a flag in P (R25). -/
def Flag.bit : Flag → Nat
  | .c => 0
  | .z => 1
  | .i => 2
  | .d => 3
  | .b => 4
  | .u => 5
  | .v => 6
  | .n => 7

/-- `get(flag)` on a status byte: "true iff the corresponding bit is set in status" (R26). -/
def getFlag (p : Byte) (f : Flag) : Bool := p.getLsbD f.bit

/-- The status byte with one bit set. -/
def flagMask (f : Flag) : Byte := 1 <<< f.bit

/-- `set(flag, b)` on a status byte: the other seven bits stay (R26). -/
def putFlag (p : Byte) (f : Flag) (b : Bool) : Byte :=
  if b then p ||| flagMask f else p &&& ~~~(flagMask f)

/-- A flag of the machine. -/
def State.flag (s : State) (f : Flag) : Bool := getFlag s.p f

/-- Write a flag of the machine, at once (R26, 90_conflicts.md C1). -/
def State.setFlag (s : State) (f : Flag) (b : Bool) : State := { s with p := putFlag s.p f b }

/-- `SetNZ(v)` of R11. -/
def State.setNZ (s : State) (v : Byte) : State :=
  (s.setFlag .n (v.getLsbD 7)).setFlag .z (v == 0)

/-- An 8-bit register by name. -/
def State.reg (s : State) : Reg → Byte
  | .a => s.a
  | .x => s.x
  | .y => s.y
  | .sp => s.sp

/-- `R <- v` (R9). -/
def State.setReg (s : State) (r : Reg) (v : Byte) : State :=
  match r with
  | .a => { s with a := v }
  | .x => { s with x := v }
  | .y => { s with y := v }
  | .sp => { s with sp := v }

/-- `P <- v`, the whole byte (R9). -/
def State.setStatus (s : State) (v : Byte) : State := { s with p := v }

/-- `PC <- w` (R9). -/
def State.jump (s : State) (w : Word) : State := { s with pc := w }

/-- A register takes a byte, and N and Z come from it: loads, transfers, logic, INX and its kin, PLA. -/
def State.loadReg (s : State) (r : Reg) (v : Byte) : State := (s.setReg r v).setNZ v

/-- The exact sum A + m + C of R151. -/
def addSum (a m : Byte) (c : Bool) : Nat := a.toNat + m.toNat + c.toNat

/-- `u8` of the sum (R151, R166). -/
def addResult (a m : Byte) (c : Bool) : Byte := BitVec.ofNat 8 (addSum a m c)

/-- Carry out: the unsigned sum exceeds 255 (R151). -/
def addCarry (a m : Byte) (c : Bool) : Bool := decide (0xFF < addSum a m c)

/-- Overflow: `(((~(A ^ m)) & (A ^ r)) & 0x80) != 0` (R151). -/
def addOverflow (a m r : Byte) : Bool := (~~~(a ^^^ m) &&& (a ^^^ r) &&& 0x80) != 0

/-- ADC's writes of C, V, N, Z and A, for an operand byte `m`; SBC calls it with `m ^ 0xFF` (R151, R152). P.D plays no
part (R150). -/
def State.addToA (s : State) (m : Byte) : State :=
  let c := s.flag .c
  let r := addResult s.a m c
  let s1 := s.setFlag .c (addCarry s.a m c)
  let s2 := s1.setFlag .v (addOverflow s.a m r)
  (s2.setNZ r).setReg .a r

/-- A compare of a register value `r` with `m`: C, Z, N; V and the register stay (R157 to R159). -/
def State.compare (s : State) (r m : Byte) : State :=
  let s1 := s.setFlag .c (decide (m.toNat ≤ r.toNat))
  let s2 := s1.setFlag .z (r == m)
  s2.setFlag .n ((r - m).getLsbD 7)

/-- BIT's writes: Z from A & m, N and V from bits 7 and 6 of m (R156). -/
def State.bitTest (s : State) (m : Byte) : State :=
  let s1 := s.setFlag .z (s.a &&& m == 0)
  let s2 := s1.setFlag .n (m.getLsbD 7)
  s2.setFlag .v (m.getLsbD 6)

/-- The status byte as PHP and BRK push it: B and U read 1 (R27, R203, R216). -/
def pushedStatus (p : Byte) : Byte := p ||| 0x30

/-- The status byte as PLP and RTI load it: B becomes 0 and U becomes 1 (R27, R204, R218). -/
def pulledStatus (v : Byte) : Byte := (v &&& 0xCF) ||| 0x20

end Sys2Proof.Machine
end

