-- ==== Sys2Proof/Machine/Memory.lean ====
section
/-! DEFINITION. Memory behind the bus as a canonical list: reading and writing one byte (20_memory.md R50, R51, R54). -/

namespace Sys2Proof.Machine

open Sys2Proof

/-- What an unlisted address reads as. The spec leaves the contents of memory to the platform (R50, R56); 0x00 is
DESIGN CHOICE, log entry 4 (it is also the premise of the vectors in 95_test_vectors.md). -/
def Memory.unlisted (_addr : Nat) : Byte := 0

/-- One byte of memory. -/
def Memory.read : Memory → Nat → Byte
  | [], a => Memory.unlisted a
  | (k, v) :: m, a => if a < k then Memory.unlisted a else if a = k then v else Memory.read m a

/-- A cell worth listing in front of `m`: only a value that differs from the unlisted one. -/
def Memory.cons (a : Nat) (v : Byte) (m : Memory) : Memory :=
  if v = Memory.unlisted a then m else (a, v) :: m

/-- Write one byte, keeping the canonical form. -/
def Memory.write : Memory → Nat → Byte → Memory
  | [], a, v => Memory.cons a v []
  | (k, w) :: m, a, v =>
    if a < k then Memory.cons a v ((k, w) :: m)
    else if a = k then Memory.cons a v m
    else (k, w) :: Memory.write m a v

/-- Every address of the list is at least `lo` and addresses rise strictly, inside the 65,536 bytes of R51, and no
entry equals what its address reads as unlisted. -/
def Memory.wfFrom : Nat → Memory → Bool
  | _, [] => true
  | lo, (k, v) :: m => decide (lo ≤ k) && decide (k < 65536) && (v != Memory.unlisted k) && Memory.wfFrom (k + 1) m

/-- The canonical form. -/
def Memory.wf (m : Memory) : Bool := Memory.wfFrom 0 m

/-- The byte of memory at an address, without a bus transaction. -/
def State.peek (s : State) (addr : Word) : Byte := s.mem.read addr.toNat

end Sys2Proof.Machine
end

