-- ==== Sys2Proof/Machine/Ops.lean ====
section
/-! DEFINITION. The shared operations over registers, bus and stack (00_scope.md R8, R10, R11), taking BRK's entry and
returning from it (45_control_transfer.md R203, R204). -/

namespace Sys2Proof.Machine

open Sys2Proof

/-! ### Addresses -/

/-- `page(a)` (R8). -/
def page (a : Word) : Byte := hiByte a

/-- `zext_16` (R8). -/
def zext16 (b : Byte) : Word := b.setWidth 16

/-- `sext_16` (R8). -/
def sext16 (b : Byte) : Word := b.signExtend 16

/-- Two addresses on different pages (the glossary's "page cross"). -/
def pageCross (a b : Word) : Bool := page a != page b

/-- Address of the stack byte that SP names, `0x0100 + SP` (R24, R56). -/
def stackAddr (sp : Byte) : Word := 0x0100 + zext16 sp

/-! ### The bus -/

/-- An address inside a window. -/
def Window.covers (w : Window) (addr : Word) : Bool :=
  decide (w.base.toNat ≤ addr.toNat) && decide (addr.toNat < w.base.toNat + w.size)

/-- An address that a device window of the environment answers (R50, R52). -/
def State.isDevice (s : State) (addr : Word) : Bool := s.env.devices.any (fun w => w.covers addr)

/-- The byte the bus answers to a read now: memory's, or in a device window the parameter `Bus`'s, which may see the
whole history (R50). -/
def State.busAnswer (s : State) (addr : Word) : Byte :=
  if s.isDevice addr then Config.busAnswer s.busLog addr else s.peek addr

/-- The state after one bus read: the transaction is in the history (R10, R52). -/
def State.afterRead (s : State) (addr : Word) : State :=
  { s with busLog := .read addr (s.busAnswer addr) :: s.busLog }

/-- `MemRead(addr, 1)` (R10). -/
def State.busRead (s : State) (addr : Word) : Byte × State := (s.busAnswer addr, s.afterRead addr)

/-- Memory after a write of one byte: a device window keeps its own counsel, memory elsewhere takes the byte. -/
def State.memAfterWrite (s : State) (addr : Word) (v : Byte) : Memory :=
  if s.isDevice addr then s.mem else s.mem.write addr.toNat v

/-- `MemWrite(addr, 1, v)` (R10). -/
def State.busWrite (s : State) (addr : Word) (v : Byte) : State :=
  { s with busLog := .write addr v :: s.busLog, mem := s.memAfterWrite addr v }

/-! ### The stack (R11, R24) -/

/-- `Push(v)`: write, then decrement. -/
def State.push (s : State) (v : Byte) : State :=
  (s.busWrite (stackAddr s.sp) v).setReg .sp (s.sp - 1)

/-- `Pull()`: increment, then read. -/
def State.pull (s : State) : Byte × State :=
  (s.setReg .sp (s.sp + 1)).busRead (stackAddr (s.sp + 1))

/-- `Push` of a 16-bit value, high byte first (R53, R201). -/
def State.pushWord (s : State) (w : Word) : State := (s.push (hiByte w)).push (loByte w)

/-- `Pull` of a 16-bit value, low byte first (R202, R204). -/
def State.pullWord (s : State) : Word × State :=
  let lo := s.pull
  let hi := lo.2.pull
  (mkWord hi.1 lo.1, hi.2)

/-! ### BRK's entry and RTI's return -/

/-- Address of the low byte of the BRK vector (R56). -/
def brkVectorLo : Word := 0xFFFE

/-- Address of the high byte of the BRK vector (R56). -/
def brkVectorHi : Word := 0xFFFF

/-- Taking the one trap-like entry of the block (R203, R242): skip the padding byte unread, push PC high, PC low and
the status byte with B and U set, set I, load PC from the vector, low byte first. -/
def State.enterBreak (s : State) : State :=
  let s1 := s.pushWord (s.pc + 1)
  let s2 := (s1.push (pushedStatus s1.p)).setFlag .i true
  let lo := s2.busRead brkVectorLo
  let hi := lo.2.busRead brkVectorHi
  hi.2.jump (mkWord hi.1 lo.1)

/-- The return (R204, R243): pull the status byte, then PC low and high; nothing is added to PC. -/
def State.returnFromBreak (s : State) : State :=
  let st := s.pull
  let ret := (st.2.setStatus (pulledStatus st.1)).pullWord
  ret.2.jump ret.1

end Sys2Proof.Machine
end

