-- ==== Sys2Proof/Machine/Operands.lean ====
section
/-! DEFINITION. The 12 addressing-mode resolvers (41_addressing_modes.md), the operand fetch and the write-back
(00_scope.md R11), and the frame every handler runs in (40_execution_cycle.md R90, R92, R94). The operand bytes
themselves were read from the bus by the fetch of Driver.lean, in the same order (log entry 8), so `pc` here already
stands after the instruction's last byte. -/

namespace Sys2Proof.Machine

open Sys2Proof

/-- The resolver of a mode with its operand: the extra-cycle signal, and the state with `addr_abs`, `addr_rel` or
`fetched` written and the pointer reads done. -/
def resolve (o : Operand) (s : State) : Bool × State :=
  match o with
  -- R111
  | .imp => (false, { s with fetched := s.a })
  -- R112: the operand byte's own address, the one before the next instruction
  | .imm _ => (false, { s with addrAbs := s.pc - 1 })
  -- R113
  | .zp0 b => (false, { s with addrAbs := zext16 b })
  -- R114
  | .zpx b => (false, { s with addrAbs := zext16 (b + s.x) })
  -- R115
  | .zpy b => (false, { s with addrAbs := zext16 (b + s.y) })
  -- R116
  | .rel d => (false, { s with addrRel := sext16 d })
  -- R117
  | .abs a => (false, { s with addrAbs := a })
  -- R118
  | .abx base => (pageCross (base + zext16 s.x) base, { s with addrAbs := base + zext16 s.x })
  -- R119
  | .aby base => (pageCross (base + zext16 s.y) base, { s with addrAbs := base + zext16 s.y })
  -- R120, with the page-wrap quirk
  | .ind ptr =>
    let lo := s.busRead ptr
    let hi := lo.2.busRead (if loByte ptr = 0xFF then ptr &&& 0xFF00 else ptr + 1)
    (false, { hi.2 with addrAbs := mkWord hi.1 lo.1 })
  -- R121
  | .izx t =>
    let lo := s.busRead (zext16 (t + s.x))
    let hi := lo.2.busRead (zext16 (t + s.x + 1))
    (false, { hi.2 with addrAbs := mkWord hi.1 lo.1 })
  -- R122
  | .izy t =>
    let lo := s.busRead (zext16 t)
    let hi := lo.2.busRead (zext16 (t + 1))
    let base := mkWord hi.1 lo.1
    (pageCross (base + zext16 s.y) base, { hi.2 with addrAbs := base + zext16 s.y })

/-- The byte `Fetch` returns in a state left by the resolver (R11, R96): the accumulator for IMP, the immediate byte
(whose bus read was the operand read of the fetch, log entry 8), else the bus's answer at `addr_abs`. -/
def operandValue (o : Operand) (s : State) : Byte :=
  match o with
  | .imp => s.a
  | .imm b => b
  | _ => s.busAnswer s.addrAbs

/-- `Fetch()` (R11): its value is left in `fetched`; a memory mode performs one bus read, at `addr_abs`. -/
def fetchOperand (o : Operand) (s : State) : State :=
  match o with
  | .imp | .imm _ => { s with fetched := operandValue o s }
  | _ => { s.afterRead s.addrAbs with fetched := operandValue o s }

/-- `WriteBack(v)` (R11, R180): to A in mode IMP, else one bus write at `addr_abs`. -/
def writeBack (o : Operand) (v : Byte) (s : State) : State :=
  match o with
  | .imp => s.setReg .a v
  | _ => s.busWrite s.addrAbs v

/-- One instruction after its bytes are read: resolver, then handler, then the extra cycle if both signal it (R90, R92,
R94). `opExtra` is the handler's signal. -/
def runHandler (o : Operand) (opExtra : Bool) (handler : State → State) (s : State) : State :=
  let r := resolve o s
  let t := handler r.2
  { t with cycles := t.cycles + (r.1 && opExtra).toNat }

end Sys2Proof.Machine
end

