-- ==== Sys2Proof/Machine/Arithmetic.lean ====
section
/-! DEFINITION. Arithmetic, logic, compare, increment and decrement (43_arithmetic_logic.md R150 to R166). -/

namespace Sys2Proof.Machine

open Sys2Proof

/-- ADC (R151). -/
def execAdc (o : Operand) (s : State) : Host.Outcome State Fault Refusal :=
  .next (runHandler o true (fun s =>
    let s1 := fetchOperand o s
    s1.addToA s1.fetched) s)

/-- SBC (R152): ADC of the ones' complement. -/
def execSbc (o : Operand) (s : State) : Host.Outcome State Fault Refusal :=
  .next (runHandler o true (fun s =>
    let s1 := fetchOperand o s
    s1.addToA (s1.fetched ^^^ 0xFF)) s)

/-- AND (R153). -/
def execAnd (o : Operand) (s : State) : Host.Outcome State Fault Refusal :=
  .next (runHandler o true (fun s =>
    let s1 := fetchOperand o s
    s1.loadReg .a (s1.a &&& s1.fetched)) s)

/-- ORA (R154). -/
def execOra (o : Operand) (s : State) : Host.Outcome State Fault Refusal :=
  .next (runHandler o true (fun s =>
    let s1 := fetchOperand o s
    s1.loadReg .a (s1.a ||| s1.fetched)) s)

/-- EOR (R155). -/
def execEor (o : Operand) (s : State) : Host.Outcome State Fault Refusal :=
  .next (runHandler o true (fun s =>
    let s1 := fetchOperand o s
    s1.loadReg .a (s1.a ^^^ s1.fetched)) s)

/-- BIT (R156). -/
def execBit (o : Operand) (s : State) : Host.Outcome State Fault Refusal :=
  .next (runHandler o false (fun s =>
    let s1 := fetchOperand o s
    s1.bitTest s1.fetched) s)

/-- CMP (R157). -/
def execCmp (o : Operand) (s : State) : Host.Outcome State Fault Refusal :=
  .next (runHandler o true (fun s =>
    let s1 := fetchOperand o s
    s1.compare s1.a s1.fetched) s)

/-- CPX (R158). -/
def execCpx (o : Operand) (s : State) : Host.Outcome State Fault Refusal :=
  .next (runHandler o false (fun s =>
    let s1 := fetchOperand o s
    s1.compare s1.x s1.fetched) s)

/-- CPY (R159). -/
def execCpy (o : Operand) (s : State) : Host.Outcome State Fault Refusal :=
  .next (runHandler o false (fun s =>
    let s1 := fetchOperand o s
    s1.compare s1.y s1.fetched) s)

/-- INC (R160): one read, one write of the same address. -/
def execInc (o : Operand) (s : State) : Host.Outcome State Fault Refusal :=
  .next (runHandler o false (fun s =>
    let s1 := fetchOperand o s
    (s1.busWrite s1.addrAbs (s1.fetched + 1)).setNZ (s1.fetched + 1)) s)

/-- DEC (R161). -/
def execDec (o : Operand) (s : State) : Host.Outcome State Fault Refusal :=
  .next (runHandler o false (fun s =>
    let s1 := fetchOperand o s
    (s1.busWrite s1.addrAbs (s1.fetched - 1)).setNZ (s1.fetched - 1)) s)

/-- INX (R162). -/
def execInx (s : State) : Host.Outcome State Fault Refusal :=
  .next (runHandler .imp false (fun s => s.loadReg .x (s.x + 1)) s)

/-- INY (R163). -/
def execIny (s : State) : Host.Outcome State Fault Refusal :=
  .next (runHandler .imp false (fun s => s.loadReg .y (s.y + 1)) s)

/-- DEX (R164). -/
def execDex (s : State) : Host.Outcome State Fault Refusal :=
  .next (runHandler .imp false (fun s => s.loadReg .x (s.x - 1)) s)

/-- DEY (R165). -/
def execDey (s : State) : Host.Outcome State Fault Refusal :=
  .next (runHandler .imp false (fun s => s.loadReg .y (s.y - 1)) s)

end Sys2Proof.Machine
end

