-- ==== Sys2Proof/Machine/Control.lean ====
section
/-! DEFINITION. Branches, jumps, calls, BRK and RTI (45_control_transfer.md R190 to R204). -/

namespace Sys2Proof.Machine

open Sys2Proof

/-- `Branch(cond)` (R190): a taken branch adds one cycle, and one more when its target leaves the page of the next
instruction, and jumps. -/
def State.branch (s : State) (cond : Bool) : State :=
  let target := s.pc + s.addrRel
  let extra := if cond then 1 + (pageCross target s.pc).toNat else 0
  { s with cycles := s.cycles + extra, pc := if cond then target else s.pc }

/-- BCC (R191). -/
def execBcc (d : Byte) (s : State) : Host.Outcome State Fault Refusal :=
  .next (runHandler (.rel d) false (fun s => s.branch (!s.flag .c)) s)

/-- BCS (R192). -/
def execBcs (d : Byte) (s : State) : Host.Outcome State Fault Refusal :=
  .next (runHandler (.rel d) false (fun s => s.branch (s.flag .c)) s)

/-- BEQ (R193). -/
def execBeq (d : Byte) (s : State) : Host.Outcome State Fault Refusal :=
  .next (runHandler (.rel d) false (fun s => s.branch (s.flag .z)) s)

/-- BNE (R194). -/
def execBne (d : Byte) (s : State) : Host.Outcome State Fault Refusal :=
  .next (runHandler (.rel d) false (fun s => s.branch (!s.flag .z)) s)

/-- BMI (R195). -/
def execBmi (d : Byte) (s : State) : Host.Outcome State Fault Refusal :=
  .next (runHandler (.rel d) false (fun s => s.branch (s.flag .n)) s)

/-- BPL (R196). -/
def execBpl (d : Byte) (s : State) : Host.Outcome State Fault Refusal :=
  .next (runHandler (.rel d) false (fun s => s.branch (!s.flag .n)) s)

/-- BVC (R197). -/
def execBvc (d : Byte) (s : State) : Host.Outcome State Fault Refusal :=
  .next (runHandler (.rel d) false (fun s => s.branch (!s.flag .v)) s)

/-- BVS (R198). -/
def execBvs (d : Byte) (s : State) : Host.Outcome State Fault Refusal :=
  .next (runHandler (.rel d) false (fun s => s.branch (s.flag .v)) s)

/-- JMP (R200). -/
def execJmp (o : Operand) (s : State) : Host.Outcome State Fault Refusal :=
  .next (runHandler o false (fun s => s.jump s.addrAbs) s)

/-- JSR (R201): pushes the address of its own last byte. -/
def execJsr (target : Word) (s : State) : Host.Outcome State Fault Refusal :=
  .next (runHandler (.abs target) false (fun s => (s.pushWord (s.pc - 1)).jump s.addrAbs) s)

/-- RTS (R202). -/
def execRts (s : State) : Host.Outcome State Fault Refusal :=
  .next (runHandler .imp false (fun s =>
    let ret := s.pullWord
    ret.2.jump (ret.1 + 1)) s)

/-- BRK (R203, R242). -/
def execBrk (s : State) : Host.Outcome State Fault Refusal :=
  .next (runHandler .imp false (fun s => s.enterBreak) s)

/-- RTI (R204, R243). -/
def execRti (s : State) : Host.Outcome State Fault Refusal :=
  .next (runHandler .imp false (fun s => s.returnFromBreak) s)

end Sys2Proof.Machine
end

