-- ==== Sys2Proof/Machine/LoadStore.lean ====
section
/-! DEFINITION. Loads, stores and transfers (42_load_store_transfer.md R130 to R141). -/

namespace Sys2Proof.Machine

open Sys2Proof

/-- LDA (R130). -/
def execLda (o : Operand) (s : State) : Host.Outcome State Fault Refusal :=
  .next (runHandler o true (fun s =>
    let s1 := fetchOperand o s
    s1.loadReg .a s1.fetched) s)

/-- LDX (R131). -/
def execLdx (o : Operand) (s : State) : Host.Outcome State Fault Refusal :=
  .next (runHandler o true (fun s =>
    let s1 := fetchOperand o s
    s1.loadReg .x s1.fetched) s)

/-- LDY (R132). -/
def execLdy (o : Operand) (s : State) : Host.Outcome State Fault Refusal :=
  .next (runHandler o true (fun s =>
    let s1 := fetchOperand o s
    s1.loadReg .y s1.fetched) s)

/-- STA (R133). -/
def execSta (o : Operand) (s : State) : Host.Outcome State Fault Refusal :=
  .next (runHandler o false (fun s => s.busWrite s.addrAbs s.a) s)

/-- STX (R134). -/
def execStx (o : Operand) (s : State) : Host.Outcome State Fault Refusal :=
  .next (runHandler o false (fun s => s.busWrite s.addrAbs s.x) s)

/-- STY (R135). -/
def execSty (o : Operand) (s : State) : Host.Outcome State Fault Refusal :=
  .next (runHandler o false (fun s => s.busWrite s.addrAbs s.y) s)

/-- TAX (R136). -/
def execTax (s : State) : Host.Outcome State Fault Refusal :=
  .next (runHandler .imp false (fun s => s.loadReg .x s.a) s)

/-- TAY (R137). -/
def execTay (s : State) : Host.Outcome State Fault Refusal :=
  .next (runHandler .imp false (fun s => s.loadReg .y s.a) s)

/-- TSX (R138). -/
def execTsx (s : State) : Host.Outcome State Fault Refusal :=
  .next (runHandler .imp false (fun s => s.loadReg .x s.sp) s)

/-- TXA (R139). -/
def execTxa (s : State) : Host.Outcome State Fault Refusal :=
  .next (runHandler .imp false (fun s => s.loadReg .a s.x) s)

/-- TXS (R140): no flag. -/
def execTxs (s : State) : Host.Outcome State Fault Refusal :=
  .next (runHandler .imp false (fun s => s.setReg .sp s.x) s)

/-- TYA (R141). -/
def execTya (s : State) : Host.Outcome State Fault Refusal :=
  .next (runHandler .imp false (fun s => s.loadReg .a s.y) s)

end Sys2Proof.Machine
end

