-- ==== Sys2Proof/Machine/Shift.lean ====
section
/-! DEFINITION. Shifts and rotates, on A or on memory (44_shift_rotate.md R180 to R184). -/

namespace Sys2Proof.Machine

open Sys2Proof

/-- ASL's and ROL's result: bit 0 takes the incoming bit (R181, R183). -/
def shiftLeft (m : Byte) (carryIn : Bool) : Byte := BitVec.ofNat 8 (m.toNat * 2 + carryIn.toNat)

/-- LSR's and ROR's result: bit 7 takes the incoming bit (R182, R184). -/
def shiftRight (m : Byte) (carryIn : Bool) : Byte := BitVec.ofNat 8 (carryIn.toNat * 0x80 + m.toNat / 2)

/-- The rest of every shift: C takes the bit shifted away, the result goes back where the operand came from, N and Z
come from it (R180). -/
def finishShift (o : Operand) (carryOut : Bool) (r : Byte) (s : State) : State :=
  (writeBack o r (s.setFlag .c carryOut)).setNZ r

/-- ASL (R181). -/
def execAsl (o : Operand) (s : State) : Host.Outcome State Fault Refusal :=
  .next (runHandler o false (fun s =>
    let s1 := fetchOperand o s
    finishShift o (s1.fetched.getLsbD 7) (shiftLeft s1.fetched false) s1) s)

/-- LSR (R182). -/
def execLsr (o : Operand) (s : State) : Host.Outcome State Fault Refusal :=
  .next (runHandler o false (fun s =>
    let s1 := fetchOperand o s
    finishShift o (s1.fetched.getLsbD 0) (shiftRight s1.fetched false) s1) s)

/-- ROL (R183). -/
def execRol (o : Operand) (s : State) : Host.Outcome State Fault Refusal :=
  .next (runHandler o false (fun s =>
    let s1 := fetchOperand o s
    finishShift o (s1.fetched.getLsbD 7) (shiftLeft s1.fetched (s1.flag .c)) s1) s)

/-- ROR (R184). -/
def execRor (o : Operand) (s : State) : Host.Outcome State Fault Refusal :=
  .next (runHandler o false (fun s =>
    let s1 := fetchOperand o s
    finishShift o (s1.fetched.getLsbD 0) (shiftRight s1.fetched (s1.flag .c)) s1) s)

end Sys2Proof.Machine
end

