-- ==== Sys2Proof/Machine/StackFlag.lean ====
section
/-! DEFINITION. Stack push and pull, flag set and clear, NOP and the illegal-opcode sink (46_stack_flag_misc.md R215 to R227). -/

namespace Sys2Proof.Machine

open Sys2Proof

/-- PHA (R215). -/
def execPha (s : State) : Host.Outcome State Fault Refusal :=
  .next (runHandler .imp false (fun s => s.push s.a) s)

/-- PHP (R216): the pushed copy has B and U set; P stays. -/
def execPhp (s : State) : Host.Outcome State Fault Refusal :=
  .next (runHandler .imp false (fun s => s.push (pushedStatus s.p)) s)

/-- PLA (R217). -/
def execPla (s : State) : Host.Outcome State Fault Refusal :=
  .next (runHandler .imp false (fun s =>
    let v := s.pull
    v.2.loadReg .a v.1) s)

/-- PLP (R218). -/
def execPlp (s : State) : Host.Outcome State Fault Refusal :=
  .next (runHandler .imp false (fun s =>
    let v := s.pull
    v.2.setStatus (pulledStatus v.1)) s)

/-- CLC (R219). -/
def execClc (s : State) : Host.Outcome State Fault Refusal :=
  .next (runHandler .imp false (fun s => s.setFlag .c false) s)

/-- SEC (R220). -/
def execSec (s : State) : Host.Outcome State Fault Refusal :=
  .next (runHandler .imp false (fun s => s.setFlag .c true) s)

/-- CLD (R221). -/
def execCld (s : State) : Host.Outcome State Fault Refusal :=
  .next (runHandler .imp false (fun s => s.setFlag .d false) s)

/-- SED (R222). -/
def execSed (s : State) : Host.Outcome State Fault Refusal :=
  .next (runHandler .imp false (fun s => s.setFlag .d true) s)

/-- CLI (R223). -/
def execCli (s : State) : Host.Outcome State Fault Refusal :=
  .next (runHandler .imp false (fun s => s.setFlag .i false) s)

/-- SEI (R224). -/
def execSei (s : State) : Host.Outcome State Fault Refusal :=
  .next (runHandler .imp false (fun s => s.setFlag .i true) s)

/-- CLV (R225). -/
def execClv (s : State) : Host.Outcome State Fault Refusal :=
  .next (runHandler .imp false (fun s => s.setFlag .v false) s)

/-- NOP (R226). -/
def execNop (s : State) : Host.Outcome State Fault Refusal :=
  .next (runHandler .imp false (fun s => s) s)

/-- The sink (R227): no effect of its own beyond the IMP resolver's; every sink slot runs alike, at its own cost (R74). -/
def execXxx (_op : Byte) (s : State) : Host.Outcome State Fault Refusal :=
  .next (runHandler .imp false (fun s => s) s)

end Sys2Proof.Machine
end

