-- ==== Sys2Proof/Machine/Driver.lean ====
section
/-! DEFINITION. The clock driver's parts (40_execution_cycle.md R90 to R93, R97): base cycles, the fetch of opcode and
operand bytes, the end of a pulse, and the instruction-level countdown of R102. -/

namespace Sys2Proof.Machine

open Sys2Proof

/-- `ILLEGAL_CYCLES(op)` in 1..7 (R74): the environment's value, or the spec's default 2. -/
def Env.illegalCycles (e : Env) (op : Byte) : Nat :=
  match e.sinkCosts.lookup op with
  | some c => c.val + 1
  | none => 2

/-- `base` of R93. -/
def Env.baseCycles (e : Env) (op : Byte) : Nat :=
  match (table op).base with
  | some n => n
  | none => e.illegalCycles op

/-- Opcode fetch and `cycles <- base` (R90, R91). -/
def State.fetchOpcode (s : State) : State :=
  let op := s.busAnswer s.pc
  { s.afterRead s.pc with opcode := op, pc := s.pc + 1, cycles := s.env.baseCycles op }

/-- One operand byte from the instruction stream (R76, R110). -/
def State.fetchByte (s : State) : Byte × State :=
  let v := s.busRead s.pc
  (v.1, { v.2 with pc := s.pc + 1 })

/-- The instruction at PC and the state after its bytes are read from the bus in order: opcode, then as many operand
bytes as the mode of its row has (R70, R71, R76, R79, R91, R110). -/
def State.fetchInstr (s : State) : Instr × State :=
  let s1 := s.fetchOpcode
  match (table s1.opcode).mode.operandBytes with
  | 0 => (instrOf s1.opcode 0 0, s1)
  | 1 =>
    let b1 := s1.fetchByte
    (instrOf s1.opcode b1.1 0, b1.2)
  | _ =>
    let b1 := s1.fetchByte
    let b2 := b1.2.fetchByte
    (instrOf s1.opcode b1.1 b2.1, b2.2)

/-- The end of the addressing and operate phase: `fetched`, `addr_abs` and `addr_rel` leave their validity window and
hold free values (R31 to R33; log entry 3). -/
def State.closeOperands (s : State) : State :=
  { s with
    fetched := Config.looseFetched s.freeCount
    addrAbs := Config.looseAddrAbs s.freeCount
    addrRel := Config.looseAddrRel s.freeCount
    freeCount := s.freeCount + 1 }

/-- `cycles <- cycles - 1` at the end of every pulse (R90). When that reaches an instruction boundary, `opcode` leaves
its validity window (R30, R33; log entry 3). -/
def State.endPulse (s : State) : State :=
  let c := s.cycles - 1
  { s with
    cycles := c
    opcode := if c = 0 then Config.looseOpcode s.freeCount else s.opcode
    freeCount := if c = 0 then s.freeCount + 1 else s.freeCount }

/-- What the driver does after the handler, on the fetching pulse. -/
def finishFetchPulse : Host.Outcome State Fault Refusal → Host.Outcome State Fault Refusal
  | .next t => .next t.closeOperands.endPulse
  | .fault r => .fault r
  | .refused r => .refused r

/-- The Fetch state's pulse (R90). -/
def fetchPulse (s : State) : Host.Outcome State Fault Refusal :=
  finishFetchPulse (exec s.fetchInstr.1 s.fetchInstr.2)

/-- `n` pulses of the Counting-down state (R90, R102). -/
def State.countDown : Nat → State → State
  | 0, s => s
  | n + 1, s => State.countDown n s.endPulse

/-- `Exec(state, Bus)` of R102, for a state at an instruction boundary: the first pulse, then the N - 1 decrements. -/
def execInstruction (s : State) : Host.Outcome State Fault Refusal :=
  match fetchPulse s with
  | .next t => .next (State.countDown t.cycles t)
  | .fault r => .fault r
  | .refused r => .refused r

end Sys2Proof.Machine
end

