-- ==== Sys2Proof/Machine/HostPort.lean ====
section
/-! DEFINITION. The host's side (70_reset_and_hazards.md R260 to R264): inspecting, writing and resetting the registers
between pulses, and placing bytes in memory. None of these is an instruction or part of a pulse. -/

namespace Sys2Proof.Machine

open Sys2Proof

/-- What the host may read between pulses (R263, R264): A, X, Y, SP, P, PC and cycles; no scratch (R33). -/
structure HostView where
  a : Byte
  x : Byte
  y : Byte
  sp : Byte
  p : Byte
  pc : Word
  cycles : Nat
  deriving DecidableEq, Repr

/-- Register inspection, at any time between pulses (R264). -/
def hostRead (s : State) : HostView := ⟨s.a, s.x, s.y, s.sp, s.p, s.pc, s.cycles⟩

/-- A register takes a value of the host, an 8-bit register its low byte (R9). -/
def State.setHostReg (s : State) (r : HostReg) (v : Word) : State :=
  match r with
  | .a => { s with a := loByte v }
  | .x => { s with x := loByte v }
  | .y => { s with y := loByte v }
  | .sp => { s with sp := loByte v }
  | .p => { s with p := loByte v }
  | .pc => { s with pc := v }

/-- A register write by the host: only at an instruction boundary, refused at any other time (R264; 93 I6). -/
def hostWrite (r : HostReg) (v : Word) (s : State) : Host.Outcome State Fault Refusal :=
  if s.cycles = 0 then .next (s.setHostReg r v) else .refused .hostWriteMidInstruction

/-- An explicit reset between pulses (R260, R261): the registers take `RESET_REGS`, `cycles` becomes 0, nothing an
instruction did is undone; scratch is unspecified, so it holds free values (R35; log entries 3 and 15). -/
def hostReset (r : ResetRegs) (s : State) : State :=
  { s with
    a := r.a
    x := r.x
    y := r.y
    sp := r.sp
    p := r.p
    pc := r.pc
    cycles := 0
    opcode := Config.looseOpcode s.freeCount
    fetched := Config.looseFetched s.freeCount
    addrAbs := Config.looseAddrAbs s.freeCount
    addrRel := Config.looseAddrRel s.freeCount
    freeCount := s.freeCount + 1 }

/-- The host places a byte in memory between pulses; no transaction of the block (R262, R264). -/
def State.hostPoke (s : State) (addr : Word) (v : Byte) : State :=
  { s with mem := s.mem.write addr.toNat v }

/-- The host makes an address plain memory: the device windows that cover it are taken away. -/
def State.asMemory (s : State) (addr : Word) : State :=
  { s with env := { s.env with devices := s.env.devices.filter (fun w => !w.covers addr) } }

/-- A byte placed where a fetch reads it. -/
def State.placeByte (s : State) (addr : Word) (v : Byte) : State := (s.asMemory addr).hostPoke addr v

/-- Bytes placed at rising addresses (R70: each next address wraps at 16 bits). -/
def State.placeBytes (s : State) (addr : Word) : List Byte → State
  | [] => s
  | v :: vs => (s.placeByte addr v).placeBytes (addr + 1) vs

end Sys2Proof.Machine
end

