-- ==== Sys2Proof/Machine/Step.lean ====
section
/-! DEFINITION. One step of the machine is one clock pulse, `advance_one_cycle()` (40_execution_cycle.md R90), and how
the host places an instruction where the next pulse fetches it. -/

namespace Sys2Proof.Machine

open Sys2Proof

/-- `advance_one_cycle()` (R90): the Fetch state runs a whole instruction, the Counting-down state only counts. -/
def step (s : State) : Host.Outcome State Fault Refusal :=
  if s.cycles = 0 then fetchPulse s else .next s.endPulse

/-- The state with an instruction's bytes at PC, at an instruction boundary, so that the very next pulse fetches and
runs it: what the host does when it loads a program (R262; log entry 9). -/
def State.withFetchWord (s : State) (nbits w : Nat) : State :=
  { s.placeBytes s.pc (tableWordBytes nbits w) with cycles := 0 }

end Sys2Proof.Machine
end

