-- ==== Sys2Proof/Safety.lean ====
section
/-! DEFINITION. The vocabulary of the statements: what a safe step is, the invariant of the machine, and what it means
that an instruction changes only what it may (the frame). -/

namespace Sys2Proof.Machine

open Sys2Proof

/-- A step that neither faults nor is refused: what R101 and R240 promise of every pulse. -/
def Safe (s : State) : Prop := ∃ t, step s = .next t

/-- The invariant: memory is canonical, and a countdown has at most 6 pulses left (R29, R98). -/
structure Inv (s : State) : Prop where
  memWf : s.mem.wf = true
  cyclesLe : s.cycles ≤ 6

/-- Every register and flag but those listed keeps its value, and so do the parameters. -/
structure Keeps (regs : List Reg) (flags : List Flag) (s t : State) : Prop where
  regs : ∀ r, r ∉ regs → t.reg r = s.reg r
  flags : ∀ f, f ∉ flags → t.flag f = s.flag f
  env : t.env = s.env

/-- Every byte of memory reads as before. -/
def MemKept (s t : State) : Prop := ∀ addr, t.peek addr = s.peek addr

/-- One byte is stored: every other address reads as before, and the address reads the new byte unless a device window
covers it (then memory there is untouched and the write is only in the log). -/
def Stored (addr : Word) (v : Byte) (s t : State) : Prop :=
  (∀ a, a ≠ addr → t.peek a = s.peek a) ∧
    t.peek addr = if s.isDevice addr then s.peek addr else v

/-- N and Z come from a byte (R11). -/
def SetsNZ (v : Byte) (t : State) : Prop := t.flag .n = v.getLsbD 7 ∧ t.flag .z = (v == 0)

/-- The effective address of an operand: what the resolver leaves in `addr_abs`. -/
def effAddr (o : Operand) (s : State) : Word := (resolve o s).2.addrAbs

/-- The byte `Fetch` returns after the resolver. -/
def operandByte (o : Operand) (s : State) : Byte := operandValue o (resolve o s).2

/-- The bus log after the resolver's reads and `Fetch`'s. -/
def readLog (o : Operand) (s : State) : List BusEvent := (fetchOperand o (resolve o s).2).busLog

/-- One if the resolver signals an extra cycle, else zero. -/
def resolverExtra (o : Operand) (s : State) : Nat := (resolve o s).1.toNat

/-- The frame of an instruction that reads its operand and stores nothing: besides the listed registers and flags
only the log grows, by the reads of resolver and `Fetch`, and the extra cycle is added if the handler signals it too. -/
structure ReadsOperand (regs : List Reg) (flags : List Flag) (signals : Bool) (o : Operand) (s t : State) : Prop where
  keeps : Keeps regs flags s t
  pc : t.pc = s.pc
  mem : MemKept s t
  log : t.busLog = readLog o s
  cycles : t.cycles = s.cycles + if signals then resolverExtra o s else 0

/-- The frame of a register instruction of mode IMP: no bus transaction, no cycle added, PC where it was. -/
structure Quiet (regs : List Reg) (flags : List Flag) (s t : State) : Prop where
  keeps : Keeps regs flags s t
  pc : t.pc = s.pc
  mem : MemKept s t
  log : t.busLog = s.busLog
  cycles : t.cycles = s.cycles

/-- The frame of a control transfer: no register but those listed, no flag but those listed, no cycle added. -/
structure Transfers (regs : List Reg) (flags : List Flag) (s t : State) : Prop where
  keeps : Keeps regs flags s t
  cycles : t.cycles = s.cycles

/-- The flag and the value on which each branch is taken (R191 to R198). -/
def branchCondition : Mnemonic → Option (Flag × Bool)
  | .bcc => some (.c, false)
  | .bcs => some (.c, true)
  | .beq => some (.z, true)
  | .bne => some (.z, false)
  | .bmi => some (.n, true)
  | .bpl => some (.n, false)
  | .bvc => some (.v, false)
  | .bvs => some (.v, true)
  | _ => none

/-- The rows of the dispatch table with a mnemonic are exactly those listed: opcode, mode, base cycles. -/
def RuleEncoding (m : Mnemonic) (rows : List (Byte × Mode × Nat)) : Prop :=
  ∀ op md base, table op = row m md base ↔ (op, md, base) ∈ rows

/-- Two states that agree on everything but the four scratch registers (R30 to R33). -/
def SameButScratch (s t : State) : Prop :=
  t = { s with opcode := t.opcode, fetched := t.fetched, addrAbs := t.addrAbs, addrRel := t.addrRel }

end Sys2Proof.Machine
end

