-- ==== Sys2Proof/Certificates/Slice0/Obligations.lean ====
section
/-! DEFINITION. The statements for the provers. Each docstring says what its Lean says; OBLIGATIONS.json names the rules
of spec/ it formalises. `RuleEncoding` clauses are the "Encoding" lines of the rules. -/

open Sys2Proof Sys2Proof.Machine

/-- For every well-formed instruction, with every operand, decoding its encoded bytes followed by any bytes answers that
instruction and leaves exactly the bytes that followed. (30_encoding.md R70, 30_encoding.md R71, 30_encoding.md R72, 30_encoding.md R75) -/
def Obligations.DecodeOfEncodeIsTheInstruction : Prop :=
  ∀ (i : Instr) (rest : List Byte), i.wellFormed = true → decode (encode i ++ rest) = .ok (i, rest)

/-- Whatever list of bytes the decoder accepts, the instruction it answers is well formed, and its encoding followed by
the bytes left over is the list that was given: no bit is dropped and no byte after the last operand byte is taken. (30_encoding.md R70, 30_encoding.md R72, 30_encoding.md R79) -/
def Obligations.EncodeOfDecodeIsTheBytes : Prop :=
  ∀ (bytes rest : List Byte) (i : Instr), decode bytes = .ok (i, rest) →
    i.wellFormed = true ∧ encode i ++ rest = bytes

/-- The decoder answers an instruction exactly when the list holds the opcode byte and as many operand bytes as the mode
of the opcode's row has. (30_encoding.md R70, 30_encoding.md R71, 30_encoding.md R77) -/
def Obligations.DecodeRejectsOnlyByteListsThatEndTooEarly : Prop :=
  ∀ bytes : List Byte, (∃ i rest, decode bytes = .ok (i, rest)) ↔
    ∃ op operands, bytes = op :: operands ∧ (table op).mode.operandBytes ≤ operands.length

/-- The byte sequences that R80's table and vectors E11, S11, K3, K14, K17 and programs P2, P3, P5 of 95_test_vectors.md
write out decode to the instructions they name, one or more of every family. (30_encoding.md R75, 30_encoding.md R80, 95_test_vectors.md E11, S11, K3, K14, K17, 95_test_vectors.md P2, P3, P5) -/
def Obligations.SpecWordsDecodeToTheirInstructions : Prop :=
  decode [0xA9, 0x10] = .ok (.lda (.imm 0x10), []) ∧
  decode [0xB6, 0x10] = .ok (.ldx (.zpy 0x10), []) ∧
  decode [0xBD, 0x34, 0x12] = .ok (.lda (.abx 0x1234), []) ∧
  decode [0x91, 0x12] = .ok (.sta (.izy 0x12), []) ∧
  decode [0xE9, 0x30] = .ok (.sbc (.imm 0x30), []) ∧
  decode [0x0A] = .ok (.asl .imp, []) ∧
  decode [0x6E, 0x34, 0x12] = .ok (.ror (.abs 0x1234), []) ∧
  decode [0xD0, 0xFD] = .ok (.bne 0xFD, []) ∧
  decode [0x6C, 0xFF, 0x12] = .ok (.jmp (.ind 0x12FF), []) ∧
  decode [0x20, 0x09, 0x06] = .ok (.jsr 0x0609, []) ∧
  decode [0x08] = .ok (.php, []) ∧
  decode [0x78] = .ok (.sei, []) ∧
  decode [0x02, 0xA9] = .ok (.xxx 0x02, [0xA9])

/-- For every opcode byte and every value of the parameters, the row's base cycle count is between 1 and 7, and the
instruction built from the row with any operand bytes is well formed, so no slot falls through. (R72) -/
def Obligations.EveryOpcodeSelectsADefinedRow : Prop :=
  ∀ (op b1 b2 : Byte) (e : Env),
    1 ≤ e.baseCycles op ∧ e.baseCycles op ≤ 7 ∧ (instrOf op b1 b2).wellFormed = true ∧
    (instrOf op b1 b2).mnemonic = (table op).mnemonic ∧ (instrOf op b1 b2).operand = (table op).mode.operandOf b1 b2

/-- An opcode's row is the sink row exactly when the opcode stands in R74's list, the list has 105 values with no
repetition, and a sink's base count is the parameter's value. (30_encoding.md R74) -/
def Obligations.ExactlyTheSinkSlotsSelectTheSink : Prop :=
  (∀ op : Byte, table op = ⟨.xxx, .imp, none⟩ ↔ op ∈ sinkSlots) ∧
  sinkSlots.length = 105 ∧ sinkSlots.Nodup ∧
  ∀ (op : Byte) (e : Env), op ∈ sinkSlots → e.baseCycles op = e.illegalCycles op

/-- On a canonical memory, a write of one byte keeps the canonical form, reads back at its own address, and leaves every
other address as it was; two canonical memories that read alike are equal. That a byte of memory reads as the last
one written, as far as the bus is memory (R58), is the model's choice of log entry 5; the canonical form and what an
unlisted byte reads as are log entry 4. (20_memory.md R51, 20_memory.md R54, 00_scope.md R10, 20_memory.md R58) -/
def Obligations.MemoryReadAfterWrite : Prop :=
  (∀ (m : Memory) (addr : Word) (v : Byte), m.wf = true →
    (m.write addr.toNat v).wf = true ∧
    ∀ b : Nat, (m.write addr.toNat v).read b = if b = addr.toNat then v else m.read b) ∧
  ∀ m n : Memory, m.wf = true → n.wf = true → (∀ b, m.read b = n.read b) → m = n

/-- The status byte as a number is N*128 + V*64 + U*32 + B*16 + D*8 + I*4 + Z*2 + C; get(flag) is the bit of P at the
flag's position; set(flag, b) writes that bit of P in the machine's own state, and every other flag and every other
field keeps its value. Rests on the spec's own reading D3, which numbers the flags in the order of the list. (10_state.md R25, R26, 92_eei_decisions.md D3) -/
def Obligations.FlagsAreTheBitsOfTheStatusByte : Prop :=
  ∀ s : State,
    s.p.toNat =
      (s.flag .n).toNat * 128 + (s.flag .v).toNat * 64 + (s.flag .u).toNat * 32 + (s.flag .b).toNat * 16 +
      (s.flag .d).toNat * 8 + (s.flag .i).toNat * 4 + (s.flag .z).toNat * 2 + (s.flag .c).toNat ∧
    ∀ (f : Flag) (b : Bool),
      s.flag f = s.p.getLsbD f.bit ∧
      (s.setFlag f b).flag f = b ∧ (∀ g, g ≠ f → (s.setFlag f b).flag g = s.flag g) ∧
      s.setFlag f b = { s with p := (s.setFlag f b).p }

/-- Every push stores its byte at 0x0100 + SP and decrements SP modulo 256, every pull increments SP modulo 256 and
answers the bus at 0x0100 + SP; the stack address is always on page 0x01; a push at SP = 0x00 leaves SP = 0xFF. The
stack page is the spec's own decision D2. Inside a device window the write is only in the log and memory stays as it
was: the model's choice, log entries 5 and 19. (10_state.md R24, 00_scope.md R11, 92_eei_decisions.md D2) -/
def Obligations.StackWrapsInsideItsPage : Prop :=
  ∀ (s : State) (v : Byte), s.mem.wf = true →
    Stored (stackAddr s.sp) v s (s.push v) ∧ (s.push v).busLog = .write (stackAddr s.sp) v :: s.busLog ∧
    (s.push v).sp.toNat = (s.sp.toNat + 255) % 256 ∧
    s.pull.2.sp.toNat = (s.sp.toNat + 1) % 256 ∧ s.pull.1 = s.busAnswer (stackAddr (s.sp + 1)) ∧
    s.pull.2.busLog = .read (stackAddr (s.sp + 1)) s.pull.1 :: s.busLog ∧
    (stackAddr s.sp).toNat = 256 + s.sp.toNat ∧ page (stackAddr s.sp) = 0x01 ∧
    (s.sp = 0x00 → (s.push v).sp = 0xFF)

/-- IMP puts A in fetched; IMM's effective address is that of the byte before the next instruction; ZP0's is its byte;
ZPX's and ZPY's wrap inside page 0; REL's displacement is sign-extended; ABS's is its operand. None reads the bus in
the resolver, none signals, no register changes. That the operand bytes were read before the resolver, so that it
reads no bus, and that the IMM address is PC - 1, is the model's reading, log entry 8; mode IMM is the spec's own
decision D6. (41_addressing_modes.md R111 to R117, 92_eei_decisions.md D6) -/
def Obligations.DirectModesResolve : Prop :=
  ∀ (s : State) (b : Byte) (w : Word),
    resolve .imp s = (false, { s with fetched := s.a }) ∧
    resolve (.imm b) s = (false, { s with addrAbs := s.pc - 1 }) ∧
    (∃ a, resolve (.zp0 b) s = (false, { s with addrAbs := a }) ∧ a.toNat = b.toNat) ∧
    (∃ a, resolve (.zpx b) s = (false, { s with addrAbs := a }) ∧ a.toNat = (b.toNat + s.x.toNat) % 256) ∧
    (∃ a, resolve (.zpy b) s = (false, { s with addrAbs := a }) ∧ a.toNat = (b.toNat + s.y.toNat) % 256) ∧
    (∃ r, resolve (.rel b) s = (false, { s with addrRel := r }) ∧
      r.toNat = if b.getLsbD 7 then b.toNat + 0xFF00 else b.toNat) ∧
    resolve (.abs w) s = (false, { s with addrAbs := w })

/-- The effective address of ABX (ABY) is base + X (Y) modulo 65536, with no bus read and no other state change, and the
resolver signals exactly when that address and the base lie on different 256-byte pages. That the base's two bytes
were read before the resolver is the model's reading, log entry 8; that the unfixed address is not read is the
spec's own decision D9. (41_addressing_modes.md R118, 41_addressing_modes.md R119, 92_eei_decisions.md D9) -/
def Obligations.IndexedAbsoluteModesSignalPageCross : Prop :=
  ∀ (s : State) (base : Word),
    (∃ a, (resolve (.abx base) s).2 = { s with addrAbs := a } ∧ a.toNat = (base.toNat + s.x.toNat) % 65536 ∧
      ((resolve (.abx base) s).1 = true ↔ a.toNat / 256 ≠ base.toNat / 256)) ∧
    (∃ a, (resolve (.aby base) s).2 = { s with addrAbs := a } ∧ a.toNat = (base.toNat + s.y.toNat) % 65536 ∧
      ((resolve (.aby base) s).1 = true ↔ a.toNat / 256 ≠ base.toNat / 256))

/-- The resolver of IND makes two bus reads, first the pointer, then, where the pointer's low byte is 0xFF, the start of
the pointer's own page, else the pointer plus one; the effective address is high:low; it signals nothing and changes
nothing else. The low byte first is the spec's own decision D7; that the operand's two bytes were read before,
leaving two of R120's four reads to the resolver, is the model's reading, log entry 8. (41_addressing_modes.md R120, 20_memory.md R55, 92_eei_decisions.md D7) -/
def Obligations.IndirectModeWrapsInsideThePointersPage : Prop :=
  ∀ (s : State) (ptr second : Word),
    second.toNat = (if ptr.toNat % 256 = 0xFF then ptr.toNat - 0xFF else ptr.toNat + 1) →
    ∃ lo hi : Byte, lo = s.busAnswer ptr ∧ hi = (s.afterRead ptr).busAnswer second ∧
      ∃ a : Word, a.toNat = hi.toNat * 256 + lo.toNat ∧
        resolve (.ind ptr) s = (false, { s with
          addrAbs := a
          busLog := .read second hi :: .read ptr lo :: s.busLog })

/-- The resolver of IZX reads the pointer's low byte at (t + X) mod 256 and its high byte at (t + X + 1) mod 256, in
this order; the effective address is high:low; it signals nothing and changes nothing else. The low byte first is
the spec's own decision D7; that the operand byte was read before the resolver is the model's reading, log entry 8. (41_addressing_modes.md R121, 92_eei_decisions.md D7) -/
def Obligations.IndexedIndirectPointerStaysInZeroPage : Prop :=
  ∀ (s : State) (t : Byte) (p0 p1 : Word),
    p0.toNat = (t.toNat + s.x.toNat) % 256 → p1.toNat = (t.toNat + s.x.toNat + 1) % 256 →
    ∃ lo hi : Byte, lo = s.busAnswer p0 ∧ hi = (s.afterRead p0).busAnswer p1 ∧
      ∃ a : Word, a.toNat = hi.toNat * 256 + lo.toNat ∧
        resolve (.izx t) s = (false, { s with
          addrAbs := a
          busLog := .read p1 hi :: .read p0 lo :: s.busLog })

/-- The resolver of IZY reads the pointer's low byte at t and its high byte at (t + 1) mod 256, in this order; the
effective address is the pointer plus Y modulo 65536; it signals exactly when that address and the pointer lie on
different pages; nothing else changes. The wrap of the second pointer byte is the spec's own decision D8, the low
byte first its decision D7; that the operand byte was read before the resolver is the model's reading, log entry 8. (41_addressing_modes.md R122, 90_conflicts.md C3, 92_eei_decisions.md D7, 92_eei_decisions.md D8) -/
def Obligations.IndirectIndexedAddsYAndSignalsPageCross : Prop :=
  ∀ (s : State) (t : Byte) (p0 p1 : Word),
    p0.toNat = t.toNat → p1.toNat = (t.toNat + 1) % 256 →
    ∃ lo hi : Byte, lo = s.busAnswer p0 ∧ hi = (s.afterRead p0).busAnswer p1 ∧
      ∃ a : Word, a.toNat = (hi.toNat * 256 + lo.toNat + s.y.toNat) % 65536 ∧
        (resolve (.izy t) s).2 = { s with addrAbs := a, busLog := .read p1 hi :: .read p0 lo :: s.busLog } ∧
        ((resolve (.izy t) s).1 = true ↔ a.toNat / 256 ≠ hi.toNat)

/-- After the resolver, the byte Fetch returns is the accumulator in mode IMP, the immediate byte in mode IMM (whose
read the fetch of the instruction made), and in every other mode the bus's answer at addr_abs, logged as exactly one
read. That Fetch makes no read of its own in mode IMM, where R96 and R112 place the one read of the byte in it, is
the model's reading, log entry 8; mode IMM is the spec's own decision D6. (00_scope.md R11, 40_execution_cycle.md R96, 41_addressing_modes.md R112, 92_eei_decisions.md D6) -/
def Obligations.OperandFetchReadsTheEffectiveAddressOnce : Prop :=
  ∀ (o : Operand) (s : State), let t := (resolve o s).2
    (o = .imp → operandByte o s = s.a ∧ readLog o s = s.busLog) ∧
    (∀ b, o = .imm b → operandByte o s = b ∧ readLog o s = s.busLog) ∧
    (o ≠ .imp → (∀ b, o ≠ .imm b) → operandByte o s = t.busAnswer (effAddr o s) ∧
      readLog o s = .read (effAddr o s) (operandByte o s) :: t.busLog)

/-- In every mode of their rows, LDA, LDX and LDY complete with the named register equal to the operand byte, N and Z
set from it, every other register, flag and byte of memory as before, no bus transaction beyond the reads of the
mode, and the extra cycle exactly when the resolver signals it. Rests on the spec's own decision D17 for the extra
cycle. (42_load_store_transfer.md R130 to R132, 92_eei_decisions.md D17) -/
def Obligations.LoadsCopyTheOperandByte : Prop :=
  RuleEncoding .lda [(0xA9, .imm, 2), (0xA5, .zp0, 3), (0xB5, .zpx, 4), (0xAD, .abs, 4),
    (0xBD, .abx, 4), (0xB9, .aby, 4), (0xA1, .izx, 6), (0xB1, .izy, 5)] ∧
  RuleEncoding .ldx [(0xA2, .imm, 2), (0xA6, .zp0, 3), (0xB6, .zpy, 4), (0xAE, .abs, 4), (0xBE, .aby, 4)] ∧
  RuleEncoding .ldy [(0xA0, .imm, 2), (0xA4, .zp0, 3), (0xB4, .zpx, 4), (0xAC, .abs, 4), (0xBC, .abx, 4)] ∧
  ∀ (o : Operand) (s : State),
    ((Instr.lda o).wellFormed = true → ∃ t, exec (.lda o) s = .next t ∧
      t.a = operandByte o s ∧ SetsNZ (operandByte o s) t ∧ ReadsOperand [.a] [.n, .z] true o s t) ∧
    ((Instr.ldx o).wellFormed = true → ∃ t, exec (.ldx o) s = .next t ∧
      t.x = operandByte o s ∧ SetsNZ (operandByte o s) t ∧ ReadsOperand [.x] [.n, .z] true o s t) ∧
    ((Instr.ldy o).wellFormed = true → ∃ t, exec (.ldy o) s = .next t ∧
      t.y = operandByte o s ∧ SetsNZ (operandByte o s) t ∧ ReadsOperand [.y] [.n, .z] true o s t)

/-- In every mode of their rows, STA, STX and STY complete with the register's byte written at the effective address
(stored there unless a device window covers it), no read of that address, every other byte of memory, every register
and every flag as before, and no extra cycle. Inside a device window the write is only in the log and memory stays
as it was: the model's choice, log entries 5 and 19. (42_load_store_transfer.md R133 to R135, 20_memory.md R50) -/
def Obligations.StoresWriteTheRegister : Prop :=
  RuleEncoding .sta [(0x85, .zp0, 3), (0x95, .zpx, 4), (0x8D, .abs, 4), (0x9D, .abx, 5),
    (0x99, .aby, 5), (0x81, .izx, 6), (0x91, .izy, 6)] ∧
  RuleEncoding .stx [(0x86, .zp0, 3), (0x96, .zpy, 4), (0x8E, .abs, 4)] ∧
  RuleEncoding .sty [(0x84, .zp0, 3), (0x94, .zpx, 4), (0x8C, .abs, 4)] ∧
  ∀ (o : Operand) (s : State), s.mem.wf = true →
    ((Instr.sta o).wellFormed = true → ∃ t, exec (.sta o) s = .next t ∧ Stored (effAddr o s) s.a s t ∧
      Keeps [] [] s t ∧ t.pc = s.pc ∧ t.cycles = s.cycles ∧
      t.busLog = .write (effAddr o s) s.a :: (resolve o s).2.busLog) ∧
    ((Instr.stx o).wellFormed = true → ∃ t, exec (.stx o) s = .next t ∧ Stored (effAddr o s) s.x s t ∧
      Keeps [] [] s t ∧ t.pc = s.pc ∧ t.cycles = s.cycles ∧
      t.busLog = .write (effAddr o s) s.x :: (resolve o s).2.busLog) ∧
    ((Instr.sty o).wellFormed = true → ∃ t, exec (.sty o) s = .next t ∧ Stored (effAddr o s) s.y s t ∧
      Keeps [] [] s t ∧ t.pc = s.pc ∧ t.cycles = s.cycles ∧
      t.busLog = .write (effAddr o s) s.y :: (resolve o s).2.busLog)

/-- Each transfer completes with the destination equal to the source as it was, N and Z from it (none for TXS), and no
other register, flag, byte of memory, bus transaction or cycle. (R136, R137, R138, R139, R140, R141) -/
def Obligations.TransfersCopyOneRegister : Prop :=
  RuleEncoding .tax [(0xAA, .imp, 2)] ∧
  RuleEncoding .tay [(0xA8, .imp, 2)] ∧
  RuleEncoding .tsx [(0xBA, .imp, 2)] ∧
  RuleEncoding .txa [(0x8A, .imp, 2)] ∧
  RuleEncoding .txs [(0x9A, .imp, 2)] ∧
  RuleEncoding .tya [(0x98, .imp, 2)] ∧
  ∀ s : State,
    (∃ t, exec .tax s = .next t ∧ t.x = s.a ∧ SetsNZ s.a t ∧ Quiet [.x] [.n, .z] s t) ∧
    (∃ t, exec .tay s = .next t ∧ t.y = s.a ∧ SetsNZ s.a t ∧ Quiet [.y] [.n, .z] s t) ∧
    (∃ t, exec .tsx s = .next t ∧ t.x = s.sp ∧ SetsNZ s.sp t ∧ Quiet [.x] [.n, .z] s t) ∧
    (∃ t, exec .txa s = .next t ∧ t.a = s.x ∧ SetsNZ s.x t ∧ Quiet [.a] [.n, .z] s t) ∧
    (∃ t, exec .tya s = .next t ∧ t.a = s.y ∧ SetsNZ s.y t ∧ Quiet [.a] [.n, .z] s t) ∧
    (∃ t, exec .txs s = .next t ∧ t.sp = s.x ∧ Quiet [.sp] [] s t)

/-- In every mode of its rows ADC completes with A equal to the sum of the old A, the operand byte and C modulo 256, C
set exactly when the sum exceeds 255, V exactly when the two operands share a sign and the result's differs, N and Z
from the result, the extra cycle exactly when the resolver signals it, and nothing else changed but the log, by the
reads of the mode. Rests on the spec's own decisions D19, that D plays no part (log entry 13), and D17, that ADC
signals the extra cycle. (43_arithmetic_logic.md R151, 43_arithmetic_logic.md R150, 92_eei_decisions.md D19, 92_eei_decisions.md D17) -/
def Obligations.AdcAddsWithCarry : Prop :=
  RuleEncoding .adc [(0x69, .imm, 2), (0x65, .zp0, 3), (0x75, .zpx, 4), (0x6D, .abs, 4),
    (0x7D, .abx, 4), (0x79, .aby, 4), (0x61, .izx, 6), (0x71, .izy, 5)] ∧
  ∀ (o : Operand) (s : State),
    let m := operandByte o s
    let sum := s.a.toNat + m.toNat + (s.flag .c).toNat
    (Instr.adc o).wellFormed = true → ∃ t, exec (.adc o) s = .next t ∧
      t.a.toNat = sum % 256 ∧ SetsNZ t.a t ∧ t.flag .c = decide (255 < sum) ∧
      t.flag .v = (s.a.getLsbD 7 == m.getLsbD 7 && t.a.getLsbD 7 != s.a.getLsbD 7) ∧
      ReadsOperand [.a] [.c, .z, .v, .n] true o s t

/-- In every mode of its rows SBC completes as the addition of the ones' complement of the operand byte: A equals the
old A minus the operand minus the borrow modulo 256, C is set exactly when there was no borrow, V by the sign rule
on the complement, N and Z from the result, the extra cycle exactly when the resolver signals it, and nothing else
changed but the log, by the reads of the mode. Rests on the spec's own decisions D25, that SBC is ADC of the
complemented operand, D19, that D plays no part (log entry 13), and D17, that SBC signals the extra cycle. (43_arithmetic_logic.md R152, 92_eei_decisions.md D25, 92_eei_decisions.md D19, 92_eei_decisions.md D17) -/
def Obligations.SbcSubtractsWithBorrow : Prop :=
  RuleEncoding .sbc [(0xE9, .imm, 2), (0xE5, .zp0, 3), (0xF5, .zpx, 4), (0xED, .abs, 4),
    (0xFD, .abx, 4), (0xF9, .aby, 4), (0xE1, .izx, 6), (0xF1, .izy, 5)] ∧
  ∀ (o : Operand) (s : State),
    let m := ~~~(operandByte o s)
    let sum := s.a.toNat + m.toNat + (s.flag .c).toNat
    (Instr.sbc o).wellFormed = true → ∃ t, exec (.sbc o) s = .next t ∧
      t.a.toNat = sum % 256 ∧ SetsNZ t.a t ∧ t.flag .c = decide (255 < sum) ∧
      t.flag .v = (s.a.getLsbD 7 == m.getLsbD 7 && t.a.getLsbD 7 != s.a.getLsbD 7) ∧
      t.a.toNat = (256 + s.a.toNat - (operandByte o s).toNat - (1 - (s.flag .c).toNat)) % 256 ∧
      t.flag .c = decide ((operandByte o s).toNat + (1 - (s.flag .c).toNat) ≤ s.a.toNat) ∧
      ReadsOperand [.a] [.c, .z, .v, .n] true o s t

/-- In every mode of their rows AND, ORA and EOR complete with each bit of A the and, or, exclusive or of A's and the
operand's bit, N and Z from the new A, the extra cycle exactly when the resolver signals it, and nothing else
changed but the log, by the reads of the mode. Rests on the spec's own decision D17 for the extra cycle. (43_arithmetic_logic.md R153 to R155, 92_eei_decisions.md D17) -/
def Obligations.LogicOperationsCombineBitwise : Prop :=
  RuleEncoding .and [(0x29, .imm, 2), (0x25, .zp0, 3), (0x35, .zpx, 4), (0x2D, .abs, 4),
    (0x3D, .abx, 4), (0x39, .aby, 4), (0x21, .izx, 6), (0x31, .izy, 5)] ∧
  RuleEncoding .ora [(0x09, .imm, 2), (0x05, .zp0, 3), (0x15, .zpx, 4), (0x0D, .abs, 4),
    (0x1D, .abx, 4), (0x19, .aby, 4), (0x01, .izx, 6), (0x11, .izy, 5)] ∧
  RuleEncoding .eor [(0x49, .imm, 2), (0x45, .zp0, 3), (0x55, .zpx, 4), (0x4D, .abs, 4),
    (0x5D, .abx, 4), (0x59, .aby, 4), (0x41, .izx, 6), (0x51, .izy, 5)] ∧
  ∀ (o : Operand) (s : State),
    ((Instr.and o).wellFormed = true → ∃ t, exec (.and o) s = .next t ∧
      (∀ k, k < 8 → t.a.getLsbD k = (s.a.getLsbD k && (operandByte o s).getLsbD k)) ∧ SetsNZ t.a t ∧ ReadsOperand [.a] [.n, .z] true o s t) ∧
    ((Instr.ora o).wellFormed = true → ∃ t, exec (.ora o) s = .next t ∧
      (∀ k, k < 8 → t.a.getLsbD k = (s.a.getLsbD k || (operandByte o s).getLsbD k)) ∧ SetsNZ t.a t ∧ ReadsOperand [.a] [.n, .z] true o s t) ∧
    ((Instr.eor o).wellFormed = true → ∃ t, exec (.eor o) s = .next t ∧
      (∀ k, k < 8 → t.a.getLsbD k = (s.a.getLsbD k ^^ (operandByte o s).getLsbD k)) ∧ SetsNZ t.a t ∧ ReadsOperand [.a] [.n, .z] true o s t)

/-- In both modes of its rows BIT completes with Z set exactly when A and the operand byte share no set bit, N and V
equal to bits 7 and 6 of the operand byte, no extra cycle, and nothing else changed, A included. Rests on the spec's
own decision D25, the standard BIT. (43_arithmetic_logic.md R156, 92_eei_decisions.md D25) -/
def Obligations.BitTestsWithoutWritingA : Prop :=
  RuleEncoding .bit [(0x24, .zp0, 3), (0x2C, .abs, 4)] ∧
  ∀ (o : Operand) (s : State), (Instr.bit o).wellFormed = true → ∃ t, exec (.bit o) s = .next t ∧
      t.flag .z = (s.a &&& operandByte o s == 0) ∧ t.flag .n = (operandByte o s).getLsbD 7 ∧
      t.flag .v = (operandByte o s).getLsbD 6 ∧ ReadsOperand [] [.z, .n, .v] false o s t

/-- In every mode of their rows the compares complete with C set exactly when the register is at least the operand byte
(unsigned), Z exactly when they are equal, N equal to bit 7 of their difference modulo 256, every register, V and
every other flag unchanged; only CMP takes the resolver's extra cycle. Rests on the spec's own decision D17 for
CMP's extra cycle and its passage G16 for V. (43_arithmetic_logic.md R157 to R159, 92_eei_decisions.md D17, 93_implementation_defined.md G16) -/
def Obligations.ComparesSubtractWithoutStoring : Prop :=
  RuleEncoding .cmp [(0xC9, .imm, 2), (0xC5, .zp0, 3), (0xD5, .zpx, 4), (0xCD, .abs, 4),
    (0xDD, .abx, 4), (0xD9, .aby, 4), (0xC1, .izx, 6), (0xD1, .izy, 5)] ∧
  RuleEncoding .cpx [(0xE0, .imm, 2), (0xE4, .zp0, 3), (0xEC, .abs, 4)] ∧
  RuleEncoding .cpy [(0xC0, .imm, 2), (0xC4, .zp0, 3), (0xCC, .abs, 4)] ∧
  ∀ (o : Operand) (s : State),
    ((Instr.cmp o).wellFormed = true → ∃ t, exec (.cmp o) s = .next t ∧
      t.flag .c = decide ((operandByte o s).toNat ≤ s.a.toNat) ∧
      t.flag .z = (s.a == operandByte o s) ∧ t.flag .n = (s.a - operandByte o s).getLsbD 7 ∧ ReadsOperand [] [.c, .z, .n] true o s t) ∧
    ((Instr.cpx o).wellFormed = true → ∃ t, exec (.cpx o) s = .next t ∧
      t.flag .c = decide ((operandByte o s).toNat ≤ s.x.toNat) ∧
      t.flag .z = (s.x == operandByte o s) ∧ t.flag .n = (s.x - operandByte o s).getLsbD 7 ∧ ReadsOperand [] [.c, .z, .n] false o s t) ∧
    ((Instr.cpy o).wellFormed = true → ∃ t, exec (.cpy o) s = .next t ∧
      t.flag .c = decide ((operandByte o s).toNat ≤ s.y.toNat) ∧
      t.flag .z = (s.y == operandByte o s) ∧ t.flag .n = (s.y - operandByte o s).getLsbD 7 ∧ ReadsOperand [] [.c, .z, .n] false o s t)

/-- In every mode of their rows INC and DEC complete with the operand byte plus (minus) 1 modulo 256 written at the
effective address after the one read of it, N and Z from the new byte, C and V and every register unchanged, every
other byte of memory as before, and no extra cycle. Rests on the spec's own decision D9: one read, then one write,
no dummy access. Inside a device window the write is only in the log and memory stays as it was: the model's choice,
log entries 5 and 19. (43_arithmetic_logic.md R160, R161, 92_eei_decisions.md D9) -/
def Obligations.IncAndDecModifyMemoryOnce : Prop :=
  RuleEncoding .inc [(0xE6, .zp0, 5), (0xF6, .zpx, 6), (0xEE, .abs, 6), (0xFE, .abx, 7)] ∧
  RuleEncoding .dec [(0xC6, .zp0, 5), (0xD6, .zpx, 6), (0xCE, .abs, 6), (0xDE, .abx, 7)] ∧
  ∀ (o : Operand) (s : State), s.mem.wf = true →
    ((Instr.inc o).wellFormed = true → ∃ t r, exec (.inc o) s = .next t ∧ (r : Byte).toNat = ((operandByte o s).toNat + 1) % 256 ∧ SetsNZ r t ∧
      Stored (effAddr o s) r s t ∧ t.busLog = .write (effAddr o s) r :: readLog o s ∧
      Keeps [] [.n, .z] s t ∧ t.pc = s.pc ∧ t.cycles = s.cycles) ∧
    ((Instr.dec o).wellFormed = true → ∃ t r, exec (.dec o) s = .next t ∧ (r : Byte).toNat = ((operandByte o s).toNat + 255) % 256 ∧ SetsNZ r t ∧
      Stored (effAddr o s) r s t ∧ t.busLog = .write (effAddr o s) r :: readLog o s ∧
      Keeps [] [.n, .z] s t ∧ t.pc = s.pc ∧ t.cycles = s.cycles)

/-- Each completes with its register one more (less) modulo 256, N and Z from the new value, and no other register,
flag, byte of memory, bus transaction or cycle. (R162, R163, R164, R165) -/
def Obligations.IndexIncrementAndDecrementWrap : Prop :=
  RuleEncoding .inx [(0xE8, .imp, 2)] ∧
  RuleEncoding .iny [(0xC8, .imp, 2)] ∧
  RuleEncoding .dex [(0xCA, .imp, 2)] ∧
  RuleEncoding .dey [(0x88, .imp, 2)] ∧
  ∀ s : State,
    (∃ t, exec .inx s = .next t ∧ t.x.toNat = (s.x.toNat + 1) % 256 ∧ SetsNZ t.x t ∧ Quiet [.x] [.n, .z] s t) ∧
    (∃ t, exec .iny s = .next t ∧ t.y.toNat = (s.y.toNat + 1) % 256 ∧ SetsNZ t.y t ∧ Quiet [.y] [.n, .z] s t) ∧
    (∃ t, exec .dex s = .next t ∧ t.x.toNat = (s.x.toNat + 255) % 256 ∧ SetsNZ t.x t ∧ Quiet [.x] [.n, .z] s t) ∧
    (∃ t, exec .dey s = .next t ∧ t.y.toNat = (s.y.toNat + 255) % 256 ∧ SetsNZ t.y t ∧ Quiet [.y] [.n, .z] s t)

/-- In every mode of their rows the shifts complete with the result (old carry shifted in by the rotates, 0 by the
shifts) written back where the operand came from: A in mode IMP with no bus transaction, else the effective address
by one write after one read. C is the bit shifted away, N and Z come from the result, V and all else stay, no extra
cycle. Rests on the spec's own decisions D9 (no dummy access) and D25 (N and Z). Inside a device window the write is
only in the log and memory stays as it was: the model's choice, log entries 5 and 19. (44_shift_rotate.md R180 to R184, 92_eei_decisions.md D9, 92_eei_decisions.md D25) -/
def Obligations.ShiftsWriteBackWhereTheOperandWas : Prop :=
  RuleEncoding .asl [(0x0A, .imp, 2), (0x06, .zp0, 5), (0x16, .zpx, 6), (0x0E, .abs, 6), (0x1E, .abx, 7)] ∧
  RuleEncoding .lsr [(0x4A, .imp, 2), (0x46, .zp0, 5), (0x56, .zpx, 6), (0x4E, .abs, 6), (0x5E, .abx, 7)] ∧
  RuleEncoding .rol [(0x2A, .imp, 2), (0x26, .zp0, 5), (0x36, .zpx, 6), (0x2E, .abs, 6), (0x3E, .abx, 7)] ∧
  RuleEncoding .ror [(0x6A, .imp, 2), (0x66, .zp0, 5), (0x76, .zpx, 6), (0x6E, .abs, 6), (0x7E, .abx, 7)] ∧
  ∀ (o : Operand) (s : State), s.mem.wf = true → let m := operandByte o s
    ((Instr.asl o).wellFormed = true → ∃ t r, exec (.asl o) s = .next t ∧ (r : Byte).toNat = (m.toNat * 2) % 256 ∧
      t.flag .c = m.getLsbD 7 ∧ SetsNZ r t ∧ Keeps (if o = .imp then [.a] else []) [.c, .n, .z] s t ∧
      t.pc = s.pc ∧ t.cycles = s.cycles ∧
      (o = .imp → t.a = r ∧ MemKept s t ∧ t.busLog = s.busLog) ∧
      (o ≠ .imp → Stored (effAddr o s) r s t ∧ t.busLog = .write (effAddr o s) r :: readLog o s)) ∧
    ((Instr.lsr o).wellFormed = true → ∃ t r, exec (.lsr o) s = .next t ∧ (r : Byte).toNat = m.toNat / 2 ∧
      t.flag .c = m.getLsbD 0 ∧ SetsNZ r t ∧ Keeps (if o = .imp then [.a] else []) [.c, .n, .z] s t ∧
      t.pc = s.pc ∧ t.cycles = s.cycles ∧
      (o = .imp → t.a = r ∧ MemKept s t ∧ t.busLog = s.busLog) ∧
      (o ≠ .imp → Stored (effAddr o s) r s t ∧ t.busLog = .write (effAddr o s) r :: readLog o s)) ∧
    ((Instr.rol o).wellFormed = true → ∃ t r, exec (.rol o) s = .next t ∧ (r : Byte).toNat = (m.toNat * 2 + (s.flag .c).toNat) % 256 ∧
      t.flag .c = m.getLsbD 7 ∧ SetsNZ r t ∧ Keeps (if o = .imp then [.a] else []) [.c, .n, .z] s t ∧
      t.pc = s.pc ∧ t.cycles = s.cycles ∧
      (o = .imp → t.a = r ∧ MemKept s t ∧ t.busLog = s.busLog) ∧
      (o ≠ .imp → Stored (effAddr o s) r s t ∧ t.busLog = .write (effAddr o s) r :: readLog o s)) ∧
    ((Instr.ror o).wellFormed = true → ∃ t r, exec (.ror o) s = .next t ∧ (r : Byte).toNat = (s.flag .c).toNat * 128 + m.toNat / 2 ∧
      t.flag .c = m.getLsbD 0 ∧ SetsNZ r t ∧ Keeps (if o = .imp then [.a] else []) [.c, .n, .z] s t ∧
      t.pc = s.pc ∧ t.cycles = s.cycles ∧
      (o = .imp → t.a = r ∧ MemKept s t ∧ t.busLog = s.busLog) ∧
      (o ≠ .imp → Stored (effAddr o s) r s t ∧ t.busLog = .write (effAddr o s) r :: readLog o s))

/-- Each branch completes; if its flag has its value, PC becomes PC plus the sign-extended displacement modulo 65536 and
cycles grows by 1, or by 2 if the target is on another page than PC after the displacement byte; if not, PC and
cycles stay. No flag, register, byte of memory or bus transaction changes. Rests on the spec's own decisions D23
(the page-cross reference) and D25 (the flag each branch tests). (45_control_transfer.md R190 to R198, 92_eei_decisions.md D23, 92_eei_decisions.md D25) -/
def Obligations.BranchesTestTheirFlag : Prop :=
  RuleEncoding .bcc [(0x90, .rel, 2)] ∧
  RuleEncoding .bcs [(0xB0, .rel, 2)] ∧
  RuleEncoding .beq [(0xF0, .rel, 2)] ∧
  RuleEncoding .bne [(0xD0, .rel, 2)] ∧
  RuleEncoding .bmi [(0x30, .rel, 2)] ∧
  RuleEncoding .bpl [(0x10, .rel, 2)] ∧
  RuleEncoding .bvc [(0x50, .rel, 2)] ∧
  RuleEncoding .bvs [(0x70, .rel, 2)] ∧
  ∀ (d : Byte) (s : State),
    let target : Word := BitVec.ofInt 16 (s.pc.toNat + d.toInt)
    let cost := if page target = page s.pc then 1 else 2
    ∀ p ∈ [(Instr.bcc d, Flag.c, false), (.bcs d, .c, true), (.beq d, .z, true), (.bne d, .z, false),
        (.bmi d, .n, true), (.bpl d, .n, false), (.bvc d, .v, false), (.bvs d, .v, true)],
      ∃ t, exec p.1 s = .next t ∧
        t.pc = (if s.flag p.2.1 = p.2.2 then target else s.pc) ∧
        t.cycles = s.cycles + (if s.flag p.2.1 = p.2.2 then cost else 0) ∧
        Keeps [] [] s t ∧ MemKept s t ∧ t.busLog = s.busLog

/-- In both modes of its rows JMP completes with PC equal to the effective address, no flag, register or byte of memory
changed, no bus transaction beyond the resolver's, no extra cycle. (R200) -/
def Obligations.JmpGoesToTheEffectiveAddress : Prop :=
  RuleEncoding .jmp [(0x4C, .abs, 3), (0x6C, .ind, 5)] ∧
  ∀ (o : Operand) (s : State), (Instr.jmp o).wellFormed = true → ∃ t, exec (.jmp o) s = .next t ∧
      t.pc = effAddr o s ∧ Keeps [] [] s t ∧ MemKept s t ∧ t.busLog = (resolve o s).2.busLog ∧ t.cycles = s.cycles

/-- JSR completes with the high byte of PC - 1 written at 0x0100 + SP and then the low byte at 0x0100 + (SP - 1), both
wrapping inside page 1, SP two less modulo 256, PC the target, and nothing else changed; every address of memory
reads as before but those two. Rests on the spec's own decisions D24 (which PC) and D2 (the stack page). Inside a
device window the write is only in the log and memory stays as it was: the model's choice, log entries 5 and 19. (45_control_transfer.md R201, 92_eei_decisions.md D24, 92_eei_decisions.md D2) -/
def Obligations.JsrPushesTheReturnAddressHighByteFirst : Prop :=
  RuleEncoding .jsr [(0x20, .abs, 6)] ∧
  ∀ (target : Word) (s : State), s.mem.wf = true →
    let ret := s.pc - 1
    let hiAt := stackAddr s.sp
    let loAt := stackAddr (s.sp - 1)
    ∃ t, exec (.jsr target) s = .next t ∧ t.pc = target ∧ t.sp = s.sp - 2 ∧
      (∀ addr, t.peek addr = if s.isDevice addr then s.peek addr else
        if addr = loAt then loByte ret else if addr = hiAt then hiByte ret else s.peek addr) ∧
      t.busLog = .write loAt (loByte ret) :: .write hiAt (hiByte ret) :: s.busLog ∧
      Transfers [.sp] [] s t

/-- RTS completes with two stack reads, low byte at 0x0100 + (SP + 1) then high byte at 0x0100 + (SP + 2), SP two more
modulo 256, PC the pulled address plus 1 modulo 65536, and nothing else changed. Rests on the spec's own decisions
D24 (the + 1) and D2 (the stack page). (45_control_transfer.md R202, 92_eei_decisions.md D24, 92_eei_decisions.md D2) -/
def Obligations.RtsReturnsPastThePulledAddress : Prop :=
  RuleEncoding .rts [(0x60, .imp, 6)] ∧
  ∀ s : State,
    let loAt := stackAddr (s.sp + 1)
    let hiAt := stackAddr (s.sp + 2)
    let lo := s.busAnswer loAt
    let hi := (s.afterRead loAt).busAnswer hiAt
    ∃ t, exec .rts s = .next t ∧ t.pc = mkWord hi lo + 1 ∧ t.sp = s.sp + 2 ∧ MemKept s t ∧
      t.busLog = .read hiAt hi :: .read loAt lo :: s.busLog ∧ Transfers [.sp] [] s t

/-- BRK completes with the padding byte skipped unread, the return address (PC after the opcode, plus 1) pushed high
byte first and then P with B and U set, I set, and PC loaded from the vector, low byte first, read after the pushes;
SP is three less modulo 256; no other flag, register or byte of memory changes. Rests on the spec's own decision
D14: the standard BRK. The stack page is the spec's own decision D2. Inside a device window the write is only in the
log and memory stays as it was: the model's choice, log entries 5 and 19. (45_control_transfer.md R203, 92_eei_decisions.md D14, 92_eei_decisions.md D2) -/
def Obligations.BrkTakesTheBreakEntry : Prop :=
  RuleEncoding .brk [(0x00, .imp, 7)] ∧
  ∀ s : State, s.mem.wf = true →
    let ret := s.pc + 1
    let hiAt := stackAddr s.sp
    let loAt := stackAddr (s.sp - 1)
    let pAt := stackAddr (s.sp - 2)
    let pushed : List BusEvent := .write pAt (s.p ||| 0x30) :: .write loAt (loByte ret) :: .write hiAt (hiByte ret) :: s.busLog
    ∃ (t : State) (lo hi : Byte), exec .brk s = .next t ∧ t.sp = s.sp - 3 ∧ t.pc = mkWord hi lo ∧
      lo = (if s.isDevice 0xFFFE then Config.busAnswer pushed 0xFFFE else s.peek 0xFFFE) ∧
      hi = (if s.isDevice 0xFFFF then Config.busAnswer (.read 0xFFFE lo :: pushed) 0xFFFF else s.peek 0xFFFF) ∧
      t.busLog = .read 0xFFFF hi :: .read 0xFFFE lo :: pushed ∧ t.flag .i = true ∧
      (∀ addr, t.peek addr = if s.isDevice addr then s.peek addr else
        if addr = pAt then s.p ||| 0x30 else if addr = loAt then loByte ret else
        if addr = hiAt then hiByte ret else s.peek addr) ∧
      Transfers [.sp] [.i] s t

/-- RTI completes with three stack reads in order: the status byte, whose C Z I D V N become the flags while B becomes 0
and U becomes 1, then the low and the high byte of PC, which is not incremented; SP is three more modulo 256 and
nothing else changes. Rests on the spec's own decisions D15 and D5: the standard RTI, B and U forced. (45_control_transfer.md R204, 92_eei_decisions.md D15, 92_eei_decisions.md D5) -/
def Obligations.RtiRestoresStatusAndAddress : Prop :=
  RuleEncoding .rti [(0x40, .imp, 6)] ∧
  ∀ s : State,
    let pAt := stackAddr (s.sp + 1)
    let loAt := stackAddr (s.sp + 2)
    let hiAt := stackAddr (s.sp + 3)
    let v := s.busAnswer pAt
    let lo := (s.afterRead pAt).busAnswer loAt
    let hi := ((s.afterRead pAt).afterRead loAt).busAnswer hiAt
    ∃ t, exec .rti s = .next t ∧ t.p = ((v &&& 0xCF) ||| 0x20) ∧ t.pc = mkWord hi lo ∧ t.sp = s.sp + 3 ∧
      MemKept s t ∧ t.busLog = .read hiAt hi :: .read loAt lo :: .read pAt v :: s.busLog ∧
      Transfers [.sp] [.c, .z, .i, .d, .b, .u, .v, .n] s t

/-- PHA and PHP complete with their byte (A; P with bits 4 and 5 set) stored at 0x0100 + SP by one write, SP one less
modulo 256, and every other byte of memory, register and flag as before. Rests on the spec's own decision D5: the
pushed status byte has B and U set. PHA and PHP as a whole are the spec's own decision D25, the stack page D2.
Inside a device window the write is only in the log and memory stays as it was: the model's choice, log entries 5
and 19. (46_stack_flag_misc.md R215, R216, 92_eei_decisions.md D5, 92_eei_decisions.md D25, 92_eei_decisions.md D2) -/
def Obligations.PushesStoreOneByteAndKeepP : Prop :=
  RuleEncoding .pha [(0x48, .imp, 3)] ∧
  RuleEncoding .php [(0x08, .imp, 3)] ∧
  ∀ s : State, s.mem.wf = true →
    (∃ t, exec .pha s = .next t ∧ t.sp = s.sp - 1 ∧ Stored (stackAddr s.sp) s.a s t ∧ t.pc = s.pc ∧
      t.busLog = .write (stackAddr s.sp) s.a :: s.busLog ∧ Transfers [.sp] [] s t) ∧
    (∃ t, exec .php s = .next t ∧ t.sp = s.sp - 1 ∧ Stored (stackAddr s.sp) (s.p ||| 0x30) s t ∧ t.pc = s.pc ∧
      t.busLog = .write (stackAddr s.sp) (s.p ||| 0x30) :: s.busLog ∧ Transfers [.sp] [] s t)

/-- PLA and PLP complete with SP one more modulo 256 and one read of 0x0100 + (SP + 1): PLA puts the byte in A and sets
N and Z from it; PLP puts its C Z I D V N in P, B becoming 0 and U becoming 1; nothing else changes. Rests on the
spec's own decision D5: B and U are forced. PLA and PLP as a whole are the spec's own decision D25, the stack page
D2. (46_stack_flag_misc.md R217, R218, 92_eei_decisions.md D5, 92_eei_decisions.md D25, 92_eei_decisions.md D2) -/
def Obligations.PullsLoadOneByte : Prop :=
  RuleEncoding .pla [(0x68, .imp, 4)] ∧
  RuleEncoding .plp [(0x28, .imp, 4)] ∧
  ∀ s : State,
    let at' := stackAddr (s.sp + 1)
    let v := s.busAnswer at'
    (∃ t, exec .pla s = .next t ∧ t.a = v ∧ SetsNZ v t ∧ t.sp = s.sp + 1 ∧ t.pc = s.pc ∧ MemKept s t ∧
      t.busLog = .read at' v :: s.busLog ∧ Transfers [.a, .sp] [.n, .z] s t) ∧
    (∃ t, exec .plp s = .next t ∧ t.p = ((v &&& 0xCF) ||| 0x20) ∧ t.sp = s.sp + 1 ∧ t.pc = s.pc ∧ MemKept s t ∧
      t.busLog = .read at' v :: s.busLog ∧ Transfers [.sp] [.c, .z, .i, .d, .b, .u, .v, .n] s t)

/-- Each completes with its flag cleared or set and no other flag, register, byte of memory, bus transaction or cycle. (R219, R220, R221, R222, R223, R224, R225) -/
def Obligations.FlagInstructionsSetExactlyTheirFlag : Prop :=
  RuleEncoding .clc [(0x18, .imp, 2)] ∧
  RuleEncoding .sec [(0x38, .imp, 2)] ∧
  RuleEncoding .cld [(0xD8, .imp, 2)] ∧
  RuleEncoding .sed [(0xF8, .imp, 2)] ∧
  RuleEncoding .cli [(0x58, .imp, 2)] ∧
  RuleEncoding .sei [(0x78, .imp, 2)] ∧
  RuleEncoding .clv [(0xB8, .imp, 2)] ∧
  ∀ s : State, ∀ p ∈ [(Instr.clc, Flag.c, false), (.sec, .c, true), (.cld, .d, false), (.sed, .d, true),
      (.cli, .i, false), (.sei, .i, true), (.clv, .v, false)],
    ∃ t, exec p.1 s = .next t ∧ t.flag p.2.1 = p.2.2 ∧ Quiet [] [p.2.1] s t

/-- NOP, and the sink with every opcode of R74, complete with every register, flag and byte of memory, PC, the bus log
and cycles as they were; only the scratch operand takes A, as the IMP resolver says. A sink's row is (IMP, XXX,
ILLEGAL_CYCLES), and NOP's is EA. Rests on the spec's own decision D4 for the sink's row. (46_stack_flag_misc.md R226, R227, 92_eei_decisions.md D4) -/
def Obligations.NopAndTheSinkHaveNoEffect : Prop :=
  RuleEncoding .nop [(0xEA, .imp, 2)] ∧
  (∀ op : Byte, (Instr.xxx op).wellFormed = true → table op = ⟨.xxx, .imp, none⟩) ∧
  ∀ s : State,
    exec .nop s = .next { s with fetched := s.a } ∧
    ∀ op : Byte, (Instr.xxx op).wellFormed = true → exec (.xxx op) s = .next { s with fetched := s.a }

/-- For every instruction of every form and every state, if the instruction completes, each flag keeps its value unless
R28 lists the instruction's mnemonic among the flag's writers. That only PLP and RTI write B and U is the spec's own
decision D5 (log entry 21). (10_state.md R28, 10_state.md R27, 92_eei_decisions.md D5) -/
def Obligations.OnlyListedInstructionsChangeAFlag : Prop :=
  let results : List Mnemonic := [.adc, .sbc, .and, .ora, .eor, .bit, .cmp, .cpx, .cpy, .inc, .dec, .inx, .iny, .dex, .dey,
    .lda, .ldx, .ldy, .tax, .tay, .txa, .tya, .tsx, .pla, .asl, .lsr, .rol, .ror, .plp, .rti]
  let writers : Flag → List Mnemonic := fun f => match f with
    | .c => [.adc, .sbc, .cmp, .cpx, .cpy, .asl, .lsr, .rol, .ror, .clc, .sec, .plp, .rti]
    | .z => results
    | .i => [.cli, .sei, .brk, .plp, .rti]
    | .d => [.cld, .sed, .plp, .rti]
    | .b => [.plp, .rti]
    | .u => [.plp, .rti]
    | .v => [.adc, .sbc, .bit, .clv, .plp, .rti]
    | .n => results
  ∀ (i : Instr) (s t : State) (f : Flag), exec i s = .next t → i.mnemonic ∉ writers f → t.flag f = s.flag f

/-- For every instruction and state, if the instruction completes, each of A, X, Y, SP keeps its value unless R20 lists
the mnemonic among its writers; the shifts write A only in mode IMP. (10_state.md R20) -/
def Obligations.OnlyListedInstructionsChangeARegister : Prop :=
  let writers : Reg → List Mnemonic := fun r => match r with
    | .a => [.lda, .adc, .sbc, .and, .ora, .eor, .txa, .tya, .pla]
    | .x => [.ldx, .tax, .tsx, .inx, .dex]
    | .y => [.ldy, .tay, .iny, .dey]
    | .sp => [.txs, .pha, .php, .pla, .plp, .jsr, .rts, .brk, .rti]
  ∀ (i : Instr) (s t : State) (r : Reg), exec i s = .next t → i.mnemonic ∉ writers r →
    (r = .a → i.mnemonic ∈ [.asl, .lsr, .rol, .ror] → i.operand ≠ .imp) → t.reg r = s.reg r

/-- For every instruction and state, if the instruction completes and is none of STA STX STY INC DEC PHA PHP JSR BRK and
no shift of a memory operand, then memory is the same and every transaction it adds to the log is a read. (42_load_store_transfer.md R133 to R135, 43_arithmetic_logic.md R160, R161, 44_shift_rotate.md R180, 46_stack_flag_misc.md R215, R216, 45_control_transfer.md R201, R203) -/
def Obligations.OnlyStoresAndPushesChangeMemory : Prop :=
  ∀ (i : Instr) (s t : State), exec i s = .next t →
    i.mnemonic ∉ [.sta, .stx, .sty, .inc, .dec, .pha, .php, .jsr, .brk] →
    (i.mnemonic ∈ [.asl, .lsr, .rol, .ror] → i.operand = .imp) →
    t.mem = s.mem ∧ ∃ added, t.busLog = added ++ s.busLog ∧ ∀ e ∈ added, ∃ a v, e = .read a v

/-- For every instruction and state, if the instruction completes and is no branch, JMP, JSR, RTS, BRK or RTI, PC stays
where the fetch left it; no instruction changes the parameters or the free-value counter. Where the fetch left PC is
after the last operand byte by log entry 8; the free-value counter is a field of the model's own, log entry 3;
neither is a clause of the rules cited. (10_state.md R23, 45_control_transfer.md R190 to R204) -/
def Obligations.OnlyControlTransfersMovePC : Prop :=
  ∀ (i : Instr) (s t : State), exec i s = .next t →
    t.env = s.env ∧ t.freeCount = s.freeCount ∧
    (i.mnemonic ∉ [.bcc, .bcs, .beq, .bne, .bmi, .bpl, .bvc, .bvs, .jmp, .jsr, .rts, .brk, .rti] → t.pc = s.pc)

/-- For every well-formed instruction and state, the log grows by exactly the transactions of R123 and R96 after the
instruction's own bytes: two pointer reads in IND, IZX, IZY; one operand read for the eighteen handlers of R96
outside IMP and IMM; one write for stores and memory read-modify-writes and PHA, PHP, two for JSR, three for BRK;
stack reads of PLA, PLP (1), RTS (2), RTI (3); BRK's two vector reads. That the operand bytes and IMM's one read are
counted with the fetch and not here is log entry 8; which handlers read is the spec's own decision D16; no dummy
access is its decision D9 (log entry 12). (41_addressing_modes.md R123, 40_execution_cycle.md R96, 20_memory.md R52, 20_memory.md R58, 92_eei_decisions.md D16, 92_eei_decisions.md D9) -/
def Obligations.BusTransactionCountsOfEveryInstruction : Prop :=
  let pointerReads : Mode → Nat := fun m => if m ∈ [.ind, .izx, .izy] then 2 else 0
  let operandReads : Instr → Nat := fun i =>
    if i.mnemonic ∈ [.adc, .and, .asl, .bit, .cmp, .cpx, .cpy, .dec, .eor, .inc, .lda, .ldx, .ldy, .lsr, .ora, .rol, .ror, .sbc] ∧
      i.operand.mode ≠ .imp ∧ i.operand.mode ≠ .imm then 1 else 0
  let otherReads : Mnemonic → Nat := fun m => match m with
    | .pla | .plp => 1
    | .rts | .brk => 2
    | .rti => 3
    | _ => 0
  let writes : Instr → Nat := fun i => match i.mnemonic with
    | .sta | .stx | .sty | .inc | .dec | .pha | .php => 1
    | .asl | .lsr | .rol | .ror => if i.operand.mode = .imp then 0 else 1
    | .jsr => 2
    | .brk => 3
    | _ => 0
  let isRead : BusEvent → Bool := fun e => match e with | .read _ _ => true | .write _ _ => false
  ∀ (i : Instr) (s t : State), i.wellFormed = true → exec i s = .next t →
    ∃ added, t.busLog = added ++ s.busLog ∧
      (added.filter isRead).length = pointerReads i.operand.mode + operandReads i + otherReads i.mnemonic ∧
      (added.filter (fun e => !isRead e)).length = writes i

/-- For every well-formed instruction and state, completing adds to cycles exactly 1 when the resolver signals and the
mnemonic is ADC AND CMP EOR LDA LDX LDY ORA or SBC, 1 for a taken branch and 1 more if its target is on another page
than PC, and nothing otherwise; the resolver signals only in modes ABX, ABY and IZY. Rests on the spec's own
decisions D17 (which handlers signal) and D23 (the branch reference). (40_execution_cycle.md R94, R95, 92_eei_decisions.md D17, 92_eei_decisions.md D23) -/
def Obligations.ExtraCyclesOfEveryInstruction : Prop :=
  ∀ (i : Instr) (s t : State), i.wellFormed = true → exec i s = .next t →
    ((resolve i.operand s).1 = true → i.operand.mode ∈ [.abx, .aby, .izy]) ∧
    t.cycles = s.cycles +
      (if i.mnemonic ∈ [.adc, .and, .cmp, .eor, .lda, .ldx, .ldy, .ora, .sbc] ∧ (resolve i.operand s).1 = true
        then 1 else 0) +
      (match branchCondition i.mnemonic with
        | some (f, v) => if s.flag f = v then (if page t.pc = page s.pc then 1 else 2) else 0
        | none => 0)

/-- For every instruction, state and flag whose readers in R28 do not include the mnemonic, running the instruction with
the flag forced to any value gives the same next state up to that flag itself: no register, other flag, byte of
memory, transaction or cycle depends on it. So D changes no arithmetic and I masks nothing. That D changes no
arithmetic is the spec's own decision D19 (log entry 13), that I masks nothing its decision D10 (log entry 11), that
B and U are read by nothing its decision D5 (log entry 21). (10_state.md R28, 43_arithmetic_logic.md R150, 60_exceptions.md R241, 10_state.md R27, 92_eei_decisions.md D19, 92_eei_decisions.md D10, 92_eei_decisions.md D5) -/
def Obligations.OnlyListedInstructionsReadAFlag : Prop :=
  let readers : Flag → List Mnemonic := fun f => match f with
    | .c => [.adc, .sbc, .rol, .ror, .bcc, .bcs, .php, .brk]
    | .z => [.beq, .bne, .php, .brk]
    | .i => [.php, .brk]
    | .d => [.php, .brk]
    | .b => []
    | .u => []
    | .v => [.bvc, .bvs, .php, .brk]
    | .n => [.bmi, .bpl, .php, .brk]
  ∀ (i : Instr) (s t : State) (f : Flag) (b : Bool), i.mnemonic ∉ readers f → exec i s = .next t →
    ∃ t', exec i (s.setFlag f b) = .next t' ∧ t'.setFlag f false = t.setFlag f false

/-- Every state has a next state: no opcode stops the block, none faults and none is refused. (40_execution_cycle.md R101, 60_exceptions.md R240) -/
def Obligations.EveryPulseAnswersANextState : Prop :=
  ∀ s : State, Safe s

/-- If memory is canonical and cycles is at most 6, both hold after any pulse: no instruction of any opcode costs more
than 7, and every store keeps the canonical form. (10_state.md R29, 40_execution_cycle.md R98, 20_memory.md R51) -/
def Obligations.StepKeepsTheInvariant : Prop :=
  ∀ s t : State, Inv s → step s = .next t → Inv t

/-- A pulse that fetches leaves cycles = N - 1, where N is the base count of the fetched opcode's row, plus 1 when
resolver and handler both signal, plus 1 for a taken branch and 1 more if its target is on another page than PC
after the operand byte; N is at least 1 and at most 7. Rests on the spec's own decisions D17 and D18 (signals and
base counts). (40_execution_cycle.md R98, 92_eei_decisions.md D17, 92_eei_decisions.md D18) -/
def Obligations.FetchPulseLeavesTheCostMinusOne : Prop :=
  ∀ s t : State, s.cycles = 0 → step s = .next t →
    let i := s.fetchInstr.1
    let s1 := s.fetchInstr.2
    let branchExtra := match branchCondition i.mnemonic with
      | some (f, v) => if s.flag f = v then (if page t.pc = page s1.pc then 1 else 2) else 0
      | none => 0
    t.cycles + 1 = s.env.baseCycles (s.busAnswer s.pc) +
      (if i.mnemonic ∈ [.adc, .and, .cmp, .eor, .lda, .ldx, .ldy, .ora, .sbc] ∧ (resolve i.operand s1).1 = true
        then 1 else 0) + branchExtra ∧
    t.cycles + 1 ≤ 7

/-- Whatever registers the host supplies, the state after power-on meets the invariant; so does the model's State.reset. (10_state.md R35, 70_reset_and_hazards.md R260) -/
def Obligations.ResetMeetsTheInvariant : Prop :=
  (∀ r : ResetRegs, Inv (State.resetWith r)) ∧ Inv State.reset

/-- After power-on with RESET_REGS, cycles is 0 and the six registers hold the host's values. A reset between pulses
does the same at any moment of a countdown, undoing nothing: memory, the log and the parameters stay. State.reset is
power-on with all six at zero, the model's choice of log entry 1. A reset between pulses is the spec's own decision
D11; that memory, the parameters and the log, a field of the model's own (log entry 6), stay is the model's choice
of log entry 15. (10_state.md R35, 70_reset_and_hazards.md R260, 70_reset_and_hazards.md R261, 92_eei_decisions.md D11) -/
def Obligations.ResetLeavesTheBlockAtFetch : Prop :=
  ∀ (r : ResetRegs) (s : State),
    hostRead (State.resetWith r) = ⟨r.a, r.x, r.y, r.sp, r.p, r.pc, 0⟩ ∧
    hostRead (hostReset r s) = ⟨r.a, r.x, r.y, r.sp, r.p, r.pc, 0⟩ ∧
    (hostReset r s).mem = s.mem ∧ (hostReset r s).env = s.env ∧ (hostReset r s).busLog = s.busLog ∧
    State.reset = State.resetWith ⟨0, 0, 0, 0, 0, 0⟩

/-- A host write of A, X, Y, SP, P or PC is refused, by name, whenever cycles is above 0; at an instruction boundary it
sets that register, to the low byte of the value for an 8-bit register, and nothing else. Inspection answers the
registers as they are in every state. The refusal during a countdown is the spec's own decision D12 (log entry 14). (70_reset_and_hazards.md R264, 93_implementation_defined.md I6, 92_eei_decisions.md D12) -/
def Obligations.HostWritesOnlyAtAnInstructionBoundary : Prop :=
  ∀ (s : State) (v : Word),
    hostRead s = ⟨s.a, s.x, s.y, s.sp, s.p, s.pc, s.cycles⟩ ∧
    (∀ r, 0 < s.cycles → hostWrite r v s = .refused .hostWriteMidInstruction) ∧
    (s.cycles = 0 →
      hostWrite .a v s = .next { s with a := loByte v } ∧ hostWrite .x v s = .next { s with x := loByte v } ∧
      hostWrite .y v s = .next { s with y := loByte v } ∧ hostWrite .sp v s = .next { s with sp := loByte v } ∧
      hostWrite .p v s = .next { s with p := loByte v } ∧ hostWrite .pc v s = .next { s with pc := v })

/-- At a boundary, where the up to three bytes at PC, PC+1, PC+2 lie outside device windows and decode to i, the pulse
is exec of i at the state in which those bytes of i are read and logged in order, opcode holds the first, PC stands
past them and cycles holds the base count; after it the operand scratch leaves its window and the pulse is counted.
That operand bytes are read before the resolver is log entry 8; that scratch takes free values outside its window
(10_state.md R31 to R33) is log entry 3; that an address outside device windows answers memory's byte is log entry
5. (40_execution_cycle.md R90 to R93, 30_encoding.md R70, 30_encoding.md R76, 10_state.md R31 to R33) -/
def Obligations.StepRunsTheDecodedInstruction : Prop :=
  ∀ (s : State) (i : Instr) (rest : List Byte), s.cycles = 0 →
    s.isDevice s.pc = false → s.isDevice (s.pc + 1) = false → s.isDevice (s.pc + 2) = false →
    decode [s.peek s.pc, s.peek (s.pc + 1), s.peek (s.pc + 2)] = .ok (i, rest) →
    let n := 3 - rest.length
    let reads : List BusEvent := [.read s.pc (s.peek s.pc), .read (s.pc + 1) (s.peek (s.pc + 1)),
      .read (s.pc + 2) (s.peek (s.pc + 2))]
    step s = finishFetchPulse (exec i { s with
      opcode := s.peek s.pc
      pc := s.pc + BitVec.ofNat 16 n
      cycles := s.env.baseCycles (s.peek s.pc)
      busLog := (reads.take n).reverse ++ s.busLog })

/-- At a boundary, for every bus: with op the bus's answer at PC, b1 its answer at PC+1 after that read and b2 its
answer at PC+2 after both, the pulse runs the instruction built from op and as many operand bytes as its mode has,
and reads no other byte before it. That all operand bytes are read before exec is log entry 8; the scratch handling
inside finishFetchPulse is log entry 3. (40_execution_cycle.md R91, 20_memory.md R61, 30_encoding.md R79, 10_state.md R33) -/
def Obligations.StepFetchesThroughTheBus : Prop :=
  ∀ s : State, s.cycles = 0 →
    let op := s.busAnswer s.pc
    let b1 := (s.afterRead s.pc).busAnswer (s.pc + 1)
    let b2 := ((s.afterRead s.pc).afterRead (s.pc + 1)).busAnswer (s.pc + 2)
    let s1 : State := { s with
      opcode := op, pc := s.pc + 1, cycles := s.env.baseCycles op, busLog := .read s.pc op :: s.busLog }
    let s2 : State := { s1 with pc := s.pc + 2, busLog := .read (s.pc + 1) b1 :: s1.busLog }
    let s3 : State := { s2 with pc := s.pc + 3, busLog := .read (s.pc + 2) b2 :: s2.busLog }
    ((table op).mode.operandBytes = 0 → step s = finishFetchPulse (exec (instrOf op 0 0) s1)) ∧
    ((table op).mode.operandBytes = 1 → step s = finishFetchPulse (exec (instrOf op b1 0) s2)) ∧
    ((table op).mode.operandBytes = 2 → step s = finishFetchPulse (exec (instrOf op b1 b2) s3))

/-- In every state with cycles above 0, a pulse leaves A, X, Y, SP, P, PC, memory, parameters, bus log and operand
scratch as they are and decrements cycles; the opcode scratch keeps its value until the boundary, where it leaves
its validity window. Which scratch is kept through the countdown and when opcode leaves its window is log entry 3;
R33 leaves scratch outside its window unspecified. (40_execution_cycle.md R97, 40_execution_cycle.md R100, 10_state.md R33) -/
def Obligations.CountdownPulseOnlyCounts : Prop :=
  ∀ s : State, 0 < s.cycles → ∃ t, step s = .next t ∧ t.cycles = s.cycles - 1 ∧
    t = { s with cycles := t.cycles, opcode := t.opcode, freeCount := t.freeCount } ∧
    (1 < s.cycles → t.opcode = s.opcode ∧ t.freeCount = s.freeCount)

/-- From every state at an instruction boundary, if the first pulse leaves cycles = N - 1, then N pulses answer exactly
what the instruction-level step answers, a state at a boundary whose registers, memory and bus log are those after
the first pulse; after k pulses, 1 <= k <= N, cycles is N - k. Rests on the spec's derivation in R102 from R90, R97
and R99. The scratch kept in the last state is log entry 3. (40_execution_cycle.md R102, 40_execution_cycle.md R90, 40_execution_cycle.md R97) -/
def Obligations.PulsesAgreeWithTheInstructionStep : Prop :=
  ∀ s t : State, s.cycles = 0 → step s = .next t →
    (∀ k, k ≤ t.cycles → ∃ u, Host.Core.run Sys2Proof.core (k + 1) s = .next u ∧ u.cycles = t.cycles - k) ∧
    ∃ u, Host.Core.run Sys2Proof.core (t.cycles + 1) s = .next u ∧ execInstruction s = .next u ∧ u.cycles = 0 ∧
      u = { t with cycles := 0, opcode := u.opcode, freeCount := u.freeCount }

/-- Two states at an instruction boundary that differ only in opcode, fetched, addr_abs and addr_rel have the same
outcome of the next pulse, scratch included. Rests on the spec's own decision D13: scratch is unspecified outside
its window. That the scratch is equal afterwards too is log entry 3. (10_state.md R33, 92_eei_decisions.md D13) -/
def Obligations.NoInstructionReadsStaleScratch : Prop :=
  ∀ s t : State, s.cycles = 0 → SameButScratch s t → step t = step s

/-- After any pulse the bus log is the old one with the pulse's transactions added; at a boundary the first of them is
the read of the opcode at PC; during a countdown there are none; the parameters of the environment never change. (20_memory.md R58, 40_execution_cycle.md R91, 40_execution_cycle.md R97) -/
def Obligations.BusLogOnlyGrows : Prop :=
  ∀ s t : State, step s = .next t → t.env = s.env ∧
    ((0 < s.cycles ∧ t.busLog = s.busLog) ∨
      (s.cycles = 0 ∧ ∃ added, t.busLog = added ++ .read s.pc (s.busAnswer s.pc) :: s.busLog))

/-- Where the two stack bytes JSR writes are memory, RTS at the state JSR leaves puts PC back to the address after the
JSR and SP to its old value, for every SP (the stack wraps), and A, X, Y and P are unchanged. The minus 1 and plus 1
that make the pair return past the JSR are the spec's own decision D24, the stack page D2; memory outside device
windows is log entry 5. (45_control_transfer.md R201, 45_control_transfer.md R202, 10_state.md R24, 92_eei_decisions.md D24, 92_eei_decisions.md D2) -/
def Obligations.RtsUndoesJsr : Prop :=
  ∀ (target : Word) (s t u : State), s.mem.wf = true →
    s.isDevice (stackAddr s.sp) = false → s.isDevice (stackAddr (s.sp - 1)) = false →
    exec (.jsr target) s = .next t → exec .rts t = .next u →
    u.pc = s.pc ∧ u.sp = s.sp ∧ u.a = s.a ∧ u.x = s.x ∧ u.y = s.y ∧ u.p = s.p

/-- Where the three stack bytes BRK writes are memory, RTI at the state BRK leaves puts PC to the byte after the padding
byte, SP to its old value for every SP, the flags C Z I D V N to their values before BRK, B to 0 and U to 1, and A,
X, Y are unchanged. Rests on the spec's own decisions D14 (BRK), D15 (RTI), D5 (B to 0, U to 1) and D2 (the stack
page); memory outside device windows is log entry 5. (60_exceptions.md R243, 45_control_transfer.md R203, 45_control_transfer.md R204, 92_eei_decisions.md D14, 92_eei_decisions.md D15, 92_eei_decisions.md D5, 92_eei_decisions.md D2) -/
def Obligations.RtiUndoesBrk : Prop :=
  ∀ s t u : State, s.mem.wf = true →
    s.isDevice (stackAddr s.sp) = false → s.isDevice (stackAddr (s.sp - 1)) = false →
    s.isDevice (stackAddr (s.sp - 2)) = false →
    exec .brk s = .next t → exec .rti t = .next u →
    u.pc = s.pc + 1 ∧ u.sp = s.sp ∧ u.a = s.a ∧ u.x = s.x ∧ u.y = s.y ∧
    u.flag .b = false ∧ u.flag .u = true ∧ ∀ f, f ≠ .b → f ≠ .u → u.flag f = s.flag f

/-- Where the stack byte written is memory, PLA after PHA leaves A and SP as before the PHA with N and Z from A, and PLP
after PHP leaves SP and the flags C Z I D V N as before the PHP, B 0 and U 1. Rests on the spec's own decisions D25
(PHA, PHP, PLA, PLP), D5 (B to 0, U to 1) and D2 (the stack page); memory outside device windows is log entry 5. (46_stack_flag_misc.md R215 to R218, 10_state.md R27, 92_eei_decisions.md D25, 92_eei_decisions.md D5, 92_eei_decisions.md D2) -/
def Obligations.PullsUndoPushes : Prop :=
  ∀ s t u : State, s.mem.wf = true → s.isDevice (stackAddr s.sp) = false →
    (exec .pha s = .next t → exec .pla t = .next u → u.a = s.a ∧ u.sp = s.sp ∧ SetsNZ s.a u) ∧
    (exec .php s = .next t → exec .plp t = .next u → u.sp = s.sp ∧ u.flag .b = false ∧ u.flag .u = true ∧
      ∀ f, f ≠ .b → f ≠ .u → u.flag f = s.flag f)

/-- STA in any of its modes, then LDA in any of its memory modes (every mode but IMM, which names no memory address)
whose effective address after the store is the one stored to, leaves A as it was and sets N and Z from it, where
that address is memory; so do STX then LDX and STY then LDY. The two modes may differ. That the address answers the
last byte stored is log entry 5. (42_load_store_transfer.md R130 to R135, 95_test_vectors.md W9) -/
def Obligations.LoadAfterStoreGivesTheRegisterBack : Prop :=
  ∀ (o o' : Operand) (s t u : State), s.mem.wf = true → s.isDevice (effAddr o s) = false →
    effAddr o' t = effAddr o s → o'.mode ≠ .imm →
    ((Instr.sta o).wellFormed = true → (Instr.lda o').wellFormed = true →
      exec (.sta o) s = .next t → exec (.lda o') t = .next u → u.a = s.a ∧ SetsNZ s.a u) ∧
    ((Instr.stx o).wellFormed = true → (Instr.ldx o').wellFormed = true →
      exec (.stx o) s = .next t → exec (.ldx o') t = .next u → u.x = s.x ∧ SetsNZ s.x u) ∧
    ((Instr.sty o).wellFormed = true → (Instr.ldy o').wellFormed = true →
      exec (.sty o) s = .next t → exec (.ldy o') t = .next u → u.y = s.y ∧ SetsNZ s.y u)

/-- If STA, STX or STY, in any of its modes, stores its register to the address PC stands at and that address is memory,
the bus answers the stored byte there, and the next fetching pulse runs the instruction built from that byte as
opcode and as many bytes read after it as its mode has, for every value of the byte. Fetch coherence is the spec's
own decision D22; that the address answers the last byte stored is log entry 5, that operand bytes are read before
exec log entry 8, the scratch handling of finishFetchPulse log entry 3. (20_memory.md R61, 70_reset_and_hazards.md R266, 92_eei_decisions.md D22) -/
def Obligations.StoredByteIsSeenByTheNextFetch : Prop :=
  ∀ (o : Operand) (s t : State), s.mem.wf = true → s.isDevice s.pc = false → effAddr o s = s.pc →
    ∀ p ∈ [(Instr.sta o, s.a), (.stx o, s.x), (.sty o, s.y)], p.1.wellFormed = true → exec p.1 s = .next t →
      let u : State := { t with cycles := 0 }
      let b1 := (u.afterRead s.pc).busAnswer (s.pc + 1)
      let b2 := ((u.afterRead s.pc).afterRead (s.pc + 1)).busAnswer (s.pc + 2)
      let s1 : State := { u with
        opcode := p.2, pc := s.pc + 1, cycles := s.env.baseCycles p.2, busLog := .read s.pc p.2 :: t.busLog }
      let s2 : State := { s1 with pc := s.pc + 2, busLog := .read (s.pc + 1) b1 :: s1.busLog }
      let s3 : State := { s2 with pc := s.pc + 3, busLog := .read (s.pc + 2) b2 :: s2.busLog }
      u.busAnswer s.pc = p.2 ∧
      ((table p.2).mode.operandBytes = 0 → step u = finishFetchPulse (exec (instrOf p.2 0 0) s1)) ∧
      ((table p.2).mode.operandBytes = 1 → step u = finishFetchPulse (exec (instrOf p.2 b1 0) s2)) ∧
      ((table p.2).mode.operandBytes = 2 → step u = finishFetchPulse (exec (instrOf p.2 b1 b2) s3))
end

