-- ==== Sys2Proof/Laws/Decode.lean ====
section
/-! SUPPORT. Bytes and words put together and taken apart; what the decoder answers; the sink slots in the table. -/

namespace Sys2Proof

/-- `hi:lo` is `hi * 256 + lo` (R8). -/
theorem toNat_mkWord (hi lo : Byte) : (mkWord hi lo).toNat = hi.toNat * 256 + lo.toNat := by
  have h := BitVec.toNat_append hi lo
  rw [Nat.shiftLeft_eq, Nat.mul_comm, ← Nat.two_pow_add_eq_or_of_lt lo.isLt] at h
  exact h.trans (by omega)

theorem toNat_loByte (w : Word) : (loByte w).toNat = w.toNat % 256 := by
  simp [loByte, BitVec.extractLsb'_toNat]

theorem toNat_hiByte (w : Word) : (hiByte w).toNat = w.toNat / 256 := by
  have := w.isLt
  simp only [hiByte, BitVec.extractLsb'_toNat, Nat.shiftRight_eq_div_pow]
  omega

@[simp] theorem loByte_mkWord (hi lo : Byte) : loByte (mkWord hi lo) = lo := by
  have := lo.isLt
  apply BitVec.eq_of_toNat_eq
  rw [toNat_loByte, toNat_mkWord]
  omega

@[simp] theorem hiByte_mkWord (hi lo : Byte) : hiByte (mkWord hi lo) = hi := by
  have := lo.isLt
  apply BitVec.eq_of_toNat_eq
  rw [toNat_hiByte, toNat_mkWord]
  omega

@[simp] theorem mkWord_hiByte_loByte (w : Word) : mkWord (hiByte w) (loByte w) = w := by
  apply BitVec.eq_of_toNat_eq
  rw [toNat_mkWord, toNat_hiByte, toNat_loByte]
  omega

/-- An operand has as many bytes as its mode takes. -/
@[simp] theorem length_operandBytes (o : Operand) : o.bytes.length = o.mode.operandBytes := by
  cases o <;> rfl

/-- The operand a mode reads from an operand's own bytes. -/
theorem operandOf_bytes (o : Operand) :
    o.mode.operandOf ((o.bytes).getD 0 0) ((o.bytes).getD 1 0) = o := by
  cases o <;> simp [Operand.mode, Mode.operandOf, Operand.bytes]

/-- Every sink slot selects the sink row (R74). -/
theorem table_sinkSlot : ∀ op : Byte, sinkSlots.contains op = true → table op = sinkRow := by
  set_option maxRecDepth 20000 in decide

/-- Decoding a list whose opcode's operand bytes are all there. -/
theorem decode_cons_append (op : Byte) (bs rest : List Byte) (h : bs.length = (table op).mode.operandBytes) :
    decode (op :: (bs ++ rest)) = .ok (instrOf op (bs.getD 0 0) (bs.getD 1 0), rest) := by
  rcases bs with _ | ⟨b1, _ | ⟨b2, _ | ⟨b3, bs⟩⟩⟩
  · simp [decode, ← h]
  · simp [decode, ← h]
  · simp [decode, ← h]
  · exact absurd h (by cases (table op).mode <;> simp [Mode.operandBytes])

end Sys2Proof
end

