-- ==== Sys2Proof/Laws/Flags.lean ====
section
/-! SUPPORT. The flag accessor: reading after writing, order of writes, and the bits of a pushed or pulled status
byte. -/

namespace Sys2Proof.Machine

open Sys2Proof

theorem Flag.bit_lt (f : Flag) : f.bit < 8 := by cases f <;> decide

theorem Flag.bit_injective {f g : Flag} (h : f.bit = g.bit) : f = g := by
  cases f <;> cases g <;> first | rfl | exact absurd h (by decide)

theorem getLsbD_flagMask (f : Flag) (k : Nat) (hk : k < 8) : (flagMask f).getLsbD k = decide (k = f.bit) := by
  have : ∀ k < 8, (flagMask f).getLsbD k = decide (k = f.bit) := by cases f <;> decide
  exact this k hk

theorem getLsbD_putFlag (p : Byte) (f : Flag) (b : Bool) (k : Nat) (hk : k < 8) :
    (putFlag p f b).getLsbD k = if k = f.bit then b else p.getLsbD k := by
  have hm := getLsbD_flagMask f k hk
  cases b
  · rw [putFlag, if_neg Bool.false_ne_true, BitVec.getLsbD_and, BitVec.getLsbD_not, hm]
    by_cases h : k = f.bit <;> simp [hk, h]
  · rw [putFlag, if_pos rfl, BitVec.getLsbD_or, hm]
    by_cases h : k = f.bit <;> simp [h]

/-- Reading any flag after writing one. -/
@[simp] theorem getFlag_putFlag (p : Byte) (f g : Flag) (b : Bool) :
    getFlag (putFlag p f b) g = if g = f then b else getFlag p g := by
  unfold getFlag
  rw [getLsbD_putFlag _ _ _ _ g.bit_lt]
  by_cases h : g = f
  · rw [if_pos (congrArg Flag.bit h), if_pos h]
  · rw [if_neg fun e => h (Flag.bit_injective e), if_neg h]

/-- A status byte is its eight flags. -/
theorem status_ext {p q : Byte} (h : ∀ f, getFlag p f = getFlag q f) : p = q := by
  apply BitVec.eq_of_getLsbD_eq
  intro k hk
  have h0 := h .c; have h1 := h .z; have h2 := h .i; have h3 := h .d
  have h4 := h .b; have h5 := h .u; have h6 := h .v; have h7 := h .n
  simp only [getFlag, Flag.bit] at h0 h1 h2 h3 h4 h5 h6 h7
  rcases k with _ | _ | _ | _ | _ | _ | _ | _ | k <;> first | assumption | omega

/-- Writes of two different flags may be exchanged. -/
theorem putFlag_comm (p : Byte) {f g : Flag} (b c : Bool) (h : f ≠ g) :
    putFlag (putFlag p f b) g c = putFlag (putFlag p g c) f b := by
  apply status_ext
  intro k
  by_cases hf : k = f <;> by_cases hg : k = g <;> simp_all

/-- The later write of a flag wins. -/
@[simp] theorem putFlag_putFlag (p : Byte) (f : Flag) (b c : Bool) :
    putFlag (putFlag p f b) f c = putFlag p f c := by
  apply status_ext
  intro k
  by_cases h : k = f <;> simp [h]

/-- Writing back the value a flag has changes nothing. -/
theorem putFlag_self (p : Byte) (f : Flag) : putFlag p f (getFlag p f) = p := by
  apply status_ext
  intro k
  by_cases h : k = f <;> simp [h]

/-- B and U of a pushed status byte read 1, the other flags as in P (R27). -/
@[simp] theorem getFlag_pushedStatus (p : Byte) (f : Flag) :
    getFlag (pushedStatus p) f = (f = .b || f = .u || getFlag p f) := by
  cases f <;> simp [getFlag, pushedStatus, Flag.bit]

/-- A pulled status byte: B is 0, U is 1, the other flags are the byte's (R27). -/
@[simp] theorem getFlag_pulledStatus (v : Byte) (f : Flag) :
    getFlag (pulledStatus v) f = (f = .u || (f != .b && getFlag v f)) := by
  cases f <;> simp [getFlag, pulledStatus, Flag.bit]

/-- Reading any flag of the machine after writing one (R26). -/
@[simp] theorem State.flag_setFlag (s : State) (f g : Flag) (b : Bool) :
    (s.setFlag f b).flag g = if g = f then b else s.flag g := getFlag_putFlag s.p f g b

/-- The flags after SetNZ (R11). -/
@[simp] theorem State.flag_setNZ (s : State) (v : Byte) (f : Flag) :
    (s.setNZ v).flag f = if f = .z then v == 0 else if f = .n then v.getLsbD 7 else s.flag f := by
  simp [State.setNZ]

/-- A register write changes no flag. -/
@[simp] theorem State.flag_setReg (s : State) (r : Reg) (v : Byte) (f : Flag) : (s.setReg r v).flag f = s.flag f := by
  cases r <;> rfl

/-- The flags after a whole status byte is loaded. -/
@[simp] theorem State.flag_setStatus (s : State) (v : Byte) (f : Flag) : (s.setStatus v).flag f = getFlag v f := rfl

/-- The flags after a register takes a byte with N and Z. -/
@[simp] theorem State.flag_loadReg (s : State) (r : Reg) (v : Byte) (f : Flag) :
    (s.loadReg r v).flag f = if f = .z then v == 0 else if f = .n then v.getLsbD 7 else s.flag f := by
  simp [State.loadReg]

/-- Reading any register after writing one. -/
@[simp] theorem State.reg_setReg (s : State) (r q : Reg) (v : Byte) :
    (s.setReg r v).reg q = if q = r then v else s.reg q := by
  cases r <;> cases q <;> rfl

/-- Reading any register after one took a byte with N and Z. -/
@[simp] theorem State.reg_loadReg (s : State) (r q : Reg) (v : Byte) :
    (s.loadReg r v).reg q = if q = r then v else s.reg q := by
  cases r <;> cases q <;> rfl

/-- The flags after an addition into A (R151). -/
theorem State.flag_addToA (s : State) (m : Byte) (f : Flag) :
    (s.addToA m).flag f =
      if f = .z then addResult s.a m (s.flag .c) == 0
      else if f = .n then (addResult s.a m (s.flag .c)).getLsbD 7
      else if f = .v then addOverflow s.a m (addResult s.a m (s.flag .c))
      else if f = .c then addCarry s.a m (s.flag .c)
      else s.flag f := by
  simp [State.addToA]

/-- The flags after a compare (R157). -/
theorem State.flag_compare (s : State) (r m : Byte) (f : Flag) :
    (s.compare r m).flag f =
      if f = .n then (r - m).getLsbD 7
      else if f = .z then r == m
      else if f = .c then decide (m.toNat ≤ r.toNat)
      else s.flag f := by
  simp [State.compare]

/-- The flags after BIT's test (R156). -/
theorem State.flag_bitTest (s : State) (m : Byte) (f : Flag) :
    (s.bitTest m).flag f =
      if f = .v then m.getLsbD 6
      else if f = .n then m.getLsbD 7
      else if f = .z then s.a &&& m == 0
      else s.flag f := by
  simp [State.bitTest]

end Sys2Proof.Machine
end

