-- ==== Sys2Proof/Laws/Memory.lean ====
section
/-! SUPPORT. The memory laws: every write keeps the canonical form, a read after a write to the same place gives the
value written, and a write leaves every other place alone. -/

namespace Sys2Proof.Machine

open Sys2Proof

theorem Memory.wfFrom_cons {lo k : Nat} {v : Byte} {m : Memory} :
    Memory.wfFrom lo ((k, v) :: m) = true ↔
      lo ≤ k ∧ k < 65536 ∧ v ≠ Memory.unlisted k ∧ Memory.wfFrom (k + 1) m = true := by
  simp [Memory.wfFrom, and_assoc]

theorem Memory.wfFrom_mono {lo lo' : Nat} {m : Memory} (h : Memory.wfFrom lo m = true) (hle : lo' ≤ lo) :
    Memory.wfFrom lo' m = true := by
  cases m with
  | nil => rfl
  | cons c m =>
    obtain ⟨k, v⟩ := c
    rw [Memory.wfFrom_cons] at h ⊢
    exact ⟨by omega, h.2⟩

/-- A canonical list says nothing below its bound. -/
theorem Memory.read_below {lo a : Nat} {m : Memory} (h : Memory.wfFrom lo m = true) (ha : a < lo) :
    m.read a = Memory.unlisted a := by
  cases m with
  | nil => rfl
  | cons c m =>
    obtain ⟨k, v⟩ := c
    rw [Memory.wfFrom_cons] at h
    simp [Memory.read, show a < k by omega]

theorem Memory.wfFrom_consCell {lo a : Nat} {v : Byte} {m : Memory} (hlo : lo ≤ a) (ha : a < 65536)
    (h : Memory.wfFrom (a + 1) m = true) : Memory.wfFrom lo (Memory.cons a v m) = true := by
  unfold Memory.cons
  split
  · exact Memory.wfFrom_mono h (by omega)
  · exact Memory.wfFrom_cons.mpr ⟨hlo, ha, by assumption, h⟩

theorem Memory.read_consCell {a b : Nat} {v : Byte} {m : Memory} (h : Memory.wfFrom (a + 1) m = true) :
    (Memory.cons a v m).read b = if b = a then v else if b < a then Memory.unlisted b else m.read b := by
  unfold Memory.cons
  split
  · rename_i hv
    by_cases hb : b = a
    · subst hb
      simp [Memory.read_below h (Nat.lt_succ_self b), hv]
    · by_cases hlt : b < a
      · simp [hb, hlt, Memory.read_below h (by omega : b < a + 1)]
      · simp [hb, hlt]
  · by_cases hb : b = a
    · simp [Memory.read, hb]
    · simp [Memory.read, hb]

/-- Every write keeps the canonical form. -/
theorem Memory.wfFrom_write {lo a : Nat} {m : Memory} (v : Byte) (h : Memory.wfFrom lo m = true) (hlo : lo ≤ a)
    (ha : a < 65536) : Memory.wfFrom lo (m.write a v) = true := by
  induction m generalizing lo with
  | nil => exact Memory.wfFrom_consCell hlo ha rfl
  | cons c m ih =>
    obtain ⟨k, w⟩ := c
    have hc := Memory.wfFrom_cons.mp h
    simp only [Memory.write]
    split
    · exact Memory.wfFrom_consCell hlo ha (Memory.wfFrom_cons.mpr ⟨by omega, hc.2⟩)
    · split
      · rename_i hk
        subst hk
        exact Memory.wfFrom_consCell hlo ha hc.2.2.2
      · exact Memory.wfFrom_cons.mpr ⟨hc.1, hc.2.1, hc.2.2.1, ih hc.2.2.2 (by omega)⟩

/-- What every address reads as after a write. -/
theorem Memory.read_write {lo a : Nat} {m : Memory} (v : Byte) (b : Nat) (h : Memory.wfFrom lo m = true) :
    (m.write a v).read b = if b = a then v else m.read b := by
  induction m generalizing lo with
  | nil =>
    simp only [Memory.write]
    rw [Memory.read_consCell rfl]
    simp [Memory.read]
  | cons c m ih =>
    obtain ⟨k, w⟩ := c
    have hc := Memory.wfFrom_cons.mp h
    simp only [Memory.write]
    split
    · rename_i hak
      rw [Memory.read_consCell (Memory.wfFrom_cons.mpr ⟨by omega, hc.2⟩)]
      by_cases hb : b = a
      · simp [hb]
      · by_cases hlt : b < a
        · simp [hb, hlt, Memory.read, show b < k by omega]
        · simp [hb, hlt]
    · split
      · rename_i hk
        subst hk
        rw [Memory.read_consCell hc.2.2.2]
        by_cases hb : b = a
        · simp [hb]
        · simp [hb, Memory.read]
      · rename_i hak hne
        simp only [Memory.read]
        by_cases h1 : b < k
        · simp [h1, show b ≠ a by omega]
        · by_cases h2 : b = k
          · simp [h2, show ¬k = a by omega]
          · simp [h1, h2, ih hc.2.2.2]

/-- Every memory operation keeps the canonical form (there is one: a write of one byte). -/
theorem Memory.wf_write {a : Nat} {m : Memory} (v : Byte) (h : m.wf = true) (ha : a < 65536) :
    (m.write a v).wf = true :=
  Memory.wfFrom_write v h (Nat.zero_le a) ha

theorem Memory.read_write_same {a : Nat} {m : Memory} (v : Byte) (h : m.wf = true) : (m.write a v).read a = v := by
  simp [Memory.read_write v a h]

theorem Memory.read_write_other {a b : Nat} {m : Memory} (v : Byte) (h : m.wf = true) (hb : b ≠ a) :
    (m.write a v).read b = m.read b := by
  simp [Memory.read_write v b h, hb]

/-- Equal memories are equal data: two canonical lists that read alike everywhere are the same list. -/
theorem Memory.ext_of_read {lo : Nat} {m n : Memory} (hm : Memory.wfFrom lo m = true) (hn : Memory.wfFrom lo n = true)
    (h : ∀ a, m.read a = n.read a) : m = n := by
  induction m generalizing lo n with
  | nil =>
    cases n with
    | nil => rfl
    | cons c n =>
      obtain ⟨k, v⟩ := c
      have hc := Memory.wfFrom_cons.mp hn
      have := h k
      simp [Memory.read] at this
      exact absurd this.symm hc.2.2.1
  | cons c m ih =>
    obtain ⟨k, v⟩ := c
    have hc := Memory.wfFrom_cons.mp hm
    cases n with
    | nil =>
      have := h k
      simp [Memory.read] at this
      exact absurd this hc.2.2.1
    | cons d n =>
      obtain ⟨l, w⟩ := d
      have hd := Memory.wfFrom_cons.mp hn
      have hk := h k
      have hl := h l
      rcases Nat.lt_trichotomy k l with hlt | heq | hgt
      · simp [Memory.read, hlt] at hk
        exact absurd hk hc.2.2.1
      · subst heq
        simp [Memory.read] at hk
        subst hk
        have tails : m = n := by
          apply ih hc.2.2.2 hd.2.2.2
          intro a
          have ha := h a
          by_cases h1 : a < k + 1
          · rw [Memory.read_below hc.2.2.2 h1, Memory.read_below hd.2.2.2 h1]
          · simpa [Memory.read, show ¬a < k by omega, show ¬a = k by omega] using ha
        rw [tails]
      · simp [Memory.read, hgt] at hl
        exact absurd hl.symm hd.2.2.1

/-- Memory at reset is canonical. -/
theorem Memory.wf_reset : State.reset.mem.wf = true := rfl

end Sys2Proof.Machine
end

