-- ==== Sys2Proof/Laws/State.lean ====
section
/-! SUPPORT. One lemma per field per update of the state, so that no later proof unfolds an update; the derived reads
`flag`, `peek` and `isDevice` have theirs where an update leaves the field they read alone. -/

namespace Sys2Proof.Machine

open Sys2Proof

/-! ### Reads from a pair -/

@[simp] theorem State.busRead_fst (s : State) (addr : Word) : (s.busRead addr).1 = s.busAnswer addr := rfl

@[simp] theorem State.busRead_snd (s : State) (addr : Word) : (s.busRead addr).2 = s.afterRead addr := rfl

theorem State.pull_fst (s : State) :
    s.pull.1 = ({ s with sp := s.sp + 1 } : State).busAnswer (stackAddr (s.sp + 1)) := rfl

@[simp] theorem State.fetchByte_fst (s : State) : s.fetchByte.1 = s.busAnswer s.pc := rfl

/-- The device windows are read from `env` alone. -/
theorem State.isDevice_congr {s t : State} (h : t.env = s.env) (addr : Word) : t.isDevice addr = s.isDevice addr := by
  simp only [State.isDevice, h]

/-- The bus's answer is read from `env`, `mem` and `busLog` alone. -/
theorem State.busAnswer_congr {s t : State} (he : t.env = s.env) (hm : t.mem = s.mem) (hl : t.busLog = s.busLog)
    (addr : Word) : t.busAnswer addr = s.busAnswer addr := by
  simp only [State.busAnswer, State.peek, State.isDevice_congr he, hm, hl]

/-- Where no device window covers an address, the bus answers memory's byte. -/
theorem State.busAnswer_of_memory {s : State} {addr : Word} (h : s.isDevice addr = false) :
    s.busAnswer addr = s.peek addr := by
  simp [State.busAnswer, h]

/-! ### setReg_a -/

@[simp] theorem State.setReg_a_a (s : State) (v : Byte) : (s.setReg .a v).a = v := rfl

@[simp] theorem State.setReg_a_x (s : State) (v : Byte) : (s.setReg .a v).x = s.x := rfl

@[simp] theorem State.setReg_a_y (s : State) (v : Byte) : (s.setReg .a v).y = s.y := rfl

@[simp] theorem State.setReg_a_sp (s : State) (v : Byte) : (s.setReg .a v).sp = s.sp := rfl

@[simp] theorem State.setReg_a_p (s : State) (v : Byte) : (s.setReg .a v).p = s.p := rfl

@[simp] theorem State.setReg_a_pc (s : State) (v : Byte) : (s.setReg .a v).pc = s.pc := rfl

@[simp] theorem State.setReg_a_cycles (s : State) (v : Byte) : (s.setReg .a v).cycles = s.cycles := rfl

@[simp] theorem State.setReg_a_opcode (s : State) (v : Byte) : (s.setReg .a v).opcode = s.opcode := rfl

@[simp] theorem State.setReg_a_fetched (s : State) (v : Byte) : (s.setReg .a v).fetched = s.fetched := rfl

@[simp] theorem State.setReg_a_addrAbs (s : State) (v : Byte) : (s.setReg .a v).addrAbs = s.addrAbs := rfl

@[simp] theorem State.setReg_a_addrRel (s : State) (v : Byte) : (s.setReg .a v).addrRel = s.addrRel := rfl

@[simp] theorem State.setReg_a_mem (s : State) (v : Byte) : (s.setReg .a v).mem = s.mem := rfl

@[simp] theorem State.setReg_a_env (s : State) (v : Byte) : (s.setReg .a v).env = s.env := rfl

@[simp] theorem State.setReg_a_busLog (s : State) (v : Byte) : (s.setReg .a v).busLog = s.busLog := rfl

@[simp] theorem State.setReg_a_freeCount (s : State) (v : Byte) : (s.setReg .a v).freeCount = s.freeCount := rfl

@[simp] theorem State.setReg_a_peek (s : State) (v : Byte) (addr' : Word) : (s.setReg .a v).peek addr' = s.peek addr' := rfl

@[simp] theorem State.setReg_a_isDevice (s : State) (v : Byte) (addr' : Word) : (s.setReg .a v).isDevice addr' = s.isDevice addr' := rfl

/-! ### loadReg_a -/

@[simp] theorem State.loadReg_a_a (s : State) (v : Byte) : (s.loadReg .a v).a = v := rfl

@[simp] theorem State.loadReg_a_x (s : State) (v : Byte) : (s.loadReg .a v).x = s.x := rfl

@[simp] theorem State.loadReg_a_y (s : State) (v : Byte) : (s.loadReg .a v).y = s.y := rfl

@[simp] theorem State.loadReg_a_sp (s : State) (v : Byte) : (s.loadReg .a v).sp = s.sp := rfl

@[simp] theorem State.loadReg_a_pc (s : State) (v : Byte) : (s.loadReg .a v).pc = s.pc := rfl

@[simp] theorem State.loadReg_a_cycles (s : State) (v : Byte) : (s.loadReg .a v).cycles = s.cycles := rfl

@[simp] theorem State.loadReg_a_opcode (s : State) (v : Byte) : (s.loadReg .a v).opcode = s.opcode := rfl

@[simp] theorem State.loadReg_a_fetched (s : State) (v : Byte) : (s.loadReg .a v).fetched = s.fetched := rfl

@[simp] theorem State.loadReg_a_addrAbs (s : State) (v : Byte) : (s.loadReg .a v).addrAbs = s.addrAbs := rfl

@[simp] theorem State.loadReg_a_addrRel (s : State) (v : Byte) : (s.loadReg .a v).addrRel = s.addrRel := rfl

@[simp] theorem State.loadReg_a_mem (s : State) (v : Byte) : (s.loadReg .a v).mem = s.mem := rfl

@[simp] theorem State.loadReg_a_env (s : State) (v : Byte) : (s.loadReg .a v).env = s.env := rfl

@[simp] theorem State.loadReg_a_busLog (s : State) (v : Byte) : (s.loadReg .a v).busLog = s.busLog := rfl

@[simp] theorem State.loadReg_a_freeCount (s : State) (v : Byte) : (s.loadReg .a v).freeCount = s.freeCount := rfl

@[simp] theorem State.loadReg_a_peek (s : State) (v : Byte) (addr' : Word) : (s.loadReg .a v).peek addr' = s.peek addr' := rfl

@[simp] theorem State.loadReg_a_isDevice (s : State) (v : Byte) (addr' : Word) : (s.loadReg .a v).isDevice addr' = s.isDevice addr' := rfl

/-! ### setReg_x -/

@[simp] theorem State.setReg_x_a (s : State) (v : Byte) : (s.setReg .x v).a = s.a := rfl

@[simp] theorem State.setReg_x_x (s : State) (v : Byte) : (s.setReg .x v).x = v := rfl

@[simp] theorem State.setReg_x_y (s : State) (v : Byte) : (s.setReg .x v).y = s.y := rfl

@[simp] theorem State.setReg_x_sp (s : State) (v : Byte) : (s.setReg .x v).sp = s.sp := rfl

@[simp] theorem State.setReg_x_p (s : State) (v : Byte) : (s.setReg .x v).p = s.p := rfl

@[simp] theorem State.setReg_x_pc (s : State) (v : Byte) : (s.setReg .x v).pc = s.pc := rfl

@[simp] theorem State.setReg_x_cycles (s : State) (v : Byte) : (s.setReg .x v).cycles = s.cycles := rfl

@[simp] theorem State.setReg_x_opcode (s : State) (v : Byte) : (s.setReg .x v).opcode = s.opcode := rfl

@[simp] theorem State.setReg_x_fetched (s : State) (v : Byte) : (s.setReg .x v).fetched = s.fetched := rfl

@[simp] theorem State.setReg_x_addrAbs (s : State) (v : Byte) : (s.setReg .x v).addrAbs = s.addrAbs := rfl

@[simp] theorem State.setReg_x_addrRel (s : State) (v : Byte) : (s.setReg .x v).addrRel = s.addrRel := rfl

@[simp] theorem State.setReg_x_mem (s : State) (v : Byte) : (s.setReg .x v).mem = s.mem := rfl

@[simp] theorem State.setReg_x_env (s : State) (v : Byte) : (s.setReg .x v).env = s.env := rfl

@[simp] theorem State.setReg_x_busLog (s : State) (v : Byte) : (s.setReg .x v).busLog = s.busLog := rfl

@[simp] theorem State.setReg_x_freeCount (s : State) (v : Byte) : (s.setReg .x v).freeCount = s.freeCount := rfl

@[simp] theorem State.setReg_x_peek (s : State) (v : Byte) (addr' : Word) : (s.setReg .x v).peek addr' = s.peek addr' := rfl

@[simp] theorem State.setReg_x_isDevice (s : State) (v : Byte) (addr' : Word) : (s.setReg .x v).isDevice addr' = s.isDevice addr' := rfl

/-! ### loadReg_x -/

@[simp] theorem State.loadReg_x_a (s : State) (v : Byte) : (s.loadReg .x v).a = s.a := rfl

@[simp] theorem State.loadReg_x_x (s : State) (v : Byte) : (s.loadReg .x v).x = v := rfl

@[simp] theorem State.loadReg_x_y (s : State) (v : Byte) : (s.loadReg .x v).y = s.y := rfl

@[simp] theorem State.loadReg_x_sp (s : State) (v : Byte) : (s.loadReg .x v).sp = s.sp := rfl

@[simp] theorem State.loadReg_x_pc (s : State) (v : Byte) : (s.loadReg .x v).pc = s.pc := rfl

@[simp] theorem State.loadReg_x_cycles (s : State) (v : Byte) : (s.loadReg .x v).cycles = s.cycles := rfl

@[simp] theorem State.loadReg_x_opcode (s : State) (v : Byte) : (s.loadReg .x v).opcode = s.opcode := rfl

@[simp] theorem State.loadReg_x_fetched (s : State) (v : Byte) : (s.loadReg .x v).fetched = s.fetched := rfl

@[simp] theorem State.loadReg_x_addrAbs (s : State) (v : Byte) : (s.loadReg .x v).addrAbs = s.addrAbs := rfl

@[simp] theorem State.loadReg_x_addrRel (s : State) (v : Byte) : (s.loadReg .x v).addrRel = s.addrRel := rfl

@[simp] theorem State.loadReg_x_mem (s : State) (v : Byte) : (s.loadReg .x v).mem = s.mem := rfl

@[simp] theorem State.loadReg_x_env (s : State) (v : Byte) : (s.loadReg .x v).env = s.env := rfl

@[simp] theorem State.loadReg_x_busLog (s : State) (v : Byte) : (s.loadReg .x v).busLog = s.busLog := rfl

@[simp] theorem State.loadReg_x_freeCount (s : State) (v : Byte) : (s.loadReg .x v).freeCount = s.freeCount := rfl

@[simp] theorem State.loadReg_x_peek (s : State) (v : Byte) (addr' : Word) : (s.loadReg .x v).peek addr' = s.peek addr' := rfl

@[simp] theorem State.loadReg_x_isDevice (s : State) (v : Byte) (addr' : Word) : (s.loadReg .x v).isDevice addr' = s.isDevice addr' := rfl

/-! ### setReg_y -/

@[simp] theorem State.setReg_y_a (s : State) (v : Byte) : (s.setReg .y v).a = s.a := rfl

@[simp] theorem State.setReg_y_x (s : State) (v : Byte) : (s.setReg .y v).x = s.x := rfl

@[simp] theorem State.setReg_y_y (s : State) (v : Byte) : (s.setReg .y v).y = v := rfl

@[simp] theorem State.setReg_y_sp (s : State) (v : Byte) : (s.setReg .y v).sp = s.sp := rfl

@[simp] theorem State.setReg_y_p (s : State) (v : Byte) : (s.setReg .y v).p = s.p := rfl

@[simp] theorem State.setReg_y_pc (s : State) (v : Byte) : (s.setReg .y v).pc = s.pc := rfl

@[simp] theorem State.setReg_y_cycles (s : State) (v : Byte) : (s.setReg .y v).cycles = s.cycles := rfl

@[simp] theorem State.setReg_y_opcode (s : State) (v : Byte) : (s.setReg .y v).opcode = s.opcode := rfl

@[simp] theorem State.setReg_y_fetched (s : State) (v : Byte) : (s.setReg .y v).fetched = s.fetched := rfl

@[simp] theorem State.setReg_y_addrAbs (s : State) (v : Byte) : (s.setReg .y v).addrAbs = s.addrAbs := rfl

@[simp] theorem State.setReg_y_addrRel (s : State) (v : Byte) : (s.setReg .y v).addrRel = s.addrRel := rfl

@[simp] theorem State.setReg_y_mem (s : State) (v : Byte) : (s.setReg .y v).mem = s.mem := rfl

@[simp] theorem State.setReg_y_env (s : State) (v : Byte) : (s.setReg .y v).env = s.env := rfl

@[simp] theorem State.setReg_y_busLog (s : State) (v : Byte) : (s.setReg .y v).busLog = s.busLog := rfl

@[simp] theorem State.setReg_y_freeCount (s : State) (v : Byte) : (s.setReg .y v).freeCount = s.freeCount := rfl

@[simp] theorem State.setReg_y_peek (s : State) (v : Byte) (addr' : Word) : (s.setReg .y v).peek addr' = s.peek addr' := rfl

@[simp] theorem State.setReg_y_isDevice (s : State) (v : Byte) (addr' : Word) : (s.setReg .y v).isDevice addr' = s.isDevice addr' := rfl

/-! ### loadReg_y -/

@[simp] theorem State.loadReg_y_a (s : State) (v : Byte) : (s.loadReg .y v).a = s.a := rfl

@[simp] theorem State.loadReg_y_x (s : State) (v : Byte) : (s.loadReg .y v).x = s.x := rfl

@[simp] theorem State.loadReg_y_y (s : State) (v : Byte) : (s.loadReg .y v).y = v := rfl

@[simp] theorem State.loadReg_y_sp (s : State) (v : Byte) : (s.loadReg .y v).sp = s.sp := rfl

@[simp] theorem State.loadReg_y_pc (s : State) (v : Byte) : (s.loadReg .y v).pc = s.pc := rfl

@[simp] theorem State.loadReg_y_cycles (s : State) (v : Byte) : (s.loadReg .y v).cycles = s.cycles := rfl

@[simp] theorem State.loadReg_y_opcode (s : State) (v : Byte) : (s.loadReg .y v).opcode = s.opcode := rfl

@[simp] theorem State.loadReg_y_fetched (s : State) (v : Byte) : (s.loadReg .y v).fetched = s.fetched := rfl

@[simp] theorem State.loadReg_y_addrAbs (s : State) (v : Byte) : (s.loadReg .y v).addrAbs = s.addrAbs := rfl

@[simp] theorem State.loadReg_y_addrRel (s : State) (v : Byte) : (s.loadReg .y v).addrRel = s.addrRel := rfl

@[simp] theorem State.loadReg_y_mem (s : State) (v : Byte) : (s.loadReg .y v).mem = s.mem := rfl

@[simp] theorem State.loadReg_y_env (s : State) (v : Byte) : (s.loadReg .y v).env = s.env := rfl

@[simp] theorem State.loadReg_y_busLog (s : State) (v : Byte) : (s.loadReg .y v).busLog = s.busLog := rfl

@[simp] theorem State.loadReg_y_freeCount (s : State) (v : Byte) : (s.loadReg .y v).freeCount = s.freeCount := rfl

@[simp] theorem State.loadReg_y_peek (s : State) (v : Byte) (addr' : Word) : (s.loadReg .y v).peek addr' = s.peek addr' := rfl

@[simp] theorem State.loadReg_y_isDevice (s : State) (v : Byte) (addr' : Word) : (s.loadReg .y v).isDevice addr' = s.isDevice addr' := rfl

/-! ### setReg_sp -/

@[simp] theorem State.setReg_sp_a (s : State) (v : Byte) : (s.setReg .sp v).a = s.a := rfl

@[simp] theorem State.setReg_sp_x (s : State) (v : Byte) : (s.setReg .sp v).x = s.x := rfl

@[simp] theorem State.setReg_sp_y (s : State) (v : Byte) : (s.setReg .sp v).y = s.y := rfl

@[simp] theorem State.setReg_sp_sp (s : State) (v : Byte) : (s.setReg .sp v).sp = v := rfl

@[simp] theorem State.setReg_sp_p (s : State) (v : Byte) : (s.setReg .sp v).p = s.p := rfl

@[simp] theorem State.setReg_sp_pc (s : State) (v : Byte) : (s.setReg .sp v).pc = s.pc := rfl

@[simp] theorem State.setReg_sp_cycles (s : State) (v : Byte) : (s.setReg .sp v).cycles = s.cycles := rfl

@[simp] theorem State.setReg_sp_opcode (s : State) (v : Byte) : (s.setReg .sp v).opcode = s.opcode := rfl

@[simp] theorem State.setReg_sp_fetched (s : State) (v : Byte) : (s.setReg .sp v).fetched = s.fetched := rfl

@[simp] theorem State.setReg_sp_addrAbs (s : State) (v : Byte) : (s.setReg .sp v).addrAbs = s.addrAbs := rfl

@[simp] theorem State.setReg_sp_addrRel (s : State) (v : Byte) : (s.setReg .sp v).addrRel = s.addrRel := rfl

@[simp] theorem State.setReg_sp_mem (s : State) (v : Byte) : (s.setReg .sp v).mem = s.mem := rfl

@[simp] theorem State.setReg_sp_env (s : State) (v : Byte) : (s.setReg .sp v).env = s.env := rfl

@[simp] theorem State.setReg_sp_busLog (s : State) (v : Byte) : (s.setReg .sp v).busLog = s.busLog := rfl

@[simp] theorem State.setReg_sp_freeCount (s : State) (v : Byte) : (s.setReg .sp v).freeCount = s.freeCount := rfl

@[simp] theorem State.setReg_sp_peek (s : State) (v : Byte) (addr' : Word) : (s.setReg .sp v).peek addr' = s.peek addr' := rfl

@[simp] theorem State.setReg_sp_isDevice (s : State) (v : Byte) (addr' : Word) : (s.setReg .sp v).isDevice addr' = s.isDevice addr' := rfl

/-! ### loadReg_sp -/

@[simp] theorem State.loadReg_sp_a (s : State) (v : Byte) : (s.loadReg .sp v).a = s.a := rfl

@[simp] theorem State.loadReg_sp_x (s : State) (v : Byte) : (s.loadReg .sp v).x = s.x := rfl

@[simp] theorem State.loadReg_sp_y (s : State) (v : Byte) : (s.loadReg .sp v).y = s.y := rfl

@[simp] theorem State.loadReg_sp_sp (s : State) (v : Byte) : (s.loadReg .sp v).sp = v := rfl

@[simp] theorem State.loadReg_sp_pc (s : State) (v : Byte) : (s.loadReg .sp v).pc = s.pc := rfl

@[simp] theorem State.loadReg_sp_cycles (s : State) (v : Byte) : (s.loadReg .sp v).cycles = s.cycles := rfl

@[simp] theorem State.loadReg_sp_opcode (s : State) (v : Byte) : (s.loadReg .sp v).opcode = s.opcode := rfl

@[simp] theorem State.loadReg_sp_fetched (s : State) (v : Byte) : (s.loadReg .sp v).fetched = s.fetched := rfl

@[simp] theorem State.loadReg_sp_addrAbs (s : State) (v : Byte) : (s.loadReg .sp v).addrAbs = s.addrAbs := rfl

@[simp] theorem State.loadReg_sp_addrRel (s : State) (v : Byte) : (s.loadReg .sp v).addrRel = s.addrRel := rfl

@[simp] theorem State.loadReg_sp_mem (s : State) (v : Byte) : (s.loadReg .sp v).mem = s.mem := rfl

@[simp] theorem State.loadReg_sp_env (s : State) (v : Byte) : (s.loadReg .sp v).env = s.env := rfl

@[simp] theorem State.loadReg_sp_busLog (s : State) (v : Byte) : (s.loadReg .sp v).busLog = s.busLog := rfl

@[simp] theorem State.loadReg_sp_freeCount (s : State) (v : Byte) : (s.loadReg .sp v).freeCount = s.freeCount := rfl

@[simp] theorem State.loadReg_sp_peek (s : State) (v : Byte) (addr' : Word) : (s.loadReg .sp v).peek addr' = s.peek addr' := rfl

@[simp] theorem State.loadReg_sp_isDevice (s : State) (v : Byte) (addr' : Word) : (s.loadReg .sp v).isDevice addr' = s.isDevice addr' := rfl

/-! ### setStatus -/

@[simp] theorem State.setStatus_a (s : State) (v : Byte) : (s.setStatus v).a = s.a := rfl

@[simp] theorem State.setStatus_x (s : State) (v : Byte) : (s.setStatus v).x = s.x := rfl

@[simp] theorem State.setStatus_y (s : State) (v : Byte) : (s.setStatus v).y = s.y := rfl

@[simp] theorem State.setStatus_sp (s : State) (v : Byte) : (s.setStatus v).sp = s.sp := rfl

@[simp] theorem State.setStatus_p (s : State) (v : Byte) : (s.setStatus v).p = v := rfl

@[simp] theorem State.setStatus_pc (s : State) (v : Byte) : (s.setStatus v).pc = s.pc := rfl

@[simp] theorem State.setStatus_cycles (s : State) (v : Byte) : (s.setStatus v).cycles = s.cycles := rfl

@[simp] theorem State.setStatus_opcode (s : State) (v : Byte) : (s.setStatus v).opcode = s.opcode := rfl

@[simp] theorem State.setStatus_fetched (s : State) (v : Byte) : (s.setStatus v).fetched = s.fetched := rfl

@[simp] theorem State.setStatus_addrAbs (s : State) (v : Byte) : (s.setStatus v).addrAbs = s.addrAbs := rfl

@[simp] theorem State.setStatus_addrRel (s : State) (v : Byte) : (s.setStatus v).addrRel = s.addrRel := rfl

@[simp] theorem State.setStatus_mem (s : State) (v : Byte) : (s.setStatus v).mem = s.mem := rfl

@[simp] theorem State.setStatus_env (s : State) (v : Byte) : (s.setStatus v).env = s.env := rfl

@[simp] theorem State.setStatus_busLog (s : State) (v : Byte) : (s.setStatus v).busLog = s.busLog := rfl

@[simp] theorem State.setStatus_freeCount (s : State) (v : Byte) : (s.setStatus v).freeCount = s.freeCount := rfl

@[simp] theorem State.setStatus_peek (s : State) (v : Byte) (addr' : Word) : (s.setStatus v).peek addr' = s.peek addr' := rfl

@[simp] theorem State.setStatus_isDevice (s : State) (v : Byte) (addr' : Word) : (s.setStatus v).isDevice addr' = s.isDevice addr' := rfl

/-! ### jump -/

@[simp] theorem State.jump_a (s : State) (w : Word) : (s.jump w).a = s.a := rfl

@[simp] theorem State.jump_x (s : State) (w : Word) : (s.jump w).x = s.x := rfl

@[simp] theorem State.jump_y (s : State) (w : Word) : (s.jump w).y = s.y := rfl

@[simp] theorem State.jump_sp (s : State) (w : Word) : (s.jump w).sp = s.sp := rfl

@[simp] theorem State.jump_p (s : State) (w : Word) : (s.jump w).p = s.p := rfl

@[simp] theorem State.jump_pc (s : State) (w : Word) : (s.jump w).pc = w := rfl

@[simp] theorem State.jump_cycles (s : State) (w : Word) : (s.jump w).cycles = s.cycles := rfl

@[simp] theorem State.jump_opcode (s : State) (w : Word) : (s.jump w).opcode = s.opcode := rfl

@[simp] theorem State.jump_fetched (s : State) (w : Word) : (s.jump w).fetched = s.fetched := rfl

@[simp] theorem State.jump_addrAbs (s : State) (w : Word) : (s.jump w).addrAbs = s.addrAbs := rfl

@[simp] theorem State.jump_addrRel (s : State) (w : Word) : (s.jump w).addrRel = s.addrRel := rfl

@[simp] theorem State.jump_mem (s : State) (w : Word) : (s.jump w).mem = s.mem := rfl

@[simp] theorem State.jump_env (s : State) (w : Word) : (s.jump w).env = s.env := rfl

@[simp] theorem State.jump_busLog (s : State) (w : Word) : (s.jump w).busLog = s.busLog := rfl

@[simp] theorem State.jump_freeCount (s : State) (w : Word) : (s.jump w).freeCount = s.freeCount := rfl

@[simp] theorem State.jump_flag (s : State) (w : Word) (g : Flag) : (s.jump w).flag g = s.flag g := rfl

@[simp] theorem State.jump_peek (s : State) (w : Word) (addr' : Word) : (s.jump w).peek addr' = s.peek addr' := rfl

@[simp] theorem State.jump_isDevice (s : State) (w : Word) (addr' : Word) : (s.jump w).isDevice addr' = s.isDevice addr' := rfl

/-! ### setFlag -/

@[simp] theorem State.setFlag_a (s : State) (f : Flag) (b : Bool) : (s.setFlag f b).a = s.a := rfl

@[simp] theorem State.setFlag_x (s : State) (f : Flag) (b : Bool) : (s.setFlag f b).x = s.x := rfl

@[simp] theorem State.setFlag_y (s : State) (f : Flag) (b : Bool) : (s.setFlag f b).y = s.y := rfl

@[simp] theorem State.setFlag_sp (s : State) (f : Flag) (b : Bool) : (s.setFlag f b).sp = s.sp := rfl

@[simp] theorem State.setFlag_p (s : State) (f : Flag) (b : Bool) : (s.setFlag f b).p = putFlag s.p f b := rfl

@[simp] theorem State.setFlag_pc (s : State) (f : Flag) (b : Bool) : (s.setFlag f b).pc = s.pc := rfl

@[simp] theorem State.setFlag_cycles (s : State) (f : Flag) (b : Bool) : (s.setFlag f b).cycles = s.cycles := rfl

@[simp] theorem State.setFlag_opcode (s : State) (f : Flag) (b : Bool) : (s.setFlag f b).opcode = s.opcode := rfl

@[simp] theorem State.setFlag_fetched (s : State) (f : Flag) (b : Bool) : (s.setFlag f b).fetched = s.fetched := rfl

@[simp] theorem State.setFlag_addrAbs (s : State) (f : Flag) (b : Bool) : (s.setFlag f b).addrAbs = s.addrAbs := rfl

@[simp] theorem State.setFlag_addrRel (s : State) (f : Flag) (b : Bool) : (s.setFlag f b).addrRel = s.addrRel := rfl

@[simp] theorem State.setFlag_mem (s : State) (f : Flag) (b : Bool) : (s.setFlag f b).mem = s.mem := rfl

@[simp] theorem State.setFlag_env (s : State) (f : Flag) (b : Bool) : (s.setFlag f b).env = s.env := rfl

@[simp] theorem State.setFlag_busLog (s : State) (f : Flag) (b : Bool) : (s.setFlag f b).busLog = s.busLog := rfl

@[simp] theorem State.setFlag_freeCount (s : State) (f : Flag) (b : Bool) : (s.setFlag f b).freeCount = s.freeCount := rfl

@[simp] theorem State.setFlag_peek (s : State) (f : Flag) (b : Bool) (addr' : Word) : (s.setFlag f b).peek addr' = s.peek addr' := rfl

@[simp] theorem State.setFlag_isDevice (s : State) (f : Flag) (b : Bool) (addr' : Word) : (s.setFlag f b).isDevice addr' = s.isDevice addr' := rfl

/-! ### setNZ -/

@[simp] theorem State.setNZ_a (s : State) (v : Byte) : (s.setNZ v).a = s.a := rfl

@[simp] theorem State.setNZ_x (s : State) (v : Byte) : (s.setNZ v).x = s.x := rfl

@[simp] theorem State.setNZ_y (s : State) (v : Byte) : (s.setNZ v).y = s.y := rfl

@[simp] theorem State.setNZ_sp (s : State) (v : Byte) : (s.setNZ v).sp = s.sp := rfl

@[simp] theorem State.setNZ_pc (s : State) (v : Byte) : (s.setNZ v).pc = s.pc := rfl

@[simp] theorem State.setNZ_cycles (s : State) (v : Byte) : (s.setNZ v).cycles = s.cycles := rfl

@[simp] theorem State.setNZ_opcode (s : State) (v : Byte) : (s.setNZ v).opcode = s.opcode := rfl

@[simp] theorem State.setNZ_fetched (s : State) (v : Byte) : (s.setNZ v).fetched = s.fetched := rfl

@[simp] theorem State.setNZ_addrAbs (s : State) (v : Byte) : (s.setNZ v).addrAbs = s.addrAbs := rfl

@[simp] theorem State.setNZ_addrRel (s : State) (v : Byte) : (s.setNZ v).addrRel = s.addrRel := rfl

@[simp] theorem State.setNZ_mem (s : State) (v : Byte) : (s.setNZ v).mem = s.mem := rfl

@[simp] theorem State.setNZ_env (s : State) (v : Byte) : (s.setNZ v).env = s.env := rfl

@[simp] theorem State.setNZ_busLog (s : State) (v : Byte) : (s.setNZ v).busLog = s.busLog := rfl

@[simp] theorem State.setNZ_freeCount (s : State) (v : Byte) : (s.setNZ v).freeCount = s.freeCount := rfl

@[simp] theorem State.setNZ_peek (s : State) (v : Byte) (addr' : Word) : (s.setNZ v).peek addr' = s.peek addr' := rfl

@[simp] theorem State.setNZ_isDevice (s : State) (v : Byte) (addr' : Word) : (s.setNZ v).isDevice addr' = s.isDevice addr' := rfl

/-! ### addToA -/

@[simp] theorem State.addToA_a (s : State) (m : Byte) : (s.addToA m).a = addResult s.a m (s.flag .c) := rfl

@[simp] theorem State.addToA_x (s : State) (m : Byte) : (s.addToA m).x = s.x := rfl

@[simp] theorem State.addToA_y (s : State) (m : Byte) : (s.addToA m).y = s.y := rfl

@[simp] theorem State.addToA_sp (s : State) (m : Byte) : (s.addToA m).sp = s.sp := rfl

@[simp] theorem State.addToA_pc (s : State) (m : Byte) : (s.addToA m).pc = s.pc := rfl

@[simp] theorem State.addToA_cycles (s : State) (m : Byte) : (s.addToA m).cycles = s.cycles := rfl

@[simp] theorem State.addToA_opcode (s : State) (m : Byte) : (s.addToA m).opcode = s.opcode := rfl

@[simp] theorem State.addToA_fetched (s : State) (m : Byte) : (s.addToA m).fetched = s.fetched := rfl

@[simp] theorem State.addToA_addrAbs (s : State) (m : Byte) : (s.addToA m).addrAbs = s.addrAbs := rfl

@[simp] theorem State.addToA_addrRel (s : State) (m : Byte) : (s.addToA m).addrRel = s.addrRel := rfl

@[simp] theorem State.addToA_mem (s : State) (m : Byte) : (s.addToA m).mem = s.mem := rfl

@[simp] theorem State.addToA_env (s : State) (m : Byte) : (s.addToA m).env = s.env := rfl

@[simp] theorem State.addToA_busLog (s : State) (m : Byte) : (s.addToA m).busLog = s.busLog := rfl

@[simp] theorem State.addToA_freeCount (s : State) (m : Byte) : (s.addToA m).freeCount = s.freeCount := rfl

@[simp] theorem State.addToA_peek (s : State) (m : Byte) (addr' : Word) : (s.addToA m).peek addr' = s.peek addr' := rfl

@[simp] theorem State.addToA_isDevice (s : State) (m : Byte) (addr' : Word) : (s.addToA m).isDevice addr' = s.isDevice addr' := rfl

/-! ### compare -/

@[simp] theorem State.compare_a (s : State) (r m : Byte) : (s.compare r m).a = s.a := rfl

@[simp] theorem State.compare_x (s : State) (r m : Byte) : (s.compare r m).x = s.x := rfl

@[simp] theorem State.compare_y (s : State) (r m : Byte) : (s.compare r m).y = s.y := rfl

@[simp] theorem State.compare_sp (s : State) (r m : Byte) : (s.compare r m).sp = s.sp := rfl

@[simp] theorem State.compare_pc (s : State) (r m : Byte) : (s.compare r m).pc = s.pc := rfl

@[simp] theorem State.compare_cycles (s : State) (r m : Byte) : (s.compare r m).cycles = s.cycles := rfl

@[simp] theorem State.compare_opcode (s : State) (r m : Byte) : (s.compare r m).opcode = s.opcode := rfl

@[simp] theorem State.compare_fetched (s : State) (r m : Byte) : (s.compare r m).fetched = s.fetched := rfl

@[simp] theorem State.compare_addrAbs (s : State) (r m : Byte) : (s.compare r m).addrAbs = s.addrAbs := rfl

@[simp] theorem State.compare_addrRel (s : State) (r m : Byte) : (s.compare r m).addrRel = s.addrRel := rfl

@[simp] theorem State.compare_mem (s : State) (r m : Byte) : (s.compare r m).mem = s.mem := rfl

@[simp] theorem State.compare_env (s : State) (r m : Byte) : (s.compare r m).env = s.env := rfl

@[simp] theorem State.compare_busLog (s : State) (r m : Byte) : (s.compare r m).busLog = s.busLog := rfl

@[simp] theorem State.compare_freeCount (s : State) (r m : Byte) : (s.compare r m).freeCount = s.freeCount := rfl

@[simp] theorem State.compare_peek (s : State) (r m : Byte) (addr' : Word) : (s.compare r m).peek addr' = s.peek addr' := rfl

@[simp] theorem State.compare_isDevice (s : State) (r m : Byte) (addr' : Word) : (s.compare r m).isDevice addr' = s.isDevice addr' := rfl

/-! ### bitTest -/

@[simp] theorem State.bitTest_a (s : State) (m : Byte) : (s.bitTest m).a = s.a := rfl

@[simp] theorem State.bitTest_x (s : State) (m : Byte) : (s.bitTest m).x = s.x := rfl

@[simp] theorem State.bitTest_y (s : State) (m : Byte) : (s.bitTest m).y = s.y := rfl

@[simp] theorem State.bitTest_sp (s : State) (m : Byte) : (s.bitTest m).sp = s.sp := rfl

@[simp] theorem State.bitTest_pc (s : State) (m : Byte) : (s.bitTest m).pc = s.pc := rfl

@[simp] theorem State.bitTest_cycles (s : State) (m : Byte) : (s.bitTest m).cycles = s.cycles := rfl

@[simp] theorem State.bitTest_opcode (s : State) (m : Byte) : (s.bitTest m).opcode = s.opcode := rfl

@[simp] theorem State.bitTest_fetched (s : State) (m : Byte) : (s.bitTest m).fetched = s.fetched := rfl

@[simp] theorem State.bitTest_addrAbs (s : State) (m : Byte) : (s.bitTest m).addrAbs = s.addrAbs := rfl

@[simp] theorem State.bitTest_addrRel (s : State) (m : Byte) : (s.bitTest m).addrRel = s.addrRel := rfl

@[simp] theorem State.bitTest_mem (s : State) (m : Byte) : (s.bitTest m).mem = s.mem := rfl

@[simp] theorem State.bitTest_env (s : State) (m : Byte) : (s.bitTest m).env = s.env := rfl

@[simp] theorem State.bitTest_busLog (s : State) (m : Byte) : (s.bitTest m).busLog = s.busLog := rfl

@[simp] theorem State.bitTest_freeCount (s : State) (m : Byte) : (s.bitTest m).freeCount = s.freeCount := rfl

@[simp] theorem State.bitTest_peek (s : State) (m : Byte) (addr' : Word) : (s.bitTest m).peek addr' = s.peek addr' := rfl

@[simp] theorem State.bitTest_isDevice (s : State) (m : Byte) (addr' : Word) : (s.bitTest m).isDevice addr' = s.isDevice addr' := rfl

/-! ### afterRead -/

@[simp] theorem State.afterRead_a (s : State) (addr : Word) : (s.afterRead addr).a = s.a := rfl

@[simp] theorem State.afterRead_x (s : State) (addr : Word) : (s.afterRead addr).x = s.x := rfl

@[simp] theorem State.afterRead_y (s : State) (addr : Word) : (s.afterRead addr).y = s.y := rfl

@[simp] theorem State.afterRead_sp (s : State) (addr : Word) : (s.afterRead addr).sp = s.sp := rfl

@[simp] theorem State.afterRead_p (s : State) (addr : Word) : (s.afterRead addr).p = s.p := rfl

@[simp] theorem State.afterRead_pc (s : State) (addr : Word) : (s.afterRead addr).pc = s.pc := rfl

@[simp] theorem State.afterRead_cycles (s : State) (addr : Word) : (s.afterRead addr).cycles = s.cycles := rfl

@[simp] theorem State.afterRead_opcode (s : State) (addr : Word) : (s.afterRead addr).opcode = s.opcode := rfl

@[simp] theorem State.afterRead_fetched (s : State) (addr : Word) : (s.afterRead addr).fetched = s.fetched := rfl

@[simp] theorem State.afterRead_addrAbs (s : State) (addr : Word) : (s.afterRead addr).addrAbs = s.addrAbs := rfl

@[simp] theorem State.afterRead_addrRel (s : State) (addr : Word) : (s.afterRead addr).addrRel = s.addrRel := rfl

@[simp] theorem State.afterRead_mem (s : State) (addr : Word) : (s.afterRead addr).mem = s.mem := rfl

@[simp] theorem State.afterRead_env (s : State) (addr : Word) : (s.afterRead addr).env = s.env := rfl

@[simp] theorem State.afterRead_busLog (s : State) (addr : Word) : (s.afterRead addr).busLog = .read addr (s.busAnswer addr) :: s.busLog := rfl

@[simp] theorem State.afterRead_freeCount (s : State) (addr : Word) : (s.afterRead addr).freeCount = s.freeCount := rfl

@[simp] theorem State.afterRead_flag (s : State) (addr : Word) (g : Flag) : (s.afterRead addr).flag g = s.flag g := rfl

@[simp] theorem State.afterRead_peek (s : State) (addr : Word) (addr' : Word) : (s.afterRead addr).peek addr' = s.peek addr' := rfl

@[simp] theorem State.afterRead_isDevice (s : State) (addr : Word) (addr' : Word) : (s.afterRead addr).isDevice addr' = s.isDevice addr' := rfl

/-! ### busWrite -/

@[simp] theorem State.busWrite_a (s : State) (addr : Word) (v : Byte) : (s.busWrite addr v).a = s.a := rfl

@[simp] theorem State.busWrite_x (s : State) (addr : Word) (v : Byte) : (s.busWrite addr v).x = s.x := rfl

@[simp] theorem State.busWrite_y (s : State) (addr : Word) (v : Byte) : (s.busWrite addr v).y = s.y := rfl

@[simp] theorem State.busWrite_sp (s : State) (addr : Word) (v : Byte) : (s.busWrite addr v).sp = s.sp := rfl

@[simp] theorem State.busWrite_p (s : State) (addr : Word) (v : Byte) : (s.busWrite addr v).p = s.p := rfl

@[simp] theorem State.busWrite_pc (s : State) (addr : Word) (v : Byte) : (s.busWrite addr v).pc = s.pc := rfl

@[simp] theorem State.busWrite_cycles (s : State) (addr : Word) (v : Byte) : (s.busWrite addr v).cycles = s.cycles := rfl

@[simp] theorem State.busWrite_opcode (s : State) (addr : Word) (v : Byte) : (s.busWrite addr v).opcode = s.opcode := rfl

@[simp] theorem State.busWrite_fetched (s : State) (addr : Word) (v : Byte) : (s.busWrite addr v).fetched = s.fetched := rfl

@[simp] theorem State.busWrite_addrAbs (s : State) (addr : Word) (v : Byte) : (s.busWrite addr v).addrAbs = s.addrAbs := rfl

@[simp] theorem State.busWrite_addrRel (s : State) (addr : Word) (v : Byte) : (s.busWrite addr v).addrRel = s.addrRel := rfl

@[simp] theorem State.busWrite_mem (s : State) (addr : Word) (v : Byte) : (s.busWrite addr v).mem = s.memAfterWrite addr v := rfl

@[simp] theorem State.busWrite_env (s : State) (addr : Word) (v : Byte) : (s.busWrite addr v).env = s.env := rfl

@[simp] theorem State.busWrite_busLog (s : State) (addr : Word) (v : Byte) : (s.busWrite addr v).busLog = .write addr v :: s.busLog := rfl

@[simp] theorem State.busWrite_freeCount (s : State) (addr : Word) (v : Byte) : (s.busWrite addr v).freeCount = s.freeCount := rfl

@[simp] theorem State.busWrite_flag (s : State) (addr : Word) (v : Byte) (g : Flag) : (s.busWrite addr v).flag g = s.flag g := rfl

@[simp] theorem State.busWrite_isDevice (s : State) (addr : Word) (v : Byte) (addr' : Word) : (s.busWrite addr v).isDevice addr' = s.isDevice addr' := rfl

/-! ### push -/

@[simp] theorem State.push_a (s : State) (v : Byte) : (s.push v).a = s.a := rfl

@[simp] theorem State.push_x (s : State) (v : Byte) : (s.push v).x = s.x := rfl

@[simp] theorem State.push_y (s : State) (v : Byte) : (s.push v).y = s.y := rfl

@[simp] theorem State.push_sp (s : State) (v : Byte) : (s.push v).sp = s.sp - 1 := rfl

@[simp] theorem State.push_p (s : State) (v : Byte) : (s.push v).p = s.p := rfl

@[simp] theorem State.push_pc (s : State) (v : Byte) : (s.push v).pc = s.pc := rfl

@[simp] theorem State.push_cycles (s : State) (v : Byte) : (s.push v).cycles = s.cycles := rfl

@[simp] theorem State.push_opcode (s : State) (v : Byte) : (s.push v).opcode = s.opcode := rfl

@[simp] theorem State.push_fetched (s : State) (v : Byte) : (s.push v).fetched = s.fetched := rfl

@[simp] theorem State.push_addrAbs (s : State) (v : Byte) : (s.push v).addrAbs = s.addrAbs := rfl

@[simp] theorem State.push_addrRel (s : State) (v : Byte) : (s.push v).addrRel = s.addrRel := rfl

@[simp] theorem State.push_mem (s : State) (v : Byte) : (s.push v).mem = s.memAfterWrite (stackAddr s.sp) v := rfl

@[simp] theorem State.push_env (s : State) (v : Byte) : (s.push v).env = s.env := rfl

@[simp] theorem State.push_busLog (s : State) (v : Byte) : (s.push v).busLog = .write (stackAddr s.sp) v :: s.busLog := rfl

@[simp] theorem State.push_freeCount (s : State) (v : Byte) : (s.push v).freeCount = s.freeCount := rfl

@[simp] theorem State.push_flag (s : State) (v : Byte) (g : Flag) : (s.push v).flag g = s.flag g := rfl

@[simp] theorem State.push_isDevice (s : State) (v : Byte) (addr' : Word) : (s.push v).isDevice addr' = s.isDevice addr' := rfl

/-! ### pull -/

@[simp] theorem State.pull_a (s : State) : s.pull.2.a = s.a := rfl

@[simp] theorem State.pull_x (s : State) : s.pull.2.x = s.x := rfl

@[simp] theorem State.pull_y (s : State) : s.pull.2.y = s.y := rfl

@[simp] theorem State.pull_sp (s : State) : s.pull.2.sp = s.sp + 1 := rfl

@[simp] theorem State.pull_p (s : State) : s.pull.2.p = s.p := rfl

@[simp] theorem State.pull_pc (s : State) : s.pull.2.pc = s.pc := rfl

@[simp] theorem State.pull_cycles (s : State) : s.pull.2.cycles = s.cycles := rfl

@[simp] theorem State.pull_opcode (s : State) : s.pull.2.opcode = s.opcode := rfl

@[simp] theorem State.pull_fetched (s : State) : s.pull.2.fetched = s.fetched := rfl

@[simp] theorem State.pull_addrAbs (s : State) : s.pull.2.addrAbs = s.addrAbs := rfl

@[simp] theorem State.pull_addrRel (s : State) : s.pull.2.addrRel = s.addrRel := rfl

@[simp] theorem State.pull_mem (s : State) : s.pull.2.mem = s.mem := rfl

@[simp] theorem State.pull_env (s : State) : s.pull.2.env = s.env := rfl

@[simp] theorem State.pull_busLog (s : State) : s.pull.2.busLog = .read (stackAddr (s.sp + 1)) s.pull.1 :: s.busLog := rfl

@[simp] theorem State.pull_freeCount (s : State) : s.pull.2.freeCount = s.freeCount := rfl

@[simp] theorem State.pull_flag (s : State) (g : Flag) : s.pull.2.flag g = s.flag g := rfl

@[simp] theorem State.pull_peek (s : State) (addr' : Word) : s.pull.2.peek addr' = s.peek addr' := rfl

@[simp] theorem State.pull_isDevice (s : State) (addr' : Word) : s.pull.2.isDevice addr' = s.isDevice addr' := rfl

/-! ### pushWord -/

@[simp] theorem State.pushWord_a (s : State) (w : Word) : (s.pushWord w).a = s.a := by simp [State.pushWord]

@[simp] theorem State.pushWord_x (s : State) (w : Word) : (s.pushWord w).x = s.x := by simp [State.pushWord]

@[simp] theorem State.pushWord_y (s : State) (w : Word) : (s.pushWord w).y = s.y := by simp [State.pushWord]

@[simp] theorem State.pushWord_sp (s : State) (w : Word) : (s.pushWord w).sp = s.sp - 1 - 1 := by simp [State.pushWord]

@[simp] theorem State.pushWord_p (s : State) (w : Word) : (s.pushWord w).p = s.p := by simp [State.pushWord]

@[simp] theorem State.pushWord_pc (s : State) (w : Word) : (s.pushWord w).pc = s.pc := by simp [State.pushWord]

@[simp] theorem State.pushWord_cycles (s : State) (w : Word) : (s.pushWord w).cycles = s.cycles := by simp [State.pushWord]

@[simp] theorem State.pushWord_opcode (s : State) (w : Word) : (s.pushWord w).opcode = s.opcode := by simp [State.pushWord]

@[simp] theorem State.pushWord_fetched (s : State) (w : Word) : (s.pushWord w).fetched = s.fetched := by simp [State.pushWord]

@[simp] theorem State.pushWord_addrAbs (s : State) (w : Word) : (s.pushWord w).addrAbs = s.addrAbs := by simp [State.pushWord]

@[simp] theorem State.pushWord_addrRel (s : State) (w : Word) : (s.pushWord w).addrRel = s.addrRel := by simp [State.pushWord]

@[simp] theorem State.pushWord_env (s : State) (w : Word) : (s.pushWord w).env = s.env := by simp [State.pushWord]

@[simp] theorem State.pushWord_busLog (s : State) (w : Word) : (s.pushWord w).busLog = .write (stackAddr (s.sp - 1)) (loByte w) :: .write (stackAddr s.sp) (hiByte w) :: s.busLog := by simp [State.pushWord]

@[simp] theorem State.pushWord_freeCount (s : State) (w : Word) : (s.pushWord w).freeCount = s.freeCount := by simp [State.pushWord]

@[simp] theorem State.pushWord_flag (s : State) (w : Word) (g : Flag) : (s.pushWord w).flag g = s.flag g := by simp only [State.flag, State.pushWord_p]

@[simp] theorem State.pushWord_isDevice (s : State) (w : Word) (addr' : Word) : (s.pushWord w).isDevice addr' = s.isDevice addr' := State.isDevice_congr (by simp) addr'

/-! ### pullWord -/

@[simp] theorem State.pullWord_a (s : State) : s.pullWord.2.a = s.a := by simp [State.pullWord]

@[simp] theorem State.pullWord_x (s : State) : s.pullWord.2.x = s.x := by simp [State.pullWord]

@[simp] theorem State.pullWord_y (s : State) : s.pullWord.2.y = s.y := by simp [State.pullWord]

@[simp] theorem State.pullWord_sp (s : State) : s.pullWord.2.sp = s.sp + 1 + 1 := by simp [State.pullWord]

@[simp] theorem State.pullWord_p (s : State) : s.pullWord.2.p = s.p := by simp [State.pullWord]

@[simp] theorem State.pullWord_pc (s : State) : s.pullWord.2.pc = s.pc := by simp [State.pullWord]

@[simp] theorem State.pullWord_cycles (s : State) : s.pullWord.2.cycles = s.cycles := by simp [State.pullWord]

@[simp] theorem State.pullWord_opcode (s : State) : s.pullWord.2.opcode = s.opcode := by simp [State.pullWord]

@[simp] theorem State.pullWord_fetched (s : State) : s.pullWord.2.fetched = s.fetched := by simp [State.pullWord]

@[simp] theorem State.pullWord_addrAbs (s : State) : s.pullWord.2.addrAbs = s.addrAbs := by simp [State.pullWord]

@[simp] theorem State.pullWord_addrRel (s : State) : s.pullWord.2.addrRel = s.addrRel := by simp [State.pullWord]

@[simp] theorem State.pullWord_mem (s : State) : s.pullWord.2.mem = s.mem := by simp [State.pullWord]

@[simp] theorem State.pullWord_env (s : State) : s.pullWord.2.env = s.env := by simp [State.pullWord]

@[simp] theorem State.pullWord_freeCount (s : State) : s.pullWord.2.freeCount = s.freeCount := by simp [State.pullWord]

@[simp] theorem State.pullWord_flag (s : State) (g : Flag) : s.pullWord.2.flag g = s.flag g := by simp only [State.flag, State.pullWord_p]

@[simp] theorem State.pullWord_peek (s : State) (addr' : Word) : s.pullWord.2.peek addr' = s.peek addr' := by simp only [State.peek, State.pullWord_mem]

@[simp] theorem State.pullWord_isDevice (s : State) (addr' : Word) : s.pullWord.2.isDevice addr' = s.isDevice addr' := State.isDevice_congr (by simp) addr'

/-! ### enterBreak -/

@[simp] theorem State.enterBreak_a (s : State) : s.enterBreak.a = s.a := by simp [State.enterBreak]

@[simp] theorem State.enterBreak_x (s : State) : s.enterBreak.x = s.x := by simp [State.enterBreak]

@[simp] theorem State.enterBreak_y (s : State) : s.enterBreak.y = s.y := by simp [State.enterBreak]

@[simp] theorem State.enterBreak_sp (s : State) : s.enterBreak.sp = s.sp - 1 - 1 - 1 := by simp [State.enterBreak]

@[simp] theorem State.enterBreak_p (s : State) : s.enterBreak.p = putFlag s.p .i true := by simp [State.enterBreak]

@[simp] theorem State.enterBreak_cycles (s : State) : s.enterBreak.cycles = s.cycles := by simp [State.enterBreak]

@[simp] theorem State.enterBreak_opcode (s : State) : s.enterBreak.opcode = s.opcode := by simp [State.enterBreak]

@[simp] theorem State.enterBreak_fetched (s : State) : s.enterBreak.fetched = s.fetched := by simp [State.enterBreak]

@[simp] theorem State.enterBreak_addrAbs (s : State) : s.enterBreak.addrAbs = s.addrAbs := by simp [State.enterBreak]

@[simp] theorem State.enterBreak_addrRel (s : State) : s.enterBreak.addrRel = s.addrRel := by simp [State.enterBreak]

@[simp] theorem State.enterBreak_env (s : State) : s.enterBreak.env = s.env := by simp [State.enterBreak]

@[simp] theorem State.enterBreak_freeCount (s : State) : s.enterBreak.freeCount = s.freeCount := by simp [State.enterBreak]

@[simp] theorem State.enterBreak_isDevice (s : State) (addr' : Word) : s.enterBreak.isDevice addr' = s.isDevice addr' := State.isDevice_congr (by simp) addr'

/-! ### returnFromBreak -/

@[simp] theorem State.returnFromBreak_a (s : State) : s.returnFromBreak.a = s.a := by simp [State.returnFromBreak]

@[simp] theorem State.returnFromBreak_x (s : State) : s.returnFromBreak.x = s.x := by simp [State.returnFromBreak]

@[simp] theorem State.returnFromBreak_y (s : State) : s.returnFromBreak.y = s.y := by simp [State.returnFromBreak]

@[simp] theorem State.returnFromBreak_sp (s : State) : s.returnFromBreak.sp = s.sp + 1 + 1 + 1 := by simp [State.returnFromBreak]

@[simp] theorem State.returnFromBreak_p (s : State) : s.returnFromBreak.p = pulledStatus s.pull.1 := by simp [State.returnFromBreak]

@[simp] theorem State.returnFromBreak_cycles (s : State) : s.returnFromBreak.cycles = s.cycles := by simp [State.returnFromBreak]

@[simp] theorem State.returnFromBreak_opcode (s : State) : s.returnFromBreak.opcode = s.opcode := by simp [State.returnFromBreak]

@[simp] theorem State.returnFromBreak_fetched (s : State) : s.returnFromBreak.fetched = s.fetched := by simp [State.returnFromBreak]

@[simp] theorem State.returnFromBreak_addrAbs (s : State) : s.returnFromBreak.addrAbs = s.addrAbs := by simp [State.returnFromBreak]

@[simp] theorem State.returnFromBreak_addrRel (s : State) : s.returnFromBreak.addrRel = s.addrRel := by simp [State.returnFromBreak]

@[simp] theorem State.returnFromBreak_mem (s : State) : s.returnFromBreak.mem = s.mem := by simp [State.returnFromBreak]

@[simp] theorem State.returnFromBreak_env (s : State) : s.returnFromBreak.env = s.env := by simp [State.returnFromBreak]

@[simp] theorem State.returnFromBreak_freeCount (s : State) : s.returnFromBreak.freeCount = s.freeCount := by simp [State.returnFromBreak]

@[simp] theorem State.returnFromBreak_peek (s : State) (addr' : Word) : s.returnFromBreak.peek addr' = s.peek addr' := by simp only [State.peek, State.returnFromBreak_mem]

@[simp] theorem State.returnFromBreak_isDevice (s : State) (addr' : Word) : s.returnFromBreak.isDevice addr' = s.isDevice addr' := State.isDevice_congr (by simp) addr'

/-! ### resolve -/

@[simp] theorem resolve_a (s : State) (o : Operand) : (resolve o s).2.a = s.a := by cases o <;> rfl

@[simp] theorem resolve_x (s : State) (o : Operand) : (resolve o s).2.x = s.x := by cases o <;> rfl

@[simp] theorem resolve_y (s : State) (o : Operand) : (resolve o s).2.y = s.y := by cases o <;> rfl

@[simp] theorem resolve_sp (s : State) (o : Operand) : (resolve o s).2.sp = s.sp := by cases o <;> rfl

@[simp] theorem resolve_p (s : State) (o : Operand) : (resolve o s).2.p = s.p := by cases o <;> rfl

@[simp] theorem resolve_pc (s : State) (o : Operand) : (resolve o s).2.pc = s.pc := by cases o <;> rfl

@[simp] theorem resolve_cycles (s : State) (o : Operand) : (resolve o s).2.cycles = s.cycles := by cases o <;> rfl

@[simp] theorem resolve_opcode (s : State) (o : Operand) : (resolve o s).2.opcode = s.opcode := by cases o <;> rfl

@[simp] theorem resolve_mem (s : State) (o : Operand) : (resolve o s).2.mem = s.mem := by cases o <;> rfl

@[simp] theorem resolve_env (s : State) (o : Operand) : (resolve o s).2.env = s.env := by cases o <;> rfl

@[simp] theorem resolve_freeCount (s : State) (o : Operand) : (resolve o s).2.freeCount = s.freeCount := by cases o <;> rfl

@[simp] theorem resolve_flag (s : State) (o : Operand) (g : Flag) : (resolve o s).2.flag g = s.flag g := by simp only [State.flag, resolve_p]

@[simp] theorem resolve_peek (s : State) (o : Operand) (addr' : Word) : (resolve o s).2.peek addr' = s.peek addr' := by simp only [State.peek, resolve_mem]

@[simp] theorem resolve_isDevice (s : State) (o : Operand) (addr' : Word) : (resolve o s).2.isDevice addr' = s.isDevice addr' := State.isDevice_congr (by simp) addr'

/-! ### fetchOperand -/

@[simp] theorem fetchOperand_a (s : State) (o : Operand) : (fetchOperand o s).a = s.a := by cases o <;> rfl

@[simp] theorem fetchOperand_x (s : State) (o : Operand) : (fetchOperand o s).x = s.x := by cases o <;> rfl

@[simp] theorem fetchOperand_y (s : State) (o : Operand) : (fetchOperand o s).y = s.y := by cases o <;> rfl

@[simp] theorem fetchOperand_sp (s : State) (o : Operand) : (fetchOperand o s).sp = s.sp := by cases o <;> rfl

@[simp] theorem fetchOperand_p (s : State) (o : Operand) : (fetchOperand o s).p = s.p := by cases o <;> rfl

@[simp] theorem fetchOperand_pc (s : State) (o : Operand) : (fetchOperand o s).pc = s.pc := by cases o <;> rfl

@[simp] theorem fetchOperand_cycles (s : State) (o : Operand) : (fetchOperand o s).cycles = s.cycles := by cases o <;> rfl

@[simp] theorem fetchOperand_opcode (s : State) (o : Operand) : (fetchOperand o s).opcode = s.opcode := by cases o <;> rfl

@[simp] theorem fetchOperand_fetched (s : State) (o : Operand) : (fetchOperand o s).fetched = operandValue o s := by cases o <;> rfl

@[simp] theorem fetchOperand_addrAbs (s : State) (o : Operand) : (fetchOperand o s).addrAbs = s.addrAbs := by cases o <;> rfl

@[simp] theorem fetchOperand_addrRel (s : State) (o : Operand) : (fetchOperand o s).addrRel = s.addrRel := by cases o <;> rfl

@[simp] theorem fetchOperand_mem (s : State) (o : Operand) : (fetchOperand o s).mem = s.mem := by cases o <;> rfl

@[simp] theorem fetchOperand_env (s : State) (o : Operand) : (fetchOperand o s).env = s.env := by cases o <;> rfl

@[simp] theorem fetchOperand_freeCount (s : State) (o : Operand) : (fetchOperand o s).freeCount = s.freeCount := by cases o <;> rfl

@[simp] theorem fetchOperand_flag (s : State) (o : Operand) (g : Flag) : (fetchOperand o s).flag g = s.flag g := by simp only [State.flag, fetchOperand_p]

@[simp] theorem fetchOperand_peek (s : State) (o : Operand) (addr' : Word) : (fetchOperand o s).peek addr' = s.peek addr' := by simp only [State.peek, fetchOperand_mem]

@[simp] theorem fetchOperand_isDevice (s : State) (o : Operand) (addr' : Word) : (fetchOperand o s).isDevice addr' = s.isDevice addr' := State.isDevice_congr (by simp) addr'

/-! ### writeBack -/

@[simp] theorem writeBack_x (s : State) (o : Operand) (v : Byte) : (writeBack o v s).x = s.x := by cases o <;> rfl

@[simp] theorem writeBack_y (s : State) (o : Operand) (v : Byte) : (writeBack o v s).y = s.y := by cases o <;> rfl

@[simp] theorem writeBack_sp (s : State) (o : Operand) (v : Byte) : (writeBack o v s).sp = s.sp := by cases o <;> rfl

@[simp] theorem writeBack_p (s : State) (o : Operand) (v : Byte) : (writeBack o v s).p = s.p := by cases o <;> rfl

@[simp] theorem writeBack_pc (s : State) (o : Operand) (v : Byte) : (writeBack o v s).pc = s.pc := by cases o <;> rfl

@[simp] theorem writeBack_cycles (s : State) (o : Operand) (v : Byte) : (writeBack o v s).cycles = s.cycles := by cases o <;> rfl

@[simp] theorem writeBack_opcode (s : State) (o : Operand) (v : Byte) : (writeBack o v s).opcode = s.opcode := by cases o <;> rfl

@[simp] theorem writeBack_fetched (s : State) (o : Operand) (v : Byte) : (writeBack o v s).fetched = s.fetched := by cases o <;> rfl

@[simp] theorem writeBack_addrAbs (s : State) (o : Operand) (v : Byte) : (writeBack o v s).addrAbs = s.addrAbs := by cases o <;> rfl

@[simp] theorem writeBack_addrRel (s : State) (o : Operand) (v : Byte) : (writeBack o v s).addrRel = s.addrRel := by cases o <;> rfl

@[simp] theorem writeBack_env (s : State) (o : Operand) (v : Byte) : (writeBack o v s).env = s.env := by cases o <;> rfl

@[simp] theorem writeBack_freeCount (s : State) (o : Operand) (v : Byte) : (writeBack o v s).freeCount = s.freeCount := by cases o <;> rfl

@[simp] theorem writeBack_flag (s : State) (o : Operand) (v : Byte) (g : Flag) : (writeBack o v s).flag g = s.flag g := by simp only [State.flag, writeBack_p]

@[simp] theorem writeBack_isDevice (s : State) (o : Operand) (v : Byte) (addr' : Word) : (writeBack o v s).isDevice addr' = s.isDevice addr' := State.isDevice_congr (by simp) addr'

/-! ### finishShift -/

@[simp] theorem finishShift_x (s : State) (o : Operand) (c : Bool) (r : Byte) : (finishShift o c r s).x = s.x := by cases o <;> rfl

@[simp] theorem finishShift_y (s : State) (o : Operand) (c : Bool) (r : Byte) : (finishShift o c r s).y = s.y := by cases o <;> rfl

@[simp] theorem finishShift_sp (s : State) (o : Operand) (c : Bool) (r : Byte) : (finishShift o c r s).sp = s.sp := by cases o <;> rfl

@[simp] theorem finishShift_pc (s : State) (o : Operand) (c : Bool) (r : Byte) : (finishShift o c r s).pc = s.pc := by cases o <;> rfl

@[simp] theorem finishShift_cycles (s : State) (o : Operand) (c : Bool) (r : Byte) : (finishShift o c r s).cycles = s.cycles := by cases o <;> rfl

@[simp] theorem finishShift_opcode (s : State) (o : Operand) (c : Bool) (r : Byte) : (finishShift o c r s).opcode = s.opcode := by cases o <;> rfl

@[simp] theorem finishShift_fetched (s : State) (o : Operand) (c : Bool) (r : Byte) : (finishShift o c r s).fetched = s.fetched := by cases o <;> rfl

@[simp] theorem finishShift_addrAbs (s : State) (o : Operand) (c : Bool) (r : Byte) : (finishShift o c r s).addrAbs = s.addrAbs := by cases o <;> rfl

@[simp] theorem finishShift_addrRel (s : State) (o : Operand) (c : Bool) (r : Byte) : (finishShift o c r s).addrRel = s.addrRel := by cases o <;> rfl

@[simp] theorem finishShift_env (s : State) (o : Operand) (c : Bool) (r : Byte) : (finishShift o c r s).env = s.env := by cases o <;> rfl

@[simp] theorem finishShift_freeCount (s : State) (o : Operand) (c : Bool) (r : Byte) : (finishShift o c r s).freeCount = s.freeCount := by cases o <;> rfl

@[simp] theorem finishShift_isDevice (s : State) (o : Operand) (c : Bool) (r : Byte) (addr' : Word) : (finishShift o c r s).isDevice addr' = s.isDevice addr' := State.isDevice_congr (by simp) addr'

/-! ### branch -/

@[simp] theorem State.branch_a (s : State) (c : Bool) : (s.branch c).a = s.a := rfl

@[simp] theorem State.branch_x (s : State) (c : Bool) : (s.branch c).x = s.x := rfl

@[simp] theorem State.branch_y (s : State) (c : Bool) : (s.branch c).y = s.y := rfl

@[simp] theorem State.branch_sp (s : State) (c : Bool) : (s.branch c).sp = s.sp := rfl

@[simp] theorem State.branch_p (s : State) (c : Bool) : (s.branch c).p = s.p := rfl

@[simp] theorem State.branch_pc (s : State) (c : Bool) : (s.branch c).pc = if c then s.pc + s.addrRel else s.pc := rfl

@[simp] theorem State.branch_opcode (s : State) (c : Bool) : (s.branch c).opcode = s.opcode := rfl

@[simp] theorem State.branch_fetched (s : State) (c : Bool) : (s.branch c).fetched = s.fetched := rfl

@[simp] theorem State.branch_addrAbs (s : State) (c : Bool) : (s.branch c).addrAbs = s.addrAbs := rfl

@[simp] theorem State.branch_addrRel (s : State) (c : Bool) : (s.branch c).addrRel = s.addrRel := rfl

@[simp] theorem State.branch_mem (s : State) (c : Bool) : (s.branch c).mem = s.mem := rfl

@[simp] theorem State.branch_env (s : State) (c : Bool) : (s.branch c).env = s.env := rfl

@[simp] theorem State.branch_busLog (s : State) (c : Bool) : (s.branch c).busLog = s.busLog := rfl

@[simp] theorem State.branch_freeCount (s : State) (c : Bool) : (s.branch c).freeCount = s.freeCount := rfl

@[simp] theorem State.branch_flag (s : State) (c : Bool) (g : Flag) : (s.branch c).flag g = s.flag g := rfl

@[simp] theorem State.branch_peek (s : State) (c : Bool) (addr' : Word) : (s.branch c).peek addr' = s.peek addr' := rfl

@[simp] theorem State.branch_isDevice (s : State) (c : Bool) (addr' : Word) : (s.branch c).isDevice addr' = s.isDevice addr' := rfl

/-! ### fetchOpcode -/

@[simp] theorem State.fetchOpcode_a (s : State) : s.fetchOpcode.a = s.a := rfl

@[simp] theorem State.fetchOpcode_x (s : State) : s.fetchOpcode.x = s.x := rfl

@[simp] theorem State.fetchOpcode_y (s : State) : s.fetchOpcode.y = s.y := rfl

@[simp] theorem State.fetchOpcode_sp (s : State) : s.fetchOpcode.sp = s.sp := rfl

@[simp] theorem State.fetchOpcode_p (s : State) : s.fetchOpcode.p = s.p := rfl

@[simp] theorem State.fetchOpcode_pc (s : State) : s.fetchOpcode.pc = s.pc + 1 := rfl

@[simp] theorem State.fetchOpcode_cycles (s : State) : s.fetchOpcode.cycles = s.env.baseCycles (s.busAnswer s.pc) := rfl

@[simp] theorem State.fetchOpcode_opcode (s : State) : s.fetchOpcode.opcode = s.busAnswer s.pc := rfl

@[simp] theorem State.fetchOpcode_fetched (s : State) : s.fetchOpcode.fetched = s.fetched := rfl

@[simp] theorem State.fetchOpcode_addrAbs (s : State) : s.fetchOpcode.addrAbs = s.addrAbs := rfl

@[simp] theorem State.fetchOpcode_addrRel (s : State) : s.fetchOpcode.addrRel = s.addrRel := rfl

@[simp] theorem State.fetchOpcode_mem (s : State) : s.fetchOpcode.mem = s.mem := rfl

@[simp] theorem State.fetchOpcode_env (s : State) : s.fetchOpcode.env = s.env := rfl

@[simp] theorem State.fetchOpcode_busLog (s : State) : s.fetchOpcode.busLog = .read s.pc (s.busAnswer s.pc) :: s.busLog := rfl

@[simp] theorem State.fetchOpcode_freeCount (s : State) : s.fetchOpcode.freeCount = s.freeCount := rfl

@[simp] theorem State.fetchOpcode_flag (s : State) (g : Flag) : s.fetchOpcode.flag g = s.flag g := rfl

@[simp] theorem State.fetchOpcode_peek (s : State) (addr' : Word) : s.fetchOpcode.peek addr' = s.peek addr' := rfl

@[simp] theorem State.fetchOpcode_isDevice (s : State) (addr' : Word) : s.fetchOpcode.isDevice addr' = s.isDevice addr' := rfl

/-! ### fetchByte -/

@[simp] theorem State.fetchByte_a (s : State) : s.fetchByte.2.a = s.a := rfl

@[simp] theorem State.fetchByte_x (s : State) : s.fetchByte.2.x = s.x := rfl

@[simp] theorem State.fetchByte_y (s : State) : s.fetchByte.2.y = s.y := rfl

@[simp] theorem State.fetchByte_sp (s : State) : s.fetchByte.2.sp = s.sp := rfl

@[simp] theorem State.fetchByte_p (s : State) : s.fetchByte.2.p = s.p := rfl

@[simp] theorem State.fetchByte_pc (s : State) : s.fetchByte.2.pc = s.pc + 1 := rfl

@[simp] theorem State.fetchByte_cycles (s : State) : s.fetchByte.2.cycles = s.cycles := rfl

@[simp] theorem State.fetchByte_opcode (s : State) : s.fetchByte.2.opcode = s.opcode := rfl

@[simp] theorem State.fetchByte_fetched (s : State) : s.fetchByte.2.fetched = s.fetched := rfl

@[simp] theorem State.fetchByte_addrAbs (s : State) : s.fetchByte.2.addrAbs = s.addrAbs := rfl

@[simp] theorem State.fetchByte_addrRel (s : State) : s.fetchByte.2.addrRel = s.addrRel := rfl

@[simp] theorem State.fetchByte_mem (s : State) : s.fetchByte.2.mem = s.mem := rfl

@[simp] theorem State.fetchByte_env (s : State) : s.fetchByte.2.env = s.env := rfl

@[simp] theorem State.fetchByte_busLog (s : State) : s.fetchByte.2.busLog = .read s.pc (s.busAnswer s.pc) :: s.busLog := rfl

@[simp] theorem State.fetchByte_freeCount (s : State) : s.fetchByte.2.freeCount = s.freeCount := rfl

@[simp] theorem State.fetchByte_flag (s : State) (g : Flag) : s.fetchByte.2.flag g = s.flag g := rfl

@[simp] theorem State.fetchByte_peek (s : State) (addr' : Word) : s.fetchByte.2.peek addr' = s.peek addr' := rfl

@[simp] theorem State.fetchByte_isDevice (s : State) (addr' : Word) : s.fetchByte.2.isDevice addr' = s.isDevice addr' := rfl

/-! ### fetchInstr -/

@[simp] theorem State.fetchInstr_a (s : State) : s.fetchInstr.2.a = s.a := by unfold State.fetchInstr; dsimp only; split <;> rfl

@[simp] theorem State.fetchInstr_x (s : State) : s.fetchInstr.2.x = s.x := by unfold State.fetchInstr; dsimp only; split <;> rfl

@[simp] theorem State.fetchInstr_y (s : State) : s.fetchInstr.2.y = s.y := by unfold State.fetchInstr; dsimp only; split <;> rfl

@[simp] theorem State.fetchInstr_sp (s : State) : s.fetchInstr.2.sp = s.sp := by unfold State.fetchInstr; dsimp only; split <;> rfl

@[simp] theorem State.fetchInstr_p (s : State) : s.fetchInstr.2.p = s.p := by unfold State.fetchInstr; dsimp only; split <;> rfl

@[simp] theorem State.fetchInstr_cycles (s : State) : s.fetchInstr.2.cycles = s.env.baseCycles (s.busAnswer s.pc) := by unfold State.fetchInstr; dsimp only; split <;> rfl

@[simp] theorem State.fetchInstr_opcode (s : State) : s.fetchInstr.2.opcode = s.busAnswer s.pc := by unfold State.fetchInstr; dsimp only; split <;> rfl

@[simp] theorem State.fetchInstr_fetched (s : State) : s.fetchInstr.2.fetched = s.fetched := by unfold State.fetchInstr; dsimp only; split <;> rfl

@[simp] theorem State.fetchInstr_addrAbs (s : State) : s.fetchInstr.2.addrAbs = s.addrAbs := by unfold State.fetchInstr; dsimp only; split <;> rfl

@[simp] theorem State.fetchInstr_addrRel (s : State) : s.fetchInstr.2.addrRel = s.addrRel := by unfold State.fetchInstr; dsimp only; split <;> rfl

@[simp] theorem State.fetchInstr_mem (s : State) : s.fetchInstr.2.mem = s.mem := by unfold State.fetchInstr; dsimp only; split <;> rfl

@[simp] theorem State.fetchInstr_env (s : State) : s.fetchInstr.2.env = s.env := by unfold State.fetchInstr; dsimp only; split <;> rfl

@[simp] theorem State.fetchInstr_freeCount (s : State) : s.fetchInstr.2.freeCount = s.freeCount := by unfold State.fetchInstr; dsimp only; split <;> rfl

@[simp] theorem State.fetchInstr_flag (s : State) (g : Flag) : s.fetchInstr.2.flag g = s.flag g := by simp only [State.flag, State.fetchInstr_p]

@[simp] theorem State.fetchInstr_peek (s : State) (addr' : Word) : s.fetchInstr.2.peek addr' = s.peek addr' := by simp only [State.peek, State.fetchInstr_mem]

@[simp] theorem State.fetchInstr_isDevice (s : State) (addr' : Word) : s.fetchInstr.2.isDevice addr' = s.isDevice addr' := State.isDevice_congr (by simp) addr'

/-! ### closeOperands -/

@[simp] theorem State.closeOperands_a (s : State) : s.closeOperands.a = s.a := rfl

@[simp] theorem State.closeOperands_x (s : State) : s.closeOperands.x = s.x := rfl

@[simp] theorem State.closeOperands_y (s : State) : s.closeOperands.y = s.y := rfl

@[simp] theorem State.closeOperands_sp (s : State) : s.closeOperands.sp = s.sp := rfl

@[simp] theorem State.closeOperands_p (s : State) : s.closeOperands.p = s.p := rfl

@[simp] theorem State.closeOperands_pc (s : State) : s.closeOperands.pc = s.pc := rfl

@[simp] theorem State.closeOperands_cycles (s : State) : s.closeOperands.cycles = s.cycles := rfl

@[simp] theorem State.closeOperands_opcode (s : State) : s.closeOperands.opcode = s.opcode := rfl

@[simp] theorem State.closeOperands_fetched (s : State) : s.closeOperands.fetched = Config.looseFetched s.freeCount := rfl

@[simp] theorem State.closeOperands_addrAbs (s : State) : s.closeOperands.addrAbs = Config.looseAddrAbs s.freeCount := rfl

@[simp] theorem State.closeOperands_addrRel (s : State) : s.closeOperands.addrRel = Config.looseAddrRel s.freeCount := rfl

@[simp] theorem State.closeOperands_mem (s : State) : s.closeOperands.mem = s.mem := rfl

@[simp] theorem State.closeOperands_env (s : State) : s.closeOperands.env = s.env := rfl

@[simp] theorem State.closeOperands_busLog (s : State) : s.closeOperands.busLog = s.busLog := rfl

@[simp] theorem State.closeOperands_freeCount (s : State) : s.closeOperands.freeCount = s.freeCount + 1 := rfl

@[simp] theorem State.closeOperands_flag (s : State) (g : Flag) : s.closeOperands.flag g = s.flag g := rfl

@[simp] theorem State.closeOperands_peek (s : State) (addr' : Word) : s.closeOperands.peek addr' = s.peek addr' := rfl

@[simp] theorem State.closeOperands_isDevice (s : State) (addr' : Word) : s.closeOperands.isDevice addr' = s.isDevice addr' := rfl

/-! ### endPulse -/

@[simp] theorem State.endPulse_a (s : State) : s.endPulse.a = s.a := rfl

@[simp] theorem State.endPulse_x (s : State) : s.endPulse.x = s.x := rfl

@[simp] theorem State.endPulse_y (s : State) : s.endPulse.y = s.y := rfl

@[simp] theorem State.endPulse_sp (s : State) : s.endPulse.sp = s.sp := rfl

@[simp] theorem State.endPulse_p (s : State) : s.endPulse.p = s.p := rfl

@[simp] theorem State.endPulse_pc (s : State) : s.endPulse.pc = s.pc := rfl

@[simp] theorem State.endPulse_cycles (s : State) : s.endPulse.cycles = s.cycles - 1 := rfl

@[simp] theorem State.endPulse_fetched (s : State) : s.endPulse.fetched = s.fetched := rfl

@[simp] theorem State.endPulse_addrAbs (s : State) : s.endPulse.addrAbs = s.addrAbs := rfl

@[simp] theorem State.endPulse_addrRel (s : State) : s.endPulse.addrRel = s.addrRel := rfl

@[simp] theorem State.endPulse_mem (s : State) : s.endPulse.mem = s.mem := rfl

@[simp] theorem State.endPulse_env (s : State) : s.endPulse.env = s.env := rfl

@[simp] theorem State.endPulse_busLog (s : State) : s.endPulse.busLog = s.busLog := rfl

@[simp] theorem State.endPulse_flag (s : State) (g : Flag) : s.endPulse.flag g = s.flag g := rfl

@[simp] theorem State.endPulse_peek (s : State) (addr' : Word) : s.endPulse.peek addr' = s.peek addr' := rfl

@[simp] theorem State.endPulse_isDevice (s : State) (addr' : Word) : s.endPulse.isDevice addr' = s.isDevice addr' := rfl

/-! ### hostPoke -/

@[simp] theorem State.hostPoke_a (s : State) (addr : Word) (v : Byte) : (s.hostPoke addr v).a = s.a := rfl

@[simp] theorem State.hostPoke_x (s : State) (addr : Word) (v : Byte) : (s.hostPoke addr v).x = s.x := rfl

@[simp] theorem State.hostPoke_y (s : State) (addr : Word) (v : Byte) : (s.hostPoke addr v).y = s.y := rfl

@[simp] theorem State.hostPoke_sp (s : State) (addr : Word) (v : Byte) : (s.hostPoke addr v).sp = s.sp := rfl

@[simp] theorem State.hostPoke_p (s : State) (addr : Word) (v : Byte) : (s.hostPoke addr v).p = s.p := rfl

@[simp] theorem State.hostPoke_pc (s : State) (addr : Word) (v : Byte) : (s.hostPoke addr v).pc = s.pc := rfl

@[simp] theorem State.hostPoke_cycles (s : State) (addr : Word) (v : Byte) : (s.hostPoke addr v).cycles = s.cycles := rfl

@[simp] theorem State.hostPoke_opcode (s : State) (addr : Word) (v : Byte) : (s.hostPoke addr v).opcode = s.opcode := rfl

@[simp] theorem State.hostPoke_fetched (s : State) (addr : Word) (v : Byte) : (s.hostPoke addr v).fetched = s.fetched := rfl

@[simp] theorem State.hostPoke_addrAbs (s : State) (addr : Word) (v : Byte) : (s.hostPoke addr v).addrAbs = s.addrAbs := rfl

@[simp] theorem State.hostPoke_addrRel (s : State) (addr : Word) (v : Byte) : (s.hostPoke addr v).addrRel = s.addrRel := rfl

@[simp] theorem State.hostPoke_mem (s : State) (addr : Word) (v : Byte) : (s.hostPoke addr v).mem = s.mem.write addr.toNat v := rfl

@[simp] theorem State.hostPoke_env (s : State) (addr : Word) (v : Byte) : (s.hostPoke addr v).env = s.env := rfl

@[simp] theorem State.hostPoke_busLog (s : State) (addr : Word) (v : Byte) : (s.hostPoke addr v).busLog = s.busLog := rfl

@[simp] theorem State.hostPoke_freeCount (s : State) (addr : Word) (v : Byte) : (s.hostPoke addr v).freeCount = s.freeCount := rfl

@[simp] theorem State.hostPoke_flag (s : State) (addr : Word) (v : Byte) (g : Flag) : (s.hostPoke addr v).flag g = s.flag g := rfl

@[simp] theorem State.hostPoke_isDevice (s : State) (addr : Word) (v : Byte) (addr' : Word) : (s.hostPoke addr v).isDevice addr' = s.isDevice addr' := rfl

/-! ### hostReset -/

@[simp] theorem hostReset_a (s : State) (r : ResetRegs) : (hostReset r s).a = r.a := rfl

@[simp] theorem hostReset_x (s : State) (r : ResetRegs) : (hostReset r s).x = r.x := rfl

@[simp] theorem hostReset_y (s : State) (r : ResetRegs) : (hostReset r s).y = r.y := rfl

@[simp] theorem hostReset_sp (s : State) (r : ResetRegs) : (hostReset r s).sp = r.sp := rfl

@[simp] theorem hostReset_p (s : State) (r : ResetRegs) : (hostReset r s).p = r.p := rfl

@[simp] theorem hostReset_pc (s : State) (r : ResetRegs) : (hostReset r s).pc = r.pc := rfl

@[simp] theorem hostReset_cycles (s : State) (r : ResetRegs) : (hostReset r s).cycles = 0 := rfl

@[simp] theorem hostReset_mem (s : State) (r : ResetRegs) : (hostReset r s).mem = s.mem := rfl

@[simp] theorem hostReset_env (s : State) (r : ResetRegs) : (hostReset r s).env = s.env := rfl

@[simp] theorem hostReset_busLog (s : State) (r : ResetRegs) : (hostReset r s).busLog = s.busLog := rfl

@[simp] theorem hostReset_freeCount (s : State) (r : ResetRegs) : (hostReset r s).freeCount = s.freeCount + 1 := rfl

@[simp] theorem hostReset_peek (s : State) (r : ResetRegs) (addr' : Word) : (hostReset r s).peek addr' = s.peek addr' := rfl

@[simp] theorem hostReset_isDevice (s : State) (r : ResetRegs) (addr' : Word) : (hostReset r s).isDevice addr' = s.isDevice addr' := rfl

/-! ### BRK's entry and RTI's return -/

/-- The flags after BRK's entry: I is set, the others stay (R203). -/
@[simp] theorem State.flag_enterBreak (s : State) (f : Flag) :
    s.enterBreak.flag f = if f = .i then true else s.flag f :=
  by simp [State.flag]

end Sys2Proof.Machine
end

