-- ==== Sys2Proof/Laws/Operations.lean ====
section
/-! SUPPORT. What the shared operations do: bus, stack, BRK's entry and RTI's return, resolver, operand fetch,
write-back, and the frame every handler runs in. Later proofs cite these and do not unfold the operations. -/

namespace Sys2Proof.Machine

open Sys2Proof

/-! ### Bus writes and the stack -/

/-- A bus write keeps memory canonical. -/
theorem State.memAfterWrite_wf {s : State} (addr : Word) (v : Byte) (h : s.mem.wf = true) :
    (s.memAfterWrite addr v).wf = true := by
  unfold State.memAfterWrite
  split
  · exact h
  · exact Memory.wf_write v h addr.isLt

/-- What every address reads as after a bus write. -/
theorem State.peek_busWrite {s : State} (addr b : Word) (v : Byte) (h : s.mem.wf = true) :
    (s.busWrite addr v).peek b = if s.isDevice b then s.peek b else if b = addr then v else s.peek b := by
  simp only [State.peek, State.busWrite_mem, State.memAfterWrite]
  by_cases hb : b = addr
  · subst hb
    split
    · rfl
    · simp [Memory.read_write v b.toNat h]
  · have hn : b.toNat ≠ addr.toNat := fun e => hb (BitVec.eq_of_toNat_eq e)
    split <;> simp [Memory.read_write v b.toNat h, hb, hn]

theorem State.busWrite_wf {s : State} (addr : Word) (v : Byte) (h : s.mem.wf = true) :
    (s.busWrite addr v).mem.wf = true :=
  State.memAfterWrite_wf addr v h

/-- A bus write stores one byte (R10). -/
theorem State.stored_busWrite {s : State} (addr : Word) (v : Byte) (h : s.mem.wf = true) :
    Stored addr v s (s.busWrite addr v) := by
  constructor
  · intro a ha
    simp [State.peek_busWrite addr a v h, ha]
  · simp [State.peek_busWrite addr addr v h]

/-- `Push` is a bus write at the stack address and a decrement (R11). -/
theorem State.push_eq (s : State) (v : Byte) :
    s.push v = (s.busWrite (stackAddr s.sp) v).setReg .sp (s.sp - 1) := rfl

theorem State.push_wf {s : State} (v : Byte) (h : s.mem.wf = true) : (s.push v).mem.wf = true :=
  State.memAfterWrite_wf _ v h

theorem State.peek_push {s : State} (b : Word) (v : Byte) (h : s.mem.wf = true) :
    (s.push v).peek b =
      if s.isDevice b then s.peek b else if b = stackAddr s.sp then v else s.peek b :=
  State.peek_busWrite _ b v h

theorem State.pushWord_wf {s : State} (w : Word) (h : s.mem.wf = true) : (s.pushWord w).mem.wf = true :=
  State.push_wf _ (State.push_wf _ h)

/-- Memory after both bytes of a pushed word: the second write wins where the two fall together (they never do). -/
theorem State.peek_pushWord {s : State} (b : Word) (w : Word) (h : s.mem.wf = true) :
    (s.pushWord w).peek b = if s.isDevice b then s.peek b else
      if b = stackAddr (s.sp - 1) then loByte w else if b = stackAddr s.sp then hiByte w else s.peek b := by
  have h1 := State.push_wf (hiByte w) h
  rw [State.pushWord, State.peek_push _ _ h1, State.peek_push _ _ h]
  simp only [State.push_isDevice, State.push_sp]
  by_cases hd : s.isDevice b = true
  · simp [hd]
  · simp [hd]

/-- The pulled word and its two reads, low byte first. -/
theorem State.pullWord_fst (s : State) :
    s.pullWord.1 = mkWord ((s.afterRead (stackAddr (s.sp + 1))).busAnswer (stackAddr (s.sp + 1 + 1)))
      (s.busAnswer (stackAddr (s.sp + 1))) := rfl

theorem State.pullWord_busLog (s : State) :
    s.pullWord.2.busLog =
      .read (stackAddr (s.sp + 1 + 1)) ((s.afterRead (stackAddr (s.sp + 1))).busAnswer (stackAddr (s.sp + 1 + 1))) ::
      .read (stackAddr (s.sp + 1)) (s.busAnswer (stackAddr (s.sp + 1))) :: s.busLog := rfl

theorem State.pull_fst_eq (s : State) : s.pull.1 = s.busAnswer (stackAddr (s.sp + 1)) := rfl

/-! ### BRK's entry and RTI's return (R203, R204) -/

theorem State.enterBreak_wf {s : State} (h : s.mem.wf = true) : s.enterBreak.mem.wf = true :=
  State.push_wf _ (State.pushWord_wf _ h)

theorem State.returnFromBreak_pc (s : State) :
    s.returnFromBreak.pc =
      mkWord (((s.afterRead (stackAddr (s.sp + 1))).afterRead (stackAddr (s.sp + 1 + 1))).busAnswer
          (stackAddr (s.sp + 1 + 1 + 1)))
        ((s.afterRead (stackAddr (s.sp + 1))).busAnswer (stackAddr (s.sp + 1 + 1))) := rfl

/-! ### Stack addresses -/

theorem toNat_stackAddr (sp : Byte) : (stackAddr sp).toNat = 256 + sp.toNat := by
  have := sp.isLt
  simp only [stackAddr, zext16, BitVec.toNat_add, BitVec.toNat_setWidth]
  show (256 + sp.toNat % 65536) % 65536 = 256 + sp.toNat
  omega

@[simp] theorem stackAddr_inj {a b : Byte} : stackAddr a = stackAddr b ↔ a = b := by
  constructor
  · intro h
    have := congrArg BitVec.toNat h
    rw [toNat_stackAddr, toNat_stackAddr] at this
    exact BitVec.eq_of_toNat_eq (by omega)
  · exact congrArg stackAddr

/-! ### The resolver and the operand fetch -/

/-- Only ABX, ABY and IZY can signal an extra cycle (R94). -/
theorem resolve_signal {o : Operand} {s : State} (h : (resolve o s).1 = true) :
    o.mode = .abx ∨ o.mode = .aby ∨ o.mode = .izy := by
  cases o <;> simp [resolve, Operand.mode] at h ⊢

/-- The resolver only adds reads to the log: two in IND, IZX and IZY, none elsewhere (R123). -/
theorem resolve_busLog (o : Operand) (s : State) :
    ∃ added, (resolve o s).2.busLog = added ++ s.busLog ∧
      added.length = (if o.mode ∈ [.ind, .izx, .izy] then 2 else 0) ∧ ∀ e ∈ added, ∃ a v, e = .read a v := by
  cases o
  case ind p => exact ⟨[_, _], rfl, rfl, by simp⟩
  case izx t => exact ⟨[_, _], rfl, rfl, by simp⟩
  case izy t => exact ⟨[_, _], rfl, rfl, by simp⟩
  all_goals exact ⟨[], rfl, rfl, by simp⟩

/-- `Fetch` adds one read of `addr_abs` to the log, or none in modes IMP and IMM (R96). -/
theorem fetchOperand_busLog (o : Operand) (s : State) :
    (fetchOperand o s).busLog =
      (if o.mode ∈ [.imp, .imm] then [] else [.read s.addrAbs (operandValue o s)]) ++ s.busLog := by
  cases o <;> rfl

/-- What `Fetch` answers does not depend on the scratch the resolver did not write. -/
theorem operandValue_imp (s : State) : operandValue .imp s = s.a := rfl

theorem operandValue_imm (b : Byte) (s : State) : operandValue (.imm b) s = b := rfl

/-- Write-back to A (R180). -/
theorem writeBack_imp (v : Byte) (s : State) : writeBack .imp v s = s.setReg .a v := rfl

/-- Write-back to memory (R180). -/
theorem writeBack_memory {o : Operand} (h : o ≠ .imp) (v : Byte) (s : State) :
    writeBack o v s = s.busWrite s.addrAbs v := by
  cases o <;> first | rfl | exact absurd rfl h

theorem writeBack_wf {o : Operand} {v : Byte} {s : State} (h : s.mem.wf = true) : (writeBack o v s).mem.wf = true := by
  cases o
  case imp => exact h
  all_goals exact State.busWrite_wf _ _ h

/-! ### The frame every handler runs in (R90, R92, R94) -/

theorem runHandler_cycles (o : Operand) (e : Bool) (h : State → State) (s : State) :
    (runHandler o e h s).cycles = (h (resolve o s).2).cycles + ((resolve o s).1 && e).toNat := rfl

@[simp] theorem runHandler_a (o : Operand) (e : Bool) (h : State → State) (s : State) :
    (runHandler o e h s).a = (h (resolve o s).2).a := rfl

@[simp] theorem runHandler_x (o : Operand) (e : Bool) (h : State → State) (s : State) :
    (runHandler o e h s).x = (h (resolve o s).2).x := rfl

@[simp] theorem runHandler_y (o : Operand) (e : Bool) (h : State → State) (s : State) :
    (runHandler o e h s).y = (h (resolve o s).2).y := rfl

@[simp] theorem runHandler_sp (o : Operand) (e : Bool) (h : State → State) (s : State) :
    (runHandler o e h s).sp = (h (resolve o s).2).sp := rfl

@[simp] theorem runHandler_p (o : Operand) (e : Bool) (h : State → State) (s : State) :
    (runHandler o e h s).p = (h (resolve o s).2).p := rfl

@[simp] theorem runHandler_pc (o : Operand) (e : Bool) (h : State → State) (s : State) :
    (runHandler o e h s).pc = (h (resolve o s).2).pc := rfl

@[simp] theorem runHandler_opcode (o : Operand) (e : Bool) (h : State → State) (s : State) :
    (runHandler o e h s).opcode = (h (resolve o s).2).opcode := rfl

@[simp] theorem runHandler_fetched (o : Operand) (e : Bool) (h : State → State) (s : State) :
    (runHandler o e h s).fetched = (h (resolve o s).2).fetched := rfl

@[simp] theorem runHandler_addrAbs (o : Operand) (e : Bool) (h : State → State) (s : State) :
    (runHandler o e h s).addrAbs = (h (resolve o s).2).addrAbs := rfl

@[simp] theorem runHandler_addrRel (o : Operand) (e : Bool) (h : State → State) (s : State) :
    (runHandler o e h s).addrRel = (h (resolve o s).2).addrRel := rfl

@[simp] theorem runHandler_mem (o : Operand) (e : Bool) (h : State → State) (s : State) :
    (runHandler o e h s).mem = (h (resolve o s).2).mem := rfl

@[simp] theorem runHandler_env (o : Operand) (e : Bool) (h : State → State) (s : State) :
    (runHandler o e h s).env = (h (resolve o s).2).env := rfl

@[simp] theorem runHandler_busLog (o : Operand) (e : Bool) (h : State → State) (s : State) :
    (runHandler o e h s).busLog = (h (resolve o s).2).busLog := rfl

@[simp] theorem runHandler_freeCount (o : Operand) (e : Bool) (h : State → State) (s : State) :
    (runHandler o e h s).freeCount = (h (resolve o s).2).freeCount := rfl

@[simp] theorem runHandler_flag (o : Operand) (e : Bool) (h : State → State) (s : State) (f : Flag) :
    (runHandler o e h s).flag f = (h (resolve o s).2).flag f := rfl

@[simp] theorem runHandler_peek (o : Operand) (e : Bool) (h : State → State) (s : State) (addr : Word) :
    (runHandler o e h s).peek addr = (h (resolve o s).2).peek addr := rfl

@[simp] theorem runHandler_isDevice (o : Operand) (e : Bool) (h : State → State) (s : State) (addr : Word) :
    (runHandler o e h s).isDevice addr = (h (resolve o s).2).isDevice addr := rfl

/-! ### What each stack operation leaves, in one equation (R11, R201 to R204) -/

theorem byte_add_one_one (b : Byte) : b + 1 + 1 = b + 2 := by rw [BitVec.add_assoc]; rfl

theorem byte_add_one_two (b : Byte) : b + 1 + 2 = b + 3 := by rw [BitVec.add_assoc]; rfl

theorem byte_sub_one_one (b : Byte) : b - 1 - 1 = b - 2 := by rw [BitVec.sub_sub]; rfl

theorem byte_sub_two_one (b : Byte) : b - 2 - 1 = b - 3 := by rw [BitVec.sub_sub]; rfl

/-- One pull: the bus's answer at the next stack address, and only SP and the log change. -/
theorem State.pull_eq (s : State) :
    s.pull = (s.busAnswer (stackAddr (s.sp + 1)), { s.afterRead (stackAddr (s.sp + 1)) with sp := s.sp + 1 }) := rfl

/-- Two pulls, low byte first. -/
theorem State.pullWord_eq (s : State) :
    s.pullWord =
      (mkWord ((s.afterRead (stackAddr (s.sp + 1))).busAnswer (stackAddr (s.sp + 2)))
        (s.busAnswer (stackAddr (s.sp + 1))),
      { (s.afterRead (stackAddr (s.sp + 1))).afterRead (stackAddr (s.sp + 2)) with sp := s.sp + 2 }) := by
  rw [State.pullWord, State.pull_eq, State.pull_eq]
  simp only [byte_add_one_one]
  rfl

/-- The return of RTI: three pulls, status, PC low, PC high. -/
theorem State.returnFromBreak_eq (s : State) :
    s.returnFromBreak =
      { ((s.afterRead (stackAddr (s.sp + 1))).afterRead (stackAddr (s.sp + 2))).afterRead (stackAddr (s.sp + 3)) with
        p := pulledStatus (s.busAnswer (stackAddr (s.sp + 1)))
        sp := s.sp + 3
        pc := mkWord
          (((s.afterRead (stackAddr (s.sp + 1))).afterRead (stackAddr (s.sp + 2))).busAnswer (stackAddr (s.sp + 3)))
          ((s.afterRead (stackAddr (s.sp + 1))).busAnswer (stackAddr (s.sp + 2))) } := by
  rw [State.returnFromBreak, State.pull_eq, State.pullWord_eq]
  simp only [State.setStatus, byte_add_one_one, byte_add_one_two]
  rfl

/-- Two pushes, high byte first: two bus writes and SP. -/
theorem State.pushWord_eq (s : State) (w : Word) :
    s.pushWord w = { (s.busWrite (stackAddr s.sp) (hiByte w)).busWrite (stackAddr (s.sp - 1)) (loByte w) with
      sp := s.sp - 2 } := by
  simp only [State.pushWord, State.push_eq, State.setReg, byte_sub_one_one]
  rfl

/-- Memory and log after BRK's three pushes. -/
def State.brkPushed (s : State) : State :=
  ((s.busWrite (stackAddr s.sp) (hiByte (s.pc + 1))).busWrite (stackAddr (s.sp - 1)) (loByte (s.pc + 1))).busWrite
    (stackAddr (s.sp - 2)) (pushedStatus s.p)

@[simp] theorem State.brkPushed_a (s : State) : s.brkPushed.a = s.a := rfl

@[simp] theorem State.brkPushed_x (s : State) : s.brkPushed.x = s.x := rfl

@[simp] theorem State.brkPushed_y (s : State) : s.brkPushed.y = s.y := rfl

@[simp] theorem State.brkPushed_sp (s : State) : s.brkPushed.sp = s.sp := rfl

@[simp] theorem State.brkPushed_p (s : State) : s.brkPushed.p = s.p := rfl

@[simp] theorem State.brkPushed_pc (s : State) : s.brkPushed.pc = s.pc := rfl

@[simp] theorem State.brkPushed_cycles (s : State) : s.brkPushed.cycles = s.cycles := rfl

@[simp] theorem State.brkPushed_opcode (s : State) : s.brkPushed.opcode = s.opcode := rfl

@[simp] theorem State.brkPushed_fetched (s : State) : s.brkPushed.fetched = s.fetched := rfl

@[simp] theorem State.brkPushed_addrAbs (s : State) : s.brkPushed.addrAbs = s.addrAbs := rfl

@[simp] theorem State.brkPushed_addrRel (s : State) : s.brkPushed.addrRel = s.addrRel := rfl

@[simp] theorem State.brkPushed_env (s : State) : s.brkPushed.env = s.env := rfl

@[simp] theorem State.brkPushed_freeCount (s : State) : s.brkPushed.freeCount = s.freeCount := rfl

@[simp] theorem State.brkPushed_isDevice (s : State) (addr : Word) : s.brkPushed.isDevice addr = s.isDevice addr := rfl

theorem State.brkPushed_busLog (s : State) : s.brkPushed.busLog =
    .write (stackAddr (s.sp - 2)) (pushedStatus s.p) :: .write (stackAddr (s.sp - 1)) (loByte (s.pc + 1)) ::
      .write (stackAddr s.sp) (hiByte (s.pc + 1)) :: s.busLog := rfl

theorem State.brkPushed_wf {s : State} (h : s.mem.wf = true) : s.brkPushed.mem.wf = true :=
  State.busWrite_wf _ _ (State.busWrite_wf _ _ (State.busWrite_wf _ _ h))

/-- Memory after BRK's three pushes. -/
theorem State.peek_brkPushed {s : State} (h : s.mem.wf = true) (b : Word) :
    s.brkPushed.peek b = if s.isDevice b then s.peek b else
      if b = stackAddr (s.sp - 2) then pushedStatus s.p else if b = stackAddr (s.sp - 1) then loByte (s.pc + 1) else
      if b = stackAddr s.sp then hiByte (s.pc + 1) else s.peek b := by
  rw [State.brkPushed, State.peek_busWrite, State.peek_busWrite, State.peek_busWrite] <;>
    simp only [State.busWrite_isDevice, State.busWrite_wf, h]
  by_cases hd : s.isDevice b = true <;> simp [hd]

/-- BRK's entry: three pushes, then the vector's two reads, then I and PC. -/
theorem State.enterBreak_eq (s : State) :
    s.enterBreak =
      { (s.brkPushed.afterRead 0xFFFE).afterRead 0xFFFF with
        sp := s.sp - 3
        p := putFlag s.p .i true
        pc := mkWord ((s.brkPushed.afterRead 0xFFFE).busAnswer 0xFFFF) (s.brkPushed.busAnswer 0xFFFE) } := by
  simp only [State.enterBreak, State.pushWord_eq, State.push_eq, State.setReg, byte_sub_two_one]
  rfl

/-- No address from 0x0200 up is a stack address. -/
theorem stackAddr_ne_of_above {sp : Byte} {w : Word} (h : 512 ≤ w.toNat) : w ≠ stackAddr sp := by
  intro e
  have := toNat_stackAddr sp
  have := sp.isLt
  rw [← e] at *
  omega

/-! ### Numbers behind the address and arithmetic helpers -/

@[simp] theorem toNat_zext16 (b : Byte) : (zext16 b).toNat = b.toNat := by
  have := b.isLt
  simp only [zext16, BitVec.toNat_setWidth]
  omega

/-- A page cross compares the high bytes as numbers. -/
theorem pageCross_iff (a b : Word) : pageCross a b = true ↔ a.toNat / 256 ≠ b.toNat / 256 := by
  simp only [pageCross, page, bne_iff_ne, ne_eq]
  rw [← BitVec.toNat_inj, toNat_hiByte, toNat_hiByte]

/-- The overflow formula is the sign rule: both operands share a sign and the result does not (R151). -/
theorem addOverflow_eq (a m r : Byte) :
    addOverflow a m r = (a.getLsbD 7 == m.getLsbD 7 && r.getLsbD 7 != a.getLsbD 7) := by
  have h7 : ∀ x : Byte, ((x &&& 0x80) != 0) = x.getLsbD 7 := by
    set_option maxRecDepth 20000 in decide
  rw [addOverflow, h7, BitVec.getLsbD_and, BitVec.getLsbD_not, BitVec.getLsbD_xor, BitVec.getLsbD_xor]
  cases a.getLsbD 7 <;> cases m.getLsbD 7 <;> cases r.getLsbD 7 <;> rfl

theorem toNat_addResult (a m : Byte) (c : Bool) : (addResult a m c).toNat = (a.toNat + m.toNat + c.toNat) % 256 := by
  simp [addResult, addSum]

/-- Exclusive or with 0xFF is the ones' complement (R152). -/
theorem xor_ff (m : Byte) : m ^^^ 0xFF = ~~~m := by
  revert m
  set_option maxRecDepth 20000 in decide

theorem toNat_shiftLeft (m : Byte) (c : Bool) : (shiftLeft m c).toNat = (m.toNat * 2 + c.toNat) % 256 := by
  simp [shiftLeft]

theorem toNat_shiftRight (m : Byte) (c : Bool) : (shiftRight m c).toNat = c.toNat * 128 + m.toNat / 2 := by
  have := m.isLt
  have : c.toNat ≤ 1 := by cases c <;> decide
  simp [shiftRight]
  omega

/-! ### A store at the effective address, and a load from memory -/

/-- A handler that stores one byte at `addr_abs` leaves that byte there, where no device window covers it. -/
theorem peek_storing_handler (o : Operand) (s : State) (v : State → Byte) (h : s.mem.wf = true)
    (hd : s.isDevice (effAddr o s) = false) :
    (runHandler o false (fun s => s.busWrite s.addrAbs (v s)) s).peek (effAddr o s) = v (resolve o s).2 := by
  have hm : (resolve o s).2.mem.wf = true := by simpa using h
  have hd' : (resolve o s).2.isDevice (effAddr o s) = false := by simpa using hd
  rw [runHandler_peek, State.peek_busWrite _ _ _ hm, hd']
  simp [effAddr]

/-- In a memory mode, `Fetch` answers memory's byte at the effective address, where no device window covers it. -/
theorem operandByte_of_memory {o : Operand} {s : State} (h1 : o.mode ≠ .imp) (h2 : o.mode ≠ .imm)
    (hd : s.isDevice (effAddr o s) = false) : operandByte o s = s.peek (effAddr o s) := by
  have hd' : (resolve o s).2.isDevice (effAddr o s) = false := by simpa using hd
  have : operandByte o s = (resolve o s).2.busAnswer (effAddr o s) := by
    cases o <;> first | exact absurd rfl h1 | exact absurd rfl h2 | rfl
  rw [this, State.busAnswer_of_memory hd']
  simp

/-! ### The rows of a mnemonic -/

/-- `RuleEncoding` from two checks over the 256 opcodes and the listed rows, each closed by `decide`. -/
theorem ruleEncoding_of {m : Mnemonic} {rows : List (Byte × Mode × Nat)}
    (h1 : ∀ op : Byte, (table op).mnemonic = m → (op, (table op).mode, (table op).base.getD 0) ∈ rows)
    (h2 : ∀ r ∈ rows, table r.1 = row m r.2.1 r.2.2) : RuleEncoding m rows := by
  intro op md base
  constructor
  · intro h
    have := h1 op (by rw [h]; rfl)
    rw [h] at this
    exact this
  · intro h
    exact h2 _ h

end Sys2Proof.Machine
end

