-- ==== Sys2Proof/Laws/PerInstr.lean ====
section
/-! SUPPORT. Facts stated per instruction. Family OpcodeRow: the encoder's opcode of a well-formed instruction selects,
in the decoder's table, the instruction's own mnemonic and mode; so the "Encoding" lines of the instruction rules and the
grid of R75 agree. -/

namespace Sys2Proof

/-- The opcode of `i` selects `i`'s row. -/
def Laws.OpcodeRow.Statement (i : Instr) : Prop :=
  i.wellFormed = true → ∃ op, i.opcodeOf = some op ∧ (table op).mnemonic = i.mnemonic ∧
    (table op).mode = i.operand.mode

theorem Laws.OpcodeRow.lda (o : Operand) : Laws.OpcodeRow.Statement (.lda o) := by
  intro h
  cases o <;> first | exact absurd h Bool.false_ne_true | exact ⟨_, rfl, rfl, rfl⟩

theorem Laws.OpcodeRow.ldx (o : Operand) : Laws.OpcodeRow.Statement (.ldx o) := by
  intro h
  cases o <;> first | exact absurd h Bool.false_ne_true | exact ⟨_, rfl, rfl, rfl⟩

theorem Laws.OpcodeRow.ldy (o : Operand) : Laws.OpcodeRow.Statement (.ldy o) := by
  intro h
  cases o <;> first | exact absurd h Bool.false_ne_true | exact ⟨_, rfl, rfl, rfl⟩

theorem Laws.OpcodeRow.sta (o : Operand) : Laws.OpcodeRow.Statement (.sta o) := by
  intro h
  cases o <;> first | exact absurd h Bool.false_ne_true | exact ⟨_, rfl, rfl, rfl⟩

theorem Laws.OpcodeRow.stx (o : Operand) : Laws.OpcodeRow.Statement (.stx o) := by
  intro h
  cases o <;> first | exact absurd h Bool.false_ne_true | exact ⟨_, rfl, rfl, rfl⟩

theorem Laws.OpcodeRow.sty (o : Operand) : Laws.OpcodeRow.Statement (.sty o) := by
  intro h
  cases o <;> first | exact absurd h Bool.false_ne_true | exact ⟨_, rfl, rfl, rfl⟩

theorem Laws.OpcodeRow.tax : Laws.OpcodeRow.Statement .tax :=
  fun _ => ⟨_, rfl, rfl, rfl⟩

theorem Laws.OpcodeRow.tay : Laws.OpcodeRow.Statement .tay :=
  fun _ => ⟨_, rfl, rfl, rfl⟩

theorem Laws.OpcodeRow.tsx : Laws.OpcodeRow.Statement .tsx :=
  fun _ => ⟨_, rfl, rfl, rfl⟩

theorem Laws.OpcodeRow.txa : Laws.OpcodeRow.Statement .txa :=
  fun _ => ⟨_, rfl, rfl, rfl⟩

theorem Laws.OpcodeRow.txs : Laws.OpcodeRow.Statement .txs :=
  fun _ => ⟨_, rfl, rfl, rfl⟩

theorem Laws.OpcodeRow.tya : Laws.OpcodeRow.Statement .tya :=
  fun _ => ⟨_, rfl, rfl, rfl⟩

theorem Laws.OpcodeRow.adc (o : Operand) : Laws.OpcodeRow.Statement (.adc o) := by
  intro h
  cases o <;> first | exact absurd h Bool.false_ne_true | exact ⟨_, rfl, rfl, rfl⟩

theorem Laws.OpcodeRow.sbc (o : Operand) : Laws.OpcodeRow.Statement (.sbc o) := by
  intro h
  cases o <;> first | exact absurd h Bool.false_ne_true | exact ⟨_, rfl, rfl, rfl⟩

theorem Laws.OpcodeRow.and (o : Operand) : Laws.OpcodeRow.Statement (.and o) := by
  intro h
  cases o <;> first | exact absurd h Bool.false_ne_true | exact ⟨_, rfl, rfl, rfl⟩

theorem Laws.OpcodeRow.ora (o : Operand) : Laws.OpcodeRow.Statement (.ora o) := by
  intro h
  cases o <;> first | exact absurd h Bool.false_ne_true | exact ⟨_, rfl, rfl, rfl⟩

theorem Laws.OpcodeRow.eor (o : Operand) : Laws.OpcodeRow.Statement (.eor o) := by
  intro h
  cases o <;> first | exact absurd h Bool.false_ne_true | exact ⟨_, rfl, rfl, rfl⟩

theorem Laws.OpcodeRow.bit (o : Operand) : Laws.OpcodeRow.Statement (.bit o) := by
  intro h
  cases o <;> first | exact absurd h Bool.false_ne_true | exact ⟨_, rfl, rfl, rfl⟩

theorem Laws.OpcodeRow.cmp (o : Operand) : Laws.OpcodeRow.Statement (.cmp o) := by
  intro h
  cases o <;> first | exact absurd h Bool.false_ne_true | exact ⟨_, rfl, rfl, rfl⟩

theorem Laws.OpcodeRow.cpx (o : Operand) : Laws.OpcodeRow.Statement (.cpx o) := by
  intro h
  cases o <;> first | exact absurd h Bool.false_ne_true | exact ⟨_, rfl, rfl, rfl⟩

theorem Laws.OpcodeRow.cpy (o : Operand) : Laws.OpcodeRow.Statement (.cpy o) := by
  intro h
  cases o <;> first | exact absurd h Bool.false_ne_true | exact ⟨_, rfl, rfl, rfl⟩

theorem Laws.OpcodeRow.inc (o : Operand) : Laws.OpcodeRow.Statement (.inc o) := by
  intro h
  cases o <;> first | exact absurd h Bool.false_ne_true | exact ⟨_, rfl, rfl, rfl⟩

theorem Laws.OpcodeRow.dec (o : Operand) : Laws.OpcodeRow.Statement (.dec o) := by
  intro h
  cases o <;> first | exact absurd h Bool.false_ne_true | exact ⟨_, rfl, rfl, rfl⟩

theorem Laws.OpcodeRow.inx : Laws.OpcodeRow.Statement .inx :=
  fun _ => ⟨_, rfl, rfl, rfl⟩

theorem Laws.OpcodeRow.iny : Laws.OpcodeRow.Statement .iny :=
  fun _ => ⟨_, rfl, rfl, rfl⟩

theorem Laws.OpcodeRow.dex : Laws.OpcodeRow.Statement .dex :=
  fun _ => ⟨_, rfl, rfl, rfl⟩

theorem Laws.OpcodeRow.dey : Laws.OpcodeRow.Statement .dey :=
  fun _ => ⟨_, rfl, rfl, rfl⟩

theorem Laws.OpcodeRow.asl (o : Operand) : Laws.OpcodeRow.Statement (.asl o) := by
  intro h
  cases o <;> first | exact absurd h Bool.false_ne_true | exact ⟨_, rfl, rfl, rfl⟩

theorem Laws.OpcodeRow.lsr (o : Operand) : Laws.OpcodeRow.Statement (.lsr o) := by
  intro h
  cases o <;> first | exact absurd h Bool.false_ne_true | exact ⟨_, rfl, rfl, rfl⟩

theorem Laws.OpcodeRow.rol (o : Operand) : Laws.OpcodeRow.Statement (.rol o) := by
  intro h
  cases o <;> first | exact absurd h Bool.false_ne_true | exact ⟨_, rfl, rfl, rfl⟩

theorem Laws.OpcodeRow.ror (o : Operand) : Laws.OpcodeRow.Statement (.ror o) := by
  intro h
  cases o <;> first | exact absurd h Bool.false_ne_true | exact ⟨_, rfl, rfl, rfl⟩

theorem Laws.OpcodeRow.bcc (d : Byte) : Laws.OpcodeRow.Statement (.bcc d) :=
  fun _ => ⟨_, rfl, rfl, rfl⟩

theorem Laws.OpcodeRow.bcs (d : Byte) : Laws.OpcodeRow.Statement (.bcs d) :=
  fun _ => ⟨_, rfl, rfl, rfl⟩

theorem Laws.OpcodeRow.beq (d : Byte) : Laws.OpcodeRow.Statement (.beq d) :=
  fun _ => ⟨_, rfl, rfl, rfl⟩

theorem Laws.OpcodeRow.bne (d : Byte) : Laws.OpcodeRow.Statement (.bne d) :=
  fun _ => ⟨_, rfl, rfl, rfl⟩

theorem Laws.OpcodeRow.bmi (d : Byte) : Laws.OpcodeRow.Statement (.bmi d) :=
  fun _ => ⟨_, rfl, rfl, rfl⟩

theorem Laws.OpcodeRow.bpl (d : Byte) : Laws.OpcodeRow.Statement (.bpl d) :=
  fun _ => ⟨_, rfl, rfl, rfl⟩

theorem Laws.OpcodeRow.bvc (d : Byte) : Laws.OpcodeRow.Statement (.bvc d) :=
  fun _ => ⟨_, rfl, rfl, rfl⟩

theorem Laws.OpcodeRow.bvs (d : Byte) : Laws.OpcodeRow.Statement (.bvs d) :=
  fun _ => ⟨_, rfl, rfl, rfl⟩

theorem Laws.OpcodeRow.jmp (o : Operand) : Laws.OpcodeRow.Statement (.jmp o) := by
  intro h
  cases o <;> first | exact absurd h Bool.false_ne_true | exact ⟨_, rfl, rfl, rfl⟩

theorem Laws.OpcodeRow.jsr (a : Word) : Laws.OpcodeRow.Statement (.jsr a) :=
  fun _ => ⟨_, rfl, rfl, rfl⟩

theorem Laws.OpcodeRow.rts : Laws.OpcodeRow.Statement .rts :=
  fun _ => ⟨_, rfl, rfl, rfl⟩

theorem Laws.OpcodeRow.brk : Laws.OpcodeRow.Statement .brk :=
  fun _ => ⟨_, rfl, rfl, rfl⟩

theorem Laws.OpcodeRow.rti : Laws.OpcodeRow.Statement .rti :=
  fun _ => ⟨_, rfl, rfl, rfl⟩

theorem Laws.OpcodeRow.pha : Laws.OpcodeRow.Statement .pha :=
  fun _ => ⟨_, rfl, rfl, rfl⟩

theorem Laws.OpcodeRow.php : Laws.OpcodeRow.Statement .php :=
  fun _ => ⟨_, rfl, rfl, rfl⟩

theorem Laws.OpcodeRow.pla : Laws.OpcodeRow.Statement .pla :=
  fun _ => ⟨_, rfl, rfl, rfl⟩

theorem Laws.OpcodeRow.plp : Laws.OpcodeRow.Statement .plp :=
  fun _ => ⟨_, rfl, rfl, rfl⟩

theorem Laws.OpcodeRow.clc : Laws.OpcodeRow.Statement .clc :=
  fun _ => ⟨_, rfl, rfl, rfl⟩

theorem Laws.OpcodeRow.sec : Laws.OpcodeRow.Statement .sec :=
  fun _ => ⟨_, rfl, rfl, rfl⟩

theorem Laws.OpcodeRow.cld : Laws.OpcodeRow.Statement .cld :=
  fun _ => ⟨_, rfl, rfl, rfl⟩

theorem Laws.OpcodeRow.sed : Laws.OpcodeRow.Statement .sed :=
  fun _ => ⟨_, rfl, rfl, rfl⟩

theorem Laws.OpcodeRow.cli : Laws.OpcodeRow.Statement .cli :=
  fun _ => ⟨_, rfl, rfl, rfl⟩

theorem Laws.OpcodeRow.sei : Laws.OpcodeRow.Statement .sei :=
  fun _ => ⟨_, rfl, rfl, rfl⟩

theorem Laws.OpcodeRow.clv : Laws.OpcodeRow.Statement .clv :=
  fun _ => ⟨_, rfl, rfl, rfl⟩

theorem Laws.OpcodeRow.nop : Laws.OpcodeRow.Statement .nop :=
  fun _ => ⟨_, rfl, rfl, rfl⟩

theorem Laws.OpcodeRow.xxx (op : Byte) : Laws.OpcodeRow.Statement (.xxx op) := by
  intro h
  have hs : sinkSlots.contains op = true := by simpa [Instr.wellFormed, Instr.mnemonic, Instr.operand,
    allowedModes, Operand.mode, Instr.opcodeFieldOk] using h
  refine ⟨op, rfl, ?_⟩
  rw [table_sinkSlot op hs]
  exact ⟨rfl, rfl⟩

end Sys2Proof
end

