-- ==== Sys2Proof/Tests/Slice0.lean ====
section
/-! SUPPORT. Tests of the model, each expected result taken from spec/: the encodings of files 42 to 46, R74, R80 and
the vectors of 95_test_vectors.md, whose number a step test carries in its name. The `witness_…` theorems show, for each
statement with hypotheses, states and operands that meet them all together. -/

namespace Sys2Proof.Tests

open Sys2Proof Sys2Proof.Machine

/-! ### WellFormed refuses a mode the mnemonic does not have, and an opcode that is no sink -/

theorem test_refuses_lda : (Instr.lda (.imp)).wellFormed = false := by decide

theorem test_refuses_ldx : (Instr.ldx (.zpx 0)).wellFormed = false := by decide

theorem test_refuses_ldy : (Instr.ldy (.zpy 0)).wellFormed = false := by decide

theorem test_refuses_sta : (Instr.sta (.imm 0)).wellFormed = false := by decide

theorem test_refuses_stx : (Instr.stx (.zpx 0)).wellFormed = false := by decide

theorem test_refuses_sty : (Instr.sty (.zpy 0)).wellFormed = false := by decide

theorem test_refuses_adc : (Instr.adc (.zpy 0)).wellFormed = false := by decide

theorem test_refuses_sbc : (Instr.sbc (.imp)).wellFormed = false := by decide

theorem test_refuses_and : (Instr.and (.ind 0)).wellFormed = false := by decide

theorem test_refuses_ora : (Instr.ora (.rel 0)).wellFormed = false := by decide

theorem test_refuses_eor : (Instr.eor (.zpy 0)).wellFormed = false := by decide

theorem test_refuses_bit : (Instr.bit (.imm 0)).wellFormed = false := by decide

theorem test_refuses_cmp : (Instr.cmp (.imp)).wellFormed = false := by decide

theorem test_refuses_cpx : (Instr.cpx (.zpx 0)).wellFormed = false := by decide

theorem test_refuses_cpy : (Instr.cpy (.abx 0)).wellFormed = false := by decide

theorem test_refuses_inc : (Instr.inc (.imp)).wellFormed = false := by decide

theorem test_refuses_dec : (Instr.dec (.aby 0)).wellFormed = false := by decide

theorem test_refuses_asl : (Instr.asl (.aby 0)).wellFormed = false := by decide

theorem test_refuses_lsr : (Instr.lsr (.izx 0)).wellFormed = false := by decide

theorem test_refuses_rol : (Instr.rol (.imm 0)).wellFormed = false := by decide

theorem test_refuses_ror : (Instr.ror (.izy 0)).wellFormed = false := by decide

theorem test_refuses_jmp : (Instr.jmp (.abx 0)).wellFormed = false := by decide

theorem test_refuses_xxx_nop_opcode : (Instr.xxx 0xEA).wellFormed = false := by decide

theorem test_refuses_xxx_brk_opcode : (Instr.xxx 0x00).wellFormed = false := by decide

theorem test_accepts_xxx_sink_opcode : (Instr.xxx 0x9E).wellFormed = true := by decide

/-! ### Decoding: one word per constructor, its opcode bit by bit; the byte after the instruction stays -/

theorem test_decode_lda : decode [0b10110001, 0x9C, 0x77] = .ok (.lda (.izy 0x9C), [0x77]) := rfl

theorem test_decode_ldx : decode [0b10111110, 0x34, 0x12, 0x77] = .ok (.ldx (.aby 0x1234), [0x77]) := rfl

theorem test_decode_ldy : decode [0b10111100, 0x34, 0x12, 0x77] = .ok (.ldy (.abx 0x1234), [0x77]) := rfl

theorem test_decode_sta : decode [0b10000001, 0x9C, 0x77] = .ok (.sta (.izx 0x9C), [0x77]) := rfl

theorem test_decode_stx : decode [0b10010110, 0x9C, 0x77] = .ok (.stx (.zpy 0x9C), [0x77]) := rfl

theorem test_decode_sty : decode [0b10010100, 0x9C, 0x77] = .ok (.sty (.zpx 0x9C), [0x77]) := rfl

theorem test_decode_tax : decode [0b10101010, 0x77] = .ok (.tax, [0x77]) := rfl

theorem test_decode_tay : decode [0b10101000, 0x77] = .ok (.tay, [0x77]) := rfl

theorem test_decode_tsx : decode [0b10111010, 0x77] = .ok (.tsx, [0x77]) := rfl

theorem test_decode_txa : decode [0b10001010, 0x77] = .ok (.txa, [0x77]) := rfl

theorem test_decode_txs : decode [0b10011010, 0x77] = .ok (.txs, [0x77]) := rfl

theorem test_decode_tya : decode [0b10011000, 0x77] = .ok (.tya, [0x77]) := rfl

theorem test_decode_adc : decode [0b01101001, 0x9C, 0x77] = .ok (.adc (.imm 0x9C), [0x77]) := rfl

theorem test_decode_sbc : decode [0b11111001, 0x34, 0x12, 0x77] = .ok (.sbc (.aby 0x1234), [0x77]) := rfl

theorem test_decode_and : decode [0b00110001, 0x9C, 0x77] = .ok (.and (.izy 0x9C), [0x77]) := rfl

theorem test_decode_ora : decode [0b00001101, 0x34, 0x12, 0x77] = .ok (.ora (.abs 0x1234), [0x77]) := rfl

theorem test_decode_eor : decode [0b01011101, 0x34, 0x12, 0x77] = .ok (.eor (.abx 0x1234), [0x77]) := rfl

theorem test_decode_bit : decode [0b00101100, 0x34, 0x12, 0x77] = .ok (.bit (.abs 0x1234), [0x77]) := rfl

theorem test_decode_cmp : decode [0b11000001, 0x9C, 0x77] = .ok (.cmp (.izx 0x9C), [0x77]) := rfl

theorem test_decode_cpx : decode [0b11100100, 0x9C, 0x77] = .ok (.cpx (.zp0 0x9C), [0x77]) := rfl

theorem test_decode_cpy : decode [0b11000000, 0x9C, 0x77] = .ok (.cpy (.imm 0x9C), [0x77]) := rfl

theorem test_decode_inc : decode [0b11111110, 0x34, 0x12, 0x77] = .ok (.inc (.abx 0x1234), [0x77]) := rfl

theorem test_decode_dec : decode [0b11010110, 0x9C, 0x77] = .ok (.dec (.zpx 0x9C), [0x77]) := rfl

theorem test_decode_inx : decode [0b11101000, 0x77] = .ok (.inx, [0x77]) := rfl

theorem test_decode_iny : decode [0b11001000, 0x77] = .ok (.iny, [0x77]) := rfl

theorem test_decode_dex : decode [0b11001010, 0x77] = .ok (.dex, [0x77]) := rfl

theorem test_decode_dey : decode [0b10001000, 0x77] = .ok (.dey, [0x77]) := rfl

theorem test_decode_asl : decode [0b00001010, 0x77] = .ok (.asl .imp, [0x77]) := rfl

theorem test_decode_lsr : decode [0b01010110, 0x9C, 0x77] = .ok (.lsr (.zpx 0x9C), [0x77]) := rfl

theorem test_decode_rol : decode [0b00101110, 0x34, 0x12, 0x77] = .ok (.rol (.abs 0x1234), [0x77]) := rfl

theorem test_decode_ror : decode [0b01111110, 0x34, 0x12, 0x77] = .ok (.ror (.abx 0x1234), [0x77]) := rfl

theorem test_decode_bcc : decode [0b10010000, 0xFD, 0x77] = .ok (.bcc 0xFD, [0x77]) := rfl

theorem test_decode_bcs : decode [0b10110000, 0xFD, 0x77] = .ok (.bcs 0xFD, [0x77]) := rfl

theorem test_decode_beq : decode [0b11110000, 0xFD, 0x77] = .ok (.beq 0xFD, [0x77]) := rfl

theorem test_decode_bne : decode [0b11010000, 0xFD, 0x77] = .ok (.bne 0xFD, [0x77]) := rfl

theorem test_decode_bmi : decode [0b00110000, 0xFD, 0x77] = .ok (.bmi 0xFD, [0x77]) := rfl

theorem test_decode_bpl : decode [0b00010000, 0xFD, 0x77] = .ok (.bpl 0xFD, [0x77]) := rfl

theorem test_decode_bvc : decode [0b01010000, 0xFD, 0x77] = .ok (.bvc 0xFD, [0x77]) := rfl

theorem test_decode_bvs : decode [0b01110000, 0xFD, 0x77] = .ok (.bvs 0xFD, [0x77]) := rfl

theorem test_decode_jmp : decode [0b01101100, 0x34, 0x12, 0x77] = .ok (.jmp (.ind 0x1234), [0x77]) := rfl

theorem test_decode_jsr : decode [0b00100000, 0x34, 0x12, 0x77] = .ok (.jsr 0x1234, [0x77]) := rfl

theorem test_decode_rts : decode [0b01100000, 0x77] = .ok (.rts, [0x77]) := rfl

theorem test_decode_brk : decode [0b00000000, 0x77] = .ok (.brk, [0x77]) := rfl

theorem test_decode_rti : decode [0b01000000, 0x77] = .ok (.rti, [0x77]) := rfl

theorem test_decode_pha : decode [0b01001000, 0x77] = .ok (.pha, [0x77]) := rfl

theorem test_decode_php : decode [0b00001000, 0x77] = .ok (.php, [0x77]) := rfl

theorem test_decode_pla : decode [0b01101000, 0x77] = .ok (.pla, [0x77]) := rfl

theorem test_decode_plp : decode [0b00101000, 0x77] = .ok (.plp, [0x77]) := rfl

theorem test_decode_clc : decode [0b00011000, 0x77] = .ok (.clc, [0x77]) := rfl

theorem test_decode_sec : decode [0b00111000, 0x77] = .ok (.sec, [0x77]) := rfl

theorem test_decode_cld : decode [0b11011000, 0x77] = .ok (.cld, [0x77]) := rfl

theorem test_decode_sed : decode [0b11111000, 0x77] = .ok (.sed, [0x77]) := rfl

theorem test_decode_cli : decode [0b01011000, 0x77] = .ok (.cli, [0x77]) := rfl

theorem test_decode_sei : decode [0b01111000, 0x77] = .ok (.sei, [0x77]) := rfl

theorem test_decode_clv : decode [0b10111000, 0x77] = .ok (.clv, [0x77]) := rfl

theorem test_decode_nop : decode [0b11101010, 0x77] = .ok (.nop, [0x77]) := rfl

theorem test_decode_xxx : decode [0b10011110, 0x77] = .ok (.xxx 0x9E, [0x77]) := rfl

theorem test_decode_nothing : decode [] = .error .noOpcodeByte := rfl

theorem test_decode_cut_short : decode [0xAD, 0x34] = .error (.missingOperandBytes 0xAD) := rfl

theorem test_decodeTableWord_operand_zero : decodeTableWord 8 0xAD = some (.lda (.abs 0)) := rfl

theorem test_decodeTableWord_little_endian : decodeTableWord 24 0x123420 = some (.jsr 0x1234) := rfl

/-! ### One pulse from the vectors of 95_test_vectors.md -/

/-- The default start state of 95_test_vectors.md. -/
def start : State := { State.reset with sp := 0xFF, p := 0x20, pc := 0x0600 }

/-- Bytes of memory by address. -/
def withData (s : State) : List (Word × Byte) → State
  | [] => s
  | (addr, v) :: rest => withData (s.hostPoke addr v) rest

/-- A write of the log as a pair. -/
def writeOf : BusEvent → Option (Nat × Nat)
  | .read _ _ => none
  | .write addr v => some (addr.toNat, v.toNat)

/-- What a vector lists, after one pulse: A X Y SP P PC, the bus writes in order, how many bus reads, how many pulses. -/
def after (s : State) (code : List Byte) (data : List (Word × Byte)) :
    Option (List Nat × List (Nat × Nat) × Nat × Nat) :=
  match step (withData (s.placeBytes s.pc code) data) with
  | .next t =>
    let writes := t.busLog.reverse.filterMap writeOf
    some ([t.a.toNat, t.x.toNat, t.y.toNat, t.sp.toNat, t.p.toNat, t.pc.toNat], writes,
      t.busLog.length - writes.length, t.cycles + 1)
  | .fault _ => none
  | .refused _ => none

theorem test_lda_A6 :
    after { start with x := 0x20 } [0xBD, 0xF0, 0x01] [(0x0210, 0xAA)] =
      some ([0xAA, 0x20, 0x00, 0xFF, 0xA0, 0x0603], [], 4, 5) := by decide

theorem test_lda_A12 :
    after { start with x := 0x01 } [0xA1, 0xFE] [(0x00FF, 0x00), (0x0000, 0x20), (0x2000, 0x66)] =
      some ([0x66, 0x01, 0x00, 0xFF, 0x20, 0x0602], [], 5, 6) := by decide

theorem test_ldx_A4 :
    after { start with y := 0x20 } [0xB6, 0xF0] [(0x0010, 0x80)] =
      some ([0x00, 0x80, 0x20, 0xFF, 0xA0, 0x0602], [], 3, 4) := by decide

theorem test_ldx_L5 :
    after { start with y := 0xCC } [0xBE, 0x34, 0x12] [(0x1300, 0x01)] =
      some ([0x00, 0x01, 0xCC, 0xFF, 0x20, 0x0603], [], 4, 5) := by decide

theorem test_ldy_L4 :
    after start [0xA0, 0xFF] [] =
      some ([0x00, 0x00, 0xFF, 0xFF, 0xA0, 0x0602], [], 2, 2) := by decide

theorem test_ldy_L6 :
    after { start with x := 0x01 } [0xB4, 0x10] [(0x0011, 0x7F)] =
      some ([0x00, 0x01, 0x7F, 0xFF, 0x20, 0x0602], [], 3, 4) := by decide

theorem test_sta_A17 :
    after { start with x := 0xFF, a := 0x12 } [0x9D, 0x00, 0x20] [] =
      some ([0x12, 0xFF, 0x00, 0xFF, 0x20, 0x0603], [(0x20FF, 0x12)], 3, 5) := by decide

theorem test_sta_A18 :
    after { start with y := 0x10, a := 0x34 } [0x91, 0x10] [(0x0010, 0xF8), (0x0011, 0x20)] =
      some ([0x34, 0x00, 0x10, 0xFF, 0x20, 0x0602], [(0x2108, 0x34)], 4, 6) := by decide

theorem test_stx_L10 :
    after { start with x := 0x77, y := 0xF5 } [0x96, 0x10] [] =
      some ([0x00, 0x77, 0xF5, 0xFF, 0x20, 0x0602], [(0x0005, 0x77)], 2, 4) := by decide

theorem test_stx_L11 :
    after { start with x := 0x01 } [0x8E, 0x34, 0x12] [] =
      some ([0x00, 0x01, 0x00, 0xFF, 0x20, 0x0603], [(0x1234, 0x01)], 3, 4) := by decide

theorem test_sty_L12 :
    after { start with y := 0x99, x := 0x02 } [0x94, 0xFF] [] =
      some ([0x00, 0x02, 0x99, 0xFF, 0x20, 0x0602], [(0x0001, 0x99)], 2, 4) := by decide

theorem test_sty_L13 :
    after { start with y := 0x02 } [0x8C, 0x34, 0x12] [] =
      some ([0x00, 0x00, 0x02, 0xFF, 0x20, 0x0603], [(0x1234, 0x02)], 3, 4) := by decide

theorem test_tax_L14 :
    after { start with a := 0x80 } [0xAA] [] =
      some ([0x80, 0x80, 0x00, 0xFF, 0xA0, 0x0601], [], 1, 2) := by decide

theorem test_tay_L15 :
    after { start with a := 0x00, y := 0x12 } [0xA8] [] =
      some ([0x00, 0x00, 0x00, 0xFF, 0x22, 0x0601], [], 1, 2) := by decide

theorem test_tsx_L16 :
    after { start with sp := 0xF0 } [0xBA] [] =
      some ([0x00, 0xF0, 0x00, 0xF0, 0xA0, 0x0601], [], 1, 2) := by decide

theorem test_txa_L17 :
    after { start with x := 0x00, a := 0x12 } [0x8A] [] =
      some ([0x00, 0x00, 0x00, 0xFF, 0x22, 0x0601], [], 1, 2) := by decide

theorem test_txs_L18 :
    after { start with x := 0x00, p := 0x20 } [0x9A] [] =
      some ([0x00, 0x00, 0x00, 0x00, 0x20, 0x0601], [], 1, 2) := by decide

theorem test_tya_L19 :
    after { start with y := 0xFE } [0x98] [] =
      some ([0xFE, 0x00, 0xFE, 0xFF, 0xA0, 0x0601], [], 1, 2) := by decide

theorem test_adc_E1 :
    after { start with a := 0x50 } [0x69, 0x50] [] =
      some ([0xA0, 0x00, 0x00, 0xFF, 0xE0, 0x0602], [], 2, 2) := by decide

theorem test_adc_E7 :
    after { start with a := 0x09, p := 0x28 } [0x69, 0x01] [] =
      some ([0x0A, 0x00, 0x00, 0xFF, 0x28, 0x0602], [], 2, 2) := by decide

theorem test_sbc_E13 :
    after { start with a := 0x80, p := 0x21 } [0xE9, 0x01] [] =
      some ([0x7F, 0x00, 0x00, 0xFF, 0x61, 0x0602], [], 2, 2) := by decide

theorem test_sbc_E14 :
    after { start with a := 0x50, p := 0x20 } [0xE9, 0x50] [] =
      some ([0xFF, 0x00, 0x00, 0xFF, 0xA0, 0x0602], [], 2, 2) := by decide

theorem test_and_E16 :
    after { start with a := 0xF3 } [0x29, 0x0F] [] =
      some ([0x03, 0x00, 0x00, 0xFF, 0x20, 0x0602], [], 2, 2) := by decide

theorem test_and_E17 :
    after { start with a := 0xFF } [0x29, 0x00] [] =
      some ([0x00, 0x00, 0x00, 0xFF, 0x22, 0x0602], [], 2, 2) := by decide

theorem test_ora_E18 :
    after { start with a := 0x01 } [0x09, 0x80] [] =
      some ([0x81, 0x00, 0x00, 0xFF, 0xA0, 0x0602], [], 2, 2) := by decide

theorem test_eor_E19 :
    after { start with a := 0x55 } [0x49, 0xFF] [] =
      some ([0xAA, 0x00, 0x00, 0xFF, 0xA0, 0x0602], [], 2, 2) := by decide

theorem test_eor_E20 :
    after { start with a := 0xAA } [0x49, 0xAA] [] =
      some ([0x00, 0x00, 0x00, 0xFF, 0x22, 0x0602], [], 2, 2) := by decide

theorem test_bit_E21 :
    after { start with a := 0x00 } [0x24, 0x10] [(0x0010, 0xC0)] =
      some ([0x00, 0x00, 0x00, 0xFF, 0xE2, 0x0602], [], 3, 3) := by decide

theorem test_bit_E22 :
    after { start with a := 0x01, p := 0xE0 } [0x2C, 0x34, 0x12] [(0x1234, 0x01)] =
      some ([0x01, 0x00, 0x00, 0xFF, 0x20, 0x0603], [], 4, 4) := by decide

theorem test_cmp_E24 :
    after { start with a := 0x00 } [0xC9, 0x01] [] =
      some ([0x00, 0x00, 0x00, 0xFF, 0xA0, 0x0602], [], 2, 2) := by decide

theorem test_cmp_E26 :
    after { start with a := 0x80 } [0xC9, 0x00] [] =
      some ([0x80, 0x00, 0x00, 0xFF, 0xA1, 0x0602], [], 2, 2) := by decide

theorem test_cpx_E27 :
    after { start with x := 0x10 } [0xE0, 0x10] [] =
      some ([0x00, 0x10, 0x00, 0xFF, 0x23, 0x0602], [], 2, 2) := by decide

theorem test_cpy_E28 :
    after { start with y := 0x00 } [0xC4, 0x10] [(0x0010, 0x80)] =
      some ([0x00, 0x00, 0x00, 0xFF, 0xA0, 0x0602], [], 3, 3) := by decide

theorem test_cpy_E29 :
    after { start with y := 0xFF, p := 0x60 } [0xC0, 0x7F] [] =
      some ([0x00, 0x00, 0xFF, 0xFF, 0xE1, 0x0602], [], 2, 2) := by decide

theorem test_inc_E31 :
    after { start with x := 0x01 } [0xF6, 0x10] [(0x0011, 0x7F)] =
      some ([0x00, 0x01, 0x00, 0xFF, 0xA0, 0x0602], [(0x0011, 0x80)], 3, 6) := by decide

theorem test_inc_E30 :
    after start [0xE6, 0x10] [(0x0010, 0xFF)] =
      some ([0x00, 0x00, 0x00, 0xFF, 0x22, 0x0602], [(0x0010, 0x00)], 3, 5) := by decide

theorem test_dec_E32 :
    after start [0xC6, 0x10] [(0x0010, 0x00)] =
      some ([0x00, 0x00, 0x00, 0xFF, 0xA0, 0x0602], [(0x0010, 0xFF)], 3, 5) := by decide

theorem test_dec_E33 :
    after { start with x := 0xCC } [0xDE, 0x34, 0x12] [(0x1300, 0x01)] =
      some ([0x00, 0xCC, 0x00, 0xFF, 0x22, 0x0603], [(0x1300, 0x00)], 4, 7) := by decide

theorem test_inx_E34 :
    after { start with x := 0xFF } [0xE8] [] =
      some ([0x00, 0x00, 0x00, 0xFF, 0x22, 0x0601], [], 1, 2) := by decide

theorem test_iny_E35 :
    after { start with y := 0x7F } [0xC8] [] =
      some ([0x00, 0x00, 0x80, 0xFF, 0xA0, 0x0601], [], 1, 2) := by decide

theorem test_dex_E36 :
    after { start with x := 0x00 } [0xCA] [] =
      some ([0x00, 0xFF, 0x00, 0xFF, 0xA0, 0x0601], [], 1, 2) := by decide

theorem test_dey_E37 :
    after { start with y := 0x00 } [0x88] [] =
      some ([0x00, 0x00, 0xFF, 0xFF, 0xA0, 0x0601], [], 1, 2) := by decide

theorem test_dey_E38 :
    after { start with y := 0x01 } [0x88] [] =
      some ([0x00, 0x00, 0x00, 0xFF, 0x22, 0x0601], [], 1, 2) := by decide

theorem test_asl_S1 :
    after { start with a := 0x81 } [0x0A] [] =
      some ([0x02, 0x00, 0x00, 0xFF, 0x21, 0x0601], [], 1, 2) := by decide

theorem test_asl_S3 :
    after { start with x := 0xFF } [0x1E, 0x00, 0x10] [(0x10FF, 0x80)] =
      some ([0x00, 0xFF, 0x00, 0xFF, 0x23, 0x0603], [(0x10FF, 0x00)], 4, 7) := by decide

theorem test_lsr_S4 :
    after { start with a := 0x01 } [0x4A] [] =
      some ([0x00, 0x00, 0x00, 0xFF, 0x23, 0x0601], [], 1, 2) := by decide

theorem test_lsr_S5 :
    after { start with p := 0xA0 } [0x46, 0x10] [(0x0010, 0x80)] =
      some ([0x00, 0x00, 0x00, 0xFF, 0x20, 0x0602], [(0x0010, 0x40)], 3, 5) := by decide

theorem test_rol_S7 :
    after { start with a := 0x80, p := 0x20 } [0x2A] [] =
      some ([0x00, 0x00, 0x00, 0xFF, 0x23, 0x0601], [], 1, 2) := by decide

theorem test_rol_S8 :
    after { start with x := 0x01, p := 0x21 } [0x36, 0x10] [(0x0011, 0x40)] =
      some ([0x00, 0x01, 0x00, 0xFF, 0xA0, 0x0602], [(0x0011, 0x81)], 3, 6) := by decide

theorem test_ror_S9 :
    after { start with a := 0x01, p := 0x21 } [0x6A] [] =
      some ([0x80, 0x00, 0x00, 0xFF, 0xA1, 0x0601], [], 1, 2) := by decide

theorem test_ror_S10 :
    after { start with p := 0x20 } [0x66, 0x10] [(0x0010, 0x02)] =
      some ([0x00, 0x00, 0x00, 0xFF, 0x20, 0x0602], [(0x0010, 0x01)], 3, 5) := by decide

theorem test_bcc_B1 :
    after { start with p := 0x20 } [0x90, 0x02] [] =
      some ([0x00, 0x00, 0x00, 0xFF, 0x20, 0x0604], [], 2, 3) := by decide

theorem test_bcc_B2 :
    after { start with p := 0x21 } [0x90, 0x02] [] =
      some ([0x00, 0x00, 0x00, 0xFF, 0x21, 0x0602], [], 2, 2) := by decide

theorem test_bcs_B3 :
    after { start with p := 0x21, pc := 0x06F0 } [0xB0, 0x20] [] =
      some ([0x00, 0x00, 0x00, 0xFF, 0x21, 0x0712], [], 2, 4) := by decide

theorem test_bcs_B4 :
    after { start with p := 0x21 } [0xB0, 0x80] [] =
      some ([0x00, 0x00, 0x00, 0xFF, 0x21, 0x0582], [], 2, 4) := by decide

theorem test_beq_B5 :
    after { start with p := 0x22 } [0xF0, 0xFE] [] =
      some ([0x00, 0x00, 0x00, 0xFF, 0x22, 0x0600], [], 2, 3) := by decide

theorem test_beq_B14 :
    after { start with p := 0x22, pc := 0xFFF0 } [0xF0, 0x7F] [] =
      some ([0x00, 0x00, 0x00, 0xFF, 0x22, 0x0071], [], 2, 4) := by decide

theorem test_bne_B6 :
    after { start with p := 0x20 } [0xD0, 0x00] [] =
      some ([0x00, 0x00, 0x00, 0xFF, 0x20, 0x0602], [], 2, 3) := by decide

theorem test_bne_B13 :
    after { start with p := 0x20, pc := 0xFFF0 } [0xD0, 0x80] [] =
      some ([0x00, 0x00, 0x00, 0xFF, 0x20, 0xFF72], [], 2, 3) := by decide

theorem test_bmi_B8 :
    after { start with p := 0xA0 } [0x30, 0x10] [] =
      some ([0x00, 0x00, 0x00, 0xFF, 0xA0, 0x0612], [], 2, 3) := by decide

theorem test_bpl_B9 :
    after { start with p := 0xA0 } [0x10, 0x10] [] =
      some ([0x00, 0x00, 0x00, 0xFF, 0xA0, 0x0602], [], 2, 2) := by decide

theorem test_bvc_B10 :
    after { start with p := 0x20 } [0x50, 0x7F] [] =
      some ([0x00, 0x00, 0x00, 0xFF, 0x20, 0x0681], [], 2, 3) := by decide

theorem test_bvs_B11 :
    after { start with p := 0x60 } [0x70, 0x05] [] =
      some ([0x00, 0x00, 0x00, 0xFF, 0x60, 0x0607], [], 2, 3) := by decide

theorem test_bvs_B12 :
    after { start with p := 0x20 } [0x70, 0x05] [] =
      some ([0x00, 0x00, 0x00, 0xFF, 0x20, 0x0602], [], 2, 2) := by decide

theorem test_jmp_A10 :
    after start [0x6C, 0xFF, 0x02] [(0x02FF, 0x00), (0x0200, 0x07), (0x0300, 0x09)] =
      some ([0x00, 0x00, 0x00, 0xFF, 0x20, 0x0700], [], 5, 5) := by decide

theorem test_jmp_B15 :
    after start [0x4C, 0x00, 0xC0] [] =
      some ([0x00, 0x00, 0x00, 0xFF, 0x20, 0xC000], [], 3, 3) := by decide

theorem test_jsr_B16 :
    after { start with sp := 0xFF } [0x20, 0x34, 0x12] [] =
      some ([0x00, 0x00, 0x00, 0xFD, 0x20, 0x1234], [(0x01FF, 0x06), (0x01FE, 0x02)], 3, 6) := by decide

theorem test_jsr_B17 :
    after { start with sp := 0x00 } [0x20, 0x34, 0x12] [] =
      some ([0x00, 0x00, 0x00, 0xFE, 0x20, 0x1234], [(0x0100, 0x06), (0x01FF, 0x02)], 3, 6) := by decide

theorem test_rts_B18 :
    after { start with sp := 0xFD } [0x60] [(0x01FE, 0x05), (0x01FF, 0x06)] =
      some ([0x00, 0x00, 0x00, 0xFF, 0x20, 0x0606], [], 3, 6) := by decide

theorem test_rts_B19 :
    after { start with sp := 0xFD } [0x60] [(0x01FE, 0xFF), (0x01FF, 0xFF)] =
      some ([0x00, 0x00, 0x00, 0xFF, 0x20, 0x0000], [], 3, 6) := by decide

theorem test_brk_B20 :
    after { start with sp := 0xFF, p := 0x20 } [0x00] [(0xFFFE, 0x00), (0xFFFF, 0x80)] =
      some ([0x00, 0x00, 0x00, 0xFC, 0x24, 0x8000], [(0x01FF, 0x06), (0x01FE, 0x02), (0x01FD, 0x30)], 3, 7) := by decide

theorem test_brk_B21 :
    after { start with sp := 0xFF, p := 0xE7 } [0x00] [(0xFFFE, 0x34), (0xFFFF, 0x12)] =
      some ([0x00, 0x00, 0x00, 0xFC, 0xE7, 0x1234], [(0x01FF, 0x06), (0x01FE, 0x02), (0x01FD, 0xF7)], 3, 7) := by decide

theorem test_rti_B22 :
    after { start with sp := 0xFC } [0x40] [(0x01FD, 0x30), (0x01FE, 0x02), (0x01FF, 0x06)] =
      some ([0x00, 0x00, 0x00, 0xFF, 0x20, 0x0602], [], 4, 6) := by decide

theorem test_rti_B23 :
    after { start with sp := 0xFC } [0x40] [(0x01FD, 0xFF), (0x01FE, 0x00), (0x01FF, 0xC0)] =
      some ([0x00, 0x00, 0x00, 0xFF, 0xEF, 0xC000], [], 4, 6) := by decide

theorem test_pha_K1 :
    after { start with a := 0x42, sp := 0xFD } [0x48] [] =
      some ([0x42, 0x00, 0x00, 0xFC, 0x20, 0x0601], [(0x01FD, 0x42)], 1, 3) := by decide

theorem test_pha_K2 :
    after { start with a := 0x42, sp := 0x00 } [0x48] [] =
      some ([0x42, 0x00, 0x00, 0xFF, 0x20, 0x0601], [(0x0100, 0x42)], 1, 3) := by decide

theorem test_php_K3 :
    after { start with p := 0x24 } [0x08] [] =
      some ([0x00, 0x00, 0x00, 0xFE, 0x24, 0x0601], [(0x01FF, 0x34)], 1, 3) := by decide

theorem test_php_K4 :
    after { start with p := 0x00 } [0x08] [] =
      some ([0x00, 0x00, 0x00, 0xFE, 0x00, 0x0601], [(0x01FF, 0x30)], 1, 3) := by decide

theorem test_pla_K5 :
    after { start with sp := 0xFC, a := 0x12 } [0x68] [(0x01FD, 0x00)] =
      some ([0x00, 0x00, 0x00, 0xFD, 0x22, 0x0601], [], 2, 4) := by decide

theorem test_pla_K6 :
    after { start with sp := 0xFF } [0x68] [(0x0100, 0x80)] =
      some ([0x80, 0x00, 0x00, 0x00, 0xA0, 0x0601], [], 2, 4) := by decide

theorem test_plp_K7 :
    after { start with sp := 0xFE } [0x28] [(0x01FF, 0xFF)] =
      some ([0x00, 0x00, 0x00, 0xFF, 0xEF, 0x0601], [], 2, 4) := by decide

theorem test_plp_K8 :
    after { start with sp := 0xFE, p := 0xFF } [0x28] [(0x01FF, 0x00)] =
      some ([0x00, 0x00, 0x00, 0xFF, 0x20, 0x0601], [], 2, 4) := by decide

theorem test_clc_K9 :
    after { start with p := 0x21 } [0x18] [] =
      some ([0x00, 0x00, 0x00, 0xFF, 0x20, 0x0601], [], 1, 2) := by decide

theorem test_sec_K10 :
    after { start with p := 0x20 } [0x38] [] =
      some ([0x00, 0x00, 0x00, 0xFF, 0x21, 0x0601], [], 1, 2) := by decide

theorem test_cld_K11 :
    after { start with p := 0x28 } [0xD8] [] =
      some ([0x00, 0x00, 0x00, 0xFF, 0x20, 0x0601], [], 1, 2) := by decide

theorem test_sed_K12 :
    after { start with p := 0x20 } [0xF8] [] =
      some ([0x00, 0x00, 0x00, 0xFF, 0x28, 0x0601], [], 1, 2) := by decide

theorem test_cli_K13 :
    after { start with p := 0x24 } [0x58] [] =
      some ([0x00, 0x00, 0x00, 0xFF, 0x20, 0x0601], [], 1, 2) := by decide

theorem test_sei_K14 :
    after { start with p := 0x20 } [0x78] [] =
      some ([0x00, 0x00, 0x00, 0xFF, 0x24, 0x0601], [], 1, 2) := by decide

theorem test_clv_K15 :
    after { start with p := 0x60 } [0xB8] [] =
      some ([0x00, 0x00, 0x00, 0xFF, 0x20, 0x0601], [], 1, 2) := by decide

theorem test_nop_K16 :
    after { start with a := 0x12, p := 0xE3 } [0xEA] [] =
      some ([0x12, 0x00, 0x00, 0xFF, 0xE3, 0x0601], [], 1, 2) := by decide

theorem test_xxx_K17 :
    after { start with a := 0x12 } [0x02, 0xA9] [] =
      some ([0x12, 0x00, 0x00, 0xFF, 0x20, 0x0601], [], 1, 2) := by decide

theorem test_xxx_K19 :
    after start [0x80, 0x42] [] =
      some ([0x00, 0x00, 0x00, 0xFF, 0x20, 0x0601], [], 1, 2) := by decide

/-! ### Parameters, device windows and the host's port -/

/-- 95_test_vectors.md section 8: `ILLEGAL_CYCLES(0x02) = 7`. -/
theorem test_sink_cost_parameter :
    after { start with env := ⟨[], [(0x02, 6)]⟩ } [0x02] [] =
      some ([0x00, 0x00, 0x00, 0xFF, 0x20, 0x0601], [], 1, 7) := by decide

/-- A store into a device window is one write of the log and leaves memory alone (R50, R52). -/
theorem test_device_window_write :
    let s : State := { start with env := ⟨[⟨0x2000, 8⟩], []⟩ }
    (s.busWrite 0x2007 0x55).busLog = [.write 0x2007 0x55] ∧ (s.busWrite 0x2007 0x55).peek 0x2007 = 0 ∧
      (s.busWrite 0x2008 0x55).peek 0x2008 = 0x55 := by decide

/-- A read from a device window is answered by the parameter `Bus` (R50). -/
theorem test_device_window_read :
    ({ start with env := ⟨[⟨0x2000, 8⟩], []⟩ } : State).busAnswer 0x2000 = Config.busAnswer [] 0x2000 := rfl

/-- 95_test_vectors.md section 8: a reset in a countdown sets `cycles` to 0 and takes the host's registers (R261). -/
theorem test_reset_mid_instruction :
    hostRead (hostReset ⟨0x01, 0x02, 0x03, 0xFD, 0x24, 0xC000⟩ { start with cycles := 3 }) =
      ⟨0x01, 0x02, 0x03, 0xFD, 0x24, 0xC000, 0⟩ := rfl

theorem test_hostWrite_in_countdown : hostWrite .a 1 { start with cycles := 3 } = .refused .hostWriteMidInstruction := rfl

theorem test_hostWrite_at_boundary : hostWrite .pc 0xC000 start = .next { start with pc := 0xC000 } := rfl

/-- From reset, a placed word is what the next pulse fetches and runs. -/
theorem test_withFetchWord_runs :
    (match step (State.reset.withFetchWord 16 0x42A9) with
      | .next t => (t.a, t.pc, t.cycles)
      | _ => (0, 0, 0)) = (0x42, 0x0002, 1) := by decide

/-! ### Witnesses: concrete states and operands that meet a statement's hypotheses, at boundary values -/

/-- A state with two bytes of memory, SP about to wrap. -/
def busy : State := { start with sp := 0x00, mem := [(0x0010, 0xFF), (0xFFFF, 0x80)] }

theorem witness_memory_is_canonical : start.mem.wf = true ∧ busy.mem.wf = true ∧ Memory.wf [(0, 1), (65535, 255)] = true := by
  decide

theorem witness_DecodeOfEncodeIsTheInstruction :
    (Instr.lda (.izy 0xFF)).wellFormed = true ∧ (Instr.jmp (.ind 0xFFFF)).wellFormed = true ∧
      (Instr.bne 0x80).wellFormed = true ∧ (Instr.jsr 0xFFFF).wellFormed = true ∧ (Instr.brk).wellFormed = true ∧
      (Instr.xxx 0x02).wellFormed = true ∧ (Instr.xxx 0xFF).wellFormed = true := by decide

theorem witness_EncodeOfDecodeIsTheBytes : decode [0x6E, 0xFF, 0xFF, 0xEA] = .ok (.ror (.abs 0xFFFF), [0xEA]) := rfl

theorem witness_ExactlyTheSinkSlotsSelectTheSink : (0x02 : Byte) ∈ sinkSlots ∧ (0xFF : Byte) ∈ sinkSlots := by decide

theorem witness_MemoryReadAfterWrite :
    Memory.wf [(7, 1)] = true ∧ Memory.wf ((Memory.write [] 7 2).write 7 1) = true ∧
      ∀ b, Memory.read [(7, 1)] b = Memory.read ((Memory.write [] 7 2).write 7 1) b :=
  ⟨by decide, by decide, fun _ => rfl⟩

theorem witness_StackWrapsInsideItsPage : busy.mem.wf = true ∧ busy.sp = 0x00 := by decide

theorem witness_IndirectModeWrapsInsideThePointersPage :
    ∀ p ∈ ([(0x02FF, 0x0200), (0xFFFF, 0xFF00), (0x00FF, 0x0000), (0x1000, 0x1001), (0xFFFE, 0xFFFF)] : List (Word × Word)),
      p.2.toNat = (if p.1.toNat % 256 = 0xFF then p.1.toNat - 0xFF else p.1.toNat + 1) := by simp

/-- X = 1: the pointer of ($FE,X) wraps from 0xFF to 0x00. -/
theorem witness_IndexedIndirectPointerStaysInZeroPage :
    (0x00FF : Word).toNat = ((0xFE : Byte).toNat + ({ start with x := 1 } : State).x.toNat) % 256 ∧
      (0x0000 : Word).toNat = ((0xFE : Byte).toNat + ({ start with x := 1 } : State).x.toNat + 1) % 256 := by decide

theorem witness_IndirectIndexedAddsYAndSignalsPageCross :
    (0x00FF : Word).toNat = (0xFF : Byte).toNat ∧ (0x0000 : Word).toNat = ((0xFF : Byte).toNat + 1) % 256 := by decide

theorem witness_OperandFetchReadsTheEffectiveAddressOnce :
    (∃ o : Operand, o = .imp) ∧ (∃ (o : Operand) (b : Byte), o = .imm b) ∧
      ((Operand.izy 0xFF) ≠ .imp ∧ ∀ b, (Operand.izy 0xFF) ≠ .imm b) :=
  ⟨⟨.imp, rfl⟩, ⟨.imm 0xFF, 0xFF, rfl⟩, by decide, fun _ h => Operand.noConfusion h⟩

theorem witness_LoadsCopyTheOperandByte :
    (∀ o ∈ ([.imm 0xFF, .zp0 0xFF, .zpx 0xFF, .abs 0xFFFF, .abx 0xFFFF, .aby 0xFFFF, .izx 0xFF, .izy 0xFF] : List Operand),
      (Instr.lda o).wellFormed = true) ∧
    (∀ o ∈ ([.imm 0, .zp0 0xFF, .zpy 0xFF, .abs 0xFFFF, .aby 0xFFFF] : List Operand), (Instr.ldx o).wellFormed = true) ∧
    ∀ o ∈ ([.imm 0, .zp0 0xFF, .zpx 0xFF, .abs 0xFFFF, .abx 0xFFFF] : List Operand), (Instr.ldy o).wellFormed = true := by
  decide

theorem witness_StoresWriteTheRegister :
    busy.mem.wf = true ∧
    (∀ o ∈ ([.zp0 0xFF, .zpx 0xFF, .abs 0xFFFF, .abx 0xFFFF, .aby 0xFFFF, .izx 0xFF, .izy 0xFF] : List Operand),
      (Instr.sta o).wellFormed = true) ∧
    (∀ o ∈ ([.zp0 0xFF, .zpy 0xFF, .abs 0xFFFF] : List Operand), (Instr.stx o).wellFormed = true) ∧
    ∀ o ∈ ([.zp0 0xFF, .zpx 0xFF, .abs 0xFFFF] : List Operand), (Instr.sty o).wellFormed = true := by decide

theorem witness_AdcAddsWithCarry_and_kin :
    ∀ o ∈ ([.imm 0xFF, .zp0 0xFF, .zpx 0xFF, .abs 0xFFFF, .abx 0xFFFF, .aby 0xFFFF, .izx 0xFF, .izy 0xFF] : List Operand),
      (Instr.adc o).wellFormed = true ∧ (Instr.sbc o).wellFormed = true ∧ (Instr.and o).wellFormed = true ∧
        (Instr.ora o).wellFormed = true ∧ (Instr.eor o).wellFormed = true ∧ (Instr.cmp o).wellFormed = true := by decide

theorem witness_BitTestsWithoutWritingA :
    (Instr.bit (.zp0 0xFF)).wellFormed = true ∧ (Instr.bit (.abs 0xFFFF)).wellFormed = true := by decide

theorem witness_ComparesSubtractWithoutStoring :
    ∀ o ∈ ([.imm 0xFF, .zp0 0xFF, .abs 0xFFFF] : List Operand),
      (Instr.cmp o).wellFormed = true ∧ (Instr.cpx o).wellFormed = true ∧ (Instr.cpy o).wellFormed = true := by decide

theorem witness_IncAndDecModifyMemoryOnce :
    busy.mem.wf = true ∧ ∀ o ∈ ([.zp0 0xFF, .zpx 0xFF, .abs 0xFFFF, .abx 0xFFFF] : List Operand),
      (Instr.inc o).wellFormed = true ∧ (Instr.dec o).wellFormed = true := by decide

theorem witness_ShiftsWriteBackWhereTheOperandWas :
    busy.mem.wf = true ∧ (∀ o ∈ ([.imp, .zp0 0xFF, .zpx 0xFF, .abs 0xFFFF, .abx 0xFFFF] : List Operand),
      (Instr.asl o).wellFormed = true ∧ (Instr.lsr o).wellFormed = true ∧ (Instr.rol o).wellFormed = true ∧
        (Instr.ror o).wellFormed = true) ∧ Operand.zp0 0xFF ≠ .imp := by decide

theorem witness_JmpGoesToTheEffectiveAddress :
    (Instr.jmp (.abs 0xFFFF)).wellFormed = true ∧ (Instr.jmp (.ind 0xFFFF)).wellFormed = true := by decide

/-- JSR, BRK, PHA and PHP ask only for a canonical memory; SP wraps here. -/
theorem witness_stack_writers : busy.mem.wf = true ∧ busy.sp = 0 := by decide

theorem witness_NopAndTheSinkHaveNoEffect :
    ∀ op ∈ ([0x02, 0x80, 0x9E, 0xFF] : List Byte), (Instr.xxx op).wellFormed = true := by decide

/-- One completing instruction outside the writers of every flag and of every register. -/
theorem witness_OnlyListedInstructionsChangeAFlag :
    (∃ t, exec (.sta (.zp0 0x10)) busy = .next t) ∧
      (Instr.sta (.zp0 0x10)).mnemonic ∉
        ([.adc, .sbc, .and, .ora, .eor, .bit, .cmp, .cpx, .cpy, .inc, .dec, .inx, .iny, .dex, .dey, .lda, .ldx, .ldy,
          .tax, .tay, .txa, .tya, .tsx, .pla, .asl, .lsr, .rol, .ror, .plp, .rti, .clc, .sec, .cld, .sed, .cli, .sei,
          .clv, .brk] : List Mnemonic) :=
  ⟨⟨_, rfl⟩, by decide⟩

/-- ASL of memory keeps A, and of A is among the shifts the statement's second premise leaves out. -/
theorem witness_OnlyListedInstructionsChangeARegister :
    (∃ t, exec (.asl (.zp0 0x10)) busy = .next t) ∧
      (Instr.asl (.zp0 0x10)).mnemonic ∉ ([.lda, .adc, .sbc, .and, .ora, .eor, .txa, .tya, .pla] : List Mnemonic) ∧
      (Instr.asl (.zp0 0x10)).mnemonic ∈ ([.asl, .lsr, .rol, .ror] : List Mnemonic) ∧
      (Instr.asl (.zp0 0x10)).operand ≠ .imp :=
  ⟨⟨_, rfl⟩, by decide⟩

theorem witness_OnlyStoresAndPushesChangeMemory :
    (∃ t, exec (.asl .imp) busy = .next t) ∧
      (Instr.asl .imp).mnemonic ∉ ([.sta, .stx, .sty, .inc, .dec, .pha, .php, .jsr, .brk] : List Mnemonic) ∧
      (Instr.asl .imp).operand = .imp :=
  ⟨⟨_, rfl⟩, by decide⟩

theorem witness_OnlyControlTransfersMovePC :
    (∃ t, exec (.inc (.zp0 0x10)) busy = .next t) ∧ (∃ t, exec (.jmp (.ind 0x12FF)) busy = .next t) ∧
      (Instr.inc (.zp0 0x10)).mnemonic ∉
        ([.bcc, .bcs, .beq, .bne, .bmi, .bpl, .bvc, .bvs, .jmp, .jsr, .rts, .brk, .rti] : List Mnemonic) :=
  ⟨⟨_, rfl⟩, ⟨_, rfl⟩, by decide⟩

/-- Both count statements: a well-formed instruction that completes; LDA ABX here signals, BNE here is taken. -/
theorem witness_counts_of_every_instruction :
    (Instr.lda (.abx 0x12FF)).wellFormed = true ∧ (∃ t, exec (.lda (.abx 0x12FF)) { busy with x := 1 } = .next t) ∧
      (resolve (.abx 0x12FF) { busy with x := 1 }).1 = true ∧ (Instr.bne 0x80).wellFormed = true ∧
      (∃ t, exec (.bne 0x80) busy = .next t) ∧ busy.flag .z = false :=
  ⟨by decide, ⟨_, rfl⟩, by decide, by decide, ⟨_, rfl⟩, by decide⟩

theorem witness_OnlyListedInstructionsReadAFlag :
    (Instr.adc (.imm 0x19)).mnemonic ∉ ([.php, .brk] : List Mnemonic) ∧
      (∃ t, exec (.adc (.imm 0x19)) busy = .next t) ∧ (Instr.brk).mnemonic ∉ ([] : List Mnemonic) ∧
      (∃ t, exec .brk busy = .next t) :=
  ⟨by decide, ⟨_, rfl⟩, by decide, ⟨_, rfl⟩⟩

/-- At a boundary and at the start and the end of the longest countdown. -/
theorem witness_StepKeepsTheInvariant :
    (Inv busy ∧ ∃ t, step busy = .next t) ∧ (Inv { busy with cycles := 6 } ∧ ∃ t, step { busy with cycles := 6 } = .next t) ∧
      (Inv { busy with cycles := 1 } ∧ ∃ t, step { busy with cycles := 1 } = .next t) :=
  ⟨⟨⟨by decide, by decide⟩, ⟨_, rfl⟩⟩, ⟨⟨by decide, by decide⟩, ⟨_, rfl⟩⟩, ⟨⟨by decide, by decide⟩, ⟨_, rfl⟩⟩⟩

/-- FetchPulse, PulsesAgree and StepFetchesThroughTheBus ask for an instruction boundary (and a next state). -/
theorem witness_fetch_pulse : busy.cycles = 0 ∧ ∃ t, step busy = .next t := ⟨rfl, ⟨_, rfl⟩⟩

theorem witness_StepFetchesThroughTheBus :
    (table ((start.placeBytes 0x0600 [0xEA]).busAnswer 0x0600)).mode.operandBytes = 0 ∧
      (table ((start.placeBytes 0x0600 [0xA9]).busAnswer 0x0600)).mode.operandBytes = 1 ∧
      (table ((start.placeBytes 0x0600 [0x20]).busAnswer 0x0600)).mode.operandBytes = 2 := by decide

theorem witness_HostWritesOnlyAtAnInstructionBoundary : 0 < ({ busy with cycles := 1 } : State).cycles ∧ busy.cycles = 0 := by
  decide

/-- Instructions of one, two and three bytes; the last one wraps from 0xFFFF to 0x0000. -/
theorem witness_StepRunsTheDecodedInstruction :
    ∀ p ∈ ([(0x0600, [0xEA]), (0x06FF, [0xD0, 0x80]), (0xFFFE, [0x20, 0x34, 0x12])] : List (Word × List Byte)),
      let s : State := State.placeBytes { start with pc := p.1 } p.1 p.2
      s.cycles = 0 ∧ s.isDevice s.pc = false ∧ s.isDevice (s.pc + 1) = false ∧ s.isDevice (s.pc + 2) = false ∧
        (decode [s.peek s.pc, s.peek (s.pc + 1), s.peek (s.pc + 2)]).toOption.isSome = true := by decide

theorem witness_CountdownPulseOnlyCounts :
    0 < ({ busy with cycles := 1 } : State).cycles ∧ 1 < ({ busy with cycles := 2 } : State).cycles := by decide

theorem witness_NoInstructionReadsStaleScratch :
    busy.cycles = 0 ∧ SameButScratch busy { busy with opcode := 1, fetched := 2, addrAbs := 3, addrRel := 4 } := ⟨rfl, rfl⟩

theorem witness_BusLogOnlyGrows :
    (∃ t, step busy = .next t) ∧ ∃ t, step { busy with cycles := 1 } = .next t := ⟨⟨_, rfl⟩, ⟨_, rfl⟩⟩

/-- RtsUndoesJsr, RtiUndoesBrk and PullsUndoPushes: three stack bytes that are memory, the stack wrapping below them. -/
theorem witness_stack_round_trips :
    busy.mem.wf = true ∧ busy.isDevice (stackAddr busy.sp) = false ∧ busy.isDevice (stackAddr (busy.sp - 1)) = false ∧
      busy.isDevice (stackAddr (busy.sp - 2)) = false ∧
      (∃ t u, exec (.jsr 0x1234) busy = .next t ∧ exec .rts t = .next u) ∧
      (∃ t u, exec .brk busy = .next t ∧ exec .rti t = .next u) ∧
      (∃ t u, exec .pha busy = .next t ∧ exec .pla t = .next u) ∧ ∃ t u, exec .php busy = .next t ∧ exec .plp t = .next u :=
  ⟨by decide, by decide, by decide, by decide, ⟨_, _, rfl, rfl⟩, ⟨_, _, rfl, rfl⟩, ⟨_, _, rfl, rfl⟩, ⟨_, _, rfl, rfl⟩⟩

/-- Absolute at the top of memory for all three registers; STA (zp),Y then LDA absolute of the address it reached; a
store through a zero-page pointer that leaves the pointer alone, then a load through it. -/
theorem witness_LoadAfterStoreGivesTheRegisterBack :
    let s : State := { busy with y := 0xEF }
    s.mem.wf = true ∧
      ((Instr.sta (.abs 0xFFFF)).wellFormed && (Instr.lda (.abs 0xFFFF)).wellFormed && (Instr.stx (.zpy 0x20)).wellFormed &&
        (Instr.ldx (.zp0 0x0F)).wellFormed && (Instr.sty (.abs 0xFFFF)).wellFormed && (Instr.ldy (.abs 0xFFFF)).wellFormed &&
        (Instr.sta (.izy 0x10)).wellFormed && (Instr.lda (.abs 0x01EE)).wellFormed &&
        (Instr.lda (.izy 0x10)).wellFormed) = true ∧
      effAddr (.izy 0x10) s = 0x01EE ∧ effAddr (.zpy 0x20) s = 0x000F ∧
      s.isDevice 0xFFFF = false ∧ s.isDevice 0x01EE = false ∧ s.isDevice 0x000F = false ∧
      (∃ t u, exec (.sta (.abs 0xFFFF)) s = .next t ∧ exec (.lda (.abs 0xFFFF)) t = .next u ∧
        effAddr (.abs 0xFFFF) t = effAddr (.abs 0xFFFF) s) ∧
      (∃ t u, exec (.stx (.zpy 0x20)) s = .next t ∧ exec (.ldx (.zp0 0x0F)) t = .next u ∧
        effAddr (.zp0 0x0F) t = effAddr (.zpy 0x20) s) ∧
      (∃ t u, exec (.sty (.abs 0xFFFF)) s = .next t ∧ exec (.ldy (.abs 0xFFFF)) t = .next u ∧
        effAddr (.abs 0xFFFF) t = effAddr (.abs 0xFFFF) s) ∧
      (∃ t u, exec (.sta (.izy 0x10)) s = .next t ∧ exec (.lda (.abs 0x01EE)) t = .next u ∧
        effAddr (.abs 0x01EE) t = effAddr (.izy 0x10) s) ∧
      ∃ t u, exec (.sta (.izy 0x10)) s = .next t ∧ exec (.lda (.izy 0x10)) t = .next u ∧
        effAddr (.izy 0x10) t = effAddr (.izy 0x10) s :=
  ⟨by decide, by decide, by decide, by decide, by decide, by decide, by decide, ⟨_, _, rfl, rfl, by decide⟩,
    ⟨_, _, rfl, rfl, by decide⟩, ⟨_, _, rfl, rfl, by decide⟩, ⟨_, _, rfl, rfl, by decide⟩, ⟨_, _, rfl, rfl, by decide⟩⟩

/-- At PC = 0xFFFF, for STA, STX and STY: the stored byte selects a row of no, one and two operand bytes. -/
theorem witness_StoredByteIsSeenByTheNextFetch :
    let s : State := { busy with a := 0xEA, x := 0xA9, y := 0x20, pc := 0xFFFF }
    s.mem.wf = true ∧ s.isDevice s.pc = false ∧ effAddr (.abs 0xFFFF) s = s.pc ∧
      (∀ p ∈ [(Instr.sta (.abs 0xFFFF), s.a), (.stx (.abs 0xFFFF), s.x), (.sty (.abs 0xFFFF), s.y)],
        p.1.wellFormed = true ∧ ∃ t, exec p.1 s = .next t) ∧
      (table s.a).mode.operandBytes = 0 ∧ (table s.x).mode.operandBytes = 1 ∧ (table s.y).mode.operandBytes = 2 := by
  refine ⟨by decide, by decide, by decide, ?_, by decide, by decide, by decide⟩
  intro p hp
  simp only [List.mem_cons, List.not_mem_nil, or_false] at hp
  rcases hp with rfl | rfl | rfl <;> exact ⟨by decide, ⟨_, rfl⟩⟩

end Sys2Proof.Tests
end

section
/-! PROOFS. The operand fetch after the resolver (00_scope.md R11, 40_execution_cycle.md R96). -/

namespace Sys2Proof.Proofs

open Sys2Proof Sys2Proof.Machine

/-- What `Fetch` answers in a mode with an address (R96). -/
theorem operandValue_memory {o : Operand} (himp : o ≠ .imp) (himm : ∀ b, o ≠ .imm b) (s : State) :
    operandValue o s = s.busAnswer s.addrAbs := by
  cases o
  case imp => exact absurd rfl himp
  case imm b => exact absurd rfl (himm b)
  all_goals rfl

/-- Outside modes IMP and IMM, `Fetch` logs the one read of `addr_abs` (R96). -/
theorem fetchOperand_busLog_memory {o : Operand} (himp : o ≠ .imp) (himm : ∀ b, o ≠ .imm b) (s : State) :
    (fetchOperand o s).busLog = .read s.addrAbs (operandValue o s) :: s.busLog := by
  have hmode : o.mode ∉ [.imp, .imm] := by cases o <;> simp_all [Operand.mode]
  rw [fetchOperand_busLog, if_neg hmode, List.singleton_append]

/-- Settles O15, by the three forms of the operand: IMP, IMM, and a mode with an address. -/
theorem operandFetchReadsTheEffectiveAddressOnce : Obligations.OperandFetchReadsTheEffectiveAddressOnce := by
  intro o s t
  refine ⟨?imp, ?imm, fun himp himm => ⟨?answer, ?log⟩⟩
  case imp => rintro rfl; exact ⟨rfl, rfl⟩
  case imm => rintro b rfl; exact ⟨rfl, rfl⟩
  case answer => exact operandValue_memory himp himm t
  case log => exact fetchOperand_busLog_memory himp himm t

end Sys2Proof.Proofs
end

section
/-! PROOFS. Every instruction is its resolver, its handler and the extra cycle (40_execution_cycle.md R90, R94): the
handlers by themselves, so that a fact about all instructions is one case split over them. -/

namespace Sys2Proof.Proofs

open Sys2Proof Sys2Proof.Machine

/-- A handler that begins with `Fetch`: the rest sees the state after it and the byte in `fetched` (R11). -/
def onOperand (o : Operand) (rest : State → Byte → State) (s : State) : State :=
  rest (fetchOperand o s) (fetchOperand o s).fetched

/-- The operation handler of each instruction (R72), as it runs after the resolver; `exec_eq_runHandler` ties it to
`exec`. -/
def handler : Instr → State → State
  | .lda o => onOperand o fun s m => s.loadReg .a m
  | .ldx o => onOperand o fun s m => s.loadReg .x m
  | .ldy o => onOperand o fun s m => s.loadReg .y m
  | .sta _ => fun s => s.busWrite s.addrAbs s.a
  | .stx _ => fun s => s.busWrite s.addrAbs s.x
  | .sty _ => fun s => s.busWrite s.addrAbs s.y
  | .tax => fun s => s.loadReg .x s.a
  | .tay => fun s => s.loadReg .y s.a
  | .tsx => fun s => s.loadReg .x s.sp
  | .txa => fun s => s.loadReg .a s.x
  | .txs => fun s => s.setReg .sp s.x
  | .tya => fun s => s.loadReg .a s.y
  | .adc o => onOperand o fun s m => s.addToA m
  | .sbc o => onOperand o fun s m => s.addToA (m ^^^ 0xFF)
  | .and o => onOperand o fun s m => s.loadReg .a (s.a &&& m)
  | .ora o => onOperand o fun s m => s.loadReg .a (s.a ||| m)
  | .eor o => onOperand o fun s m => s.loadReg .a (s.a ^^^ m)
  | .bit o => onOperand o fun s m => s.bitTest m
  | .cmp o => onOperand o fun s m => s.compare s.a m
  | .cpx o => onOperand o fun s m => s.compare s.x m
  | .cpy o => onOperand o fun s m => s.compare s.y m
  | .inc o => onOperand o fun s m => (s.busWrite s.addrAbs (m + 1)).setNZ (m + 1)
  | .dec o => onOperand o fun s m => (s.busWrite s.addrAbs (m - 1)).setNZ (m - 1)
  | .inx => fun s => s.loadReg .x (s.x + 1)
  | .iny => fun s => s.loadReg .y (s.y + 1)
  | .dex => fun s => s.loadReg .x (s.x - 1)
  | .dey => fun s => s.loadReg .y (s.y - 1)
  | .asl o => onOperand o fun s m => finishShift o (m.getLsbD 7) (shiftLeft m false) s
  | .lsr o => onOperand o fun s m => finishShift o (m.getLsbD 0) (shiftRight m false) s
  | .rol o => onOperand o fun s m => finishShift o (m.getLsbD 7) (shiftLeft m (s.flag .c)) s
  | .ror o => onOperand o fun s m => finishShift o (m.getLsbD 0) (shiftRight m (s.flag .c)) s
  | .bcc _ => fun s => s.branch (!s.flag .c)
  | .bcs _ => fun s => s.branch (s.flag .c)
  | .beq _ => fun s => s.branch (s.flag .z)
  | .bne _ => fun s => s.branch (!s.flag .z)
  | .bmi _ => fun s => s.branch (s.flag .n)
  | .bpl _ => fun s => s.branch (!s.flag .n)
  | .bvc _ => fun s => s.branch (!s.flag .v)
  | .bvs _ => fun s => s.branch (s.flag .v)
  | .jmp _ => fun s => s.jump s.addrAbs
  | .jsr _ => fun s => (s.pushWord (s.pc - 1)).jump s.addrAbs
  | .rts => fun s => s.pullWord.2.jump (s.pullWord.1 + 1)
  | .brk => State.enterBreak
  | .rti => State.returnFromBreak
  | .pha => fun s => s.push s.a
  | .php => fun s => s.push (pushedStatus s.p)
  | .pla => fun s => s.pull.2.loadReg .a s.pull.1
  | .plp => fun s => s.pull.2.setStatus (pulledStatus s.pull.1)
  | .clc => fun s => s.setFlag .c false
  | .sec => fun s => s.setFlag .c true
  | .cld => fun s => s.setFlag .d false
  | .sed => fun s => s.setFlag .d true
  | .cli => fun s => s.setFlag .i false
  | .sei => fun s => s.setFlag .i true
  | .clv => fun s => s.setFlag .v false
  | .nop | .xxx _ => id

/-- Does the handler signal that a page cross may cost an extra cycle (R94)? -/
def signalsExtra : Mnemonic → Bool
  | .lda | .ldx | .ldy | .adc | .sbc | .and | .ora | .eor | .cmp => true
  | _ => false

/-- Every instruction completes: resolver, handler, extra cycle (R90, R101). -/
theorem exec_eq_runHandler (i : Instr) (s : State) :
    exec i s = .next (runHandler i.operand (signalsExtra i.mnemonic) (handler i) s) := by
  cases i <;> rfl

/-- The state an instruction leaves. -/
theorem exec_eq_next_iff {i : Instr} {s t : State} :
    exec i s = .next t ↔ runHandler i.operand (signalsExtra i.mnemonic) (handler i) s = t := by
  rw [exec_eq_runHandler, Host.Outcome.next.injEq]

/-- The extra cycles of the frame, on their own (R94). -/
def addCycles (n : Nat) (s : State) : State := { s with cycles := s.cycles + n }

theorem runHandler_eq_addCycles (o : Operand) (e : Bool) (h : State → State) (s : State) :
    runHandler o e h s = addCycles ((resolve o s).1 && e).toNat (h (resolve o s).2) := rfl

/-- The bytes of an operand make an operand of its mode. -/
@[simp] theorem mode_operandOf (m : Mode) (b1 b2 : Byte) : (m.operandOf b1 b2).mode = m := by
  cases m <;> rfl

/-- The decoder's instruction has its row's mnemonic (R72). -/
@[simp] theorem mnemonic_instrOf (op b1 b2 : Byte) : (instrOf op b1 b2).mnemonic = (table op).mnemonic := by
  unfold instrOf
  cases (table op).mnemonic <;> rfl

/-- The instruction that a pulse fetches is built from the opcode at PC and some operand bytes (R91, R110). -/
theorem fetchInstr_fst (s : State) : ∃ b1 b2, s.fetchInstr.1 = instrOf (s.busAnswer s.pc) b1 b2 := by
  unfold State.fetchInstr
  dsimp only
  split <;> exact ⟨_, _, rfl⟩

end Sys2Proof.Proofs
end

section
/-! PROOFS. What no instruction changes, and which instructions change PC, the registers and the flags
(10_state.md R20, R23, R28). -/

namespace Sys2Proof.Proofs

open Sys2Proof Sys2Proof.Machine

/-! ### Parameters, counter and PC -/

theorem handler_env (i : Instr) (s : State) : (handler i s).env = s.env := by
  cases i <;> simp [handler, onOperand]

theorem handler_freeCount (i : Instr) (s : State) : (handler i s).freeCount = s.freeCount := by
  cases i <;> simp [handler, onOperand]

/-- The instructions that write PC after the fetch (R23, R190 to R204). -/
def controlTransfers : List Mnemonic :=
  [.bcc, .bcs, .beq, .bne, .bmi, .bpl, .bvc, .bvs, .jmp, .jsr, .rts, .brk, .rti]

theorem handler_pc {i : Instr} (h : i.mnemonic ∉ controlTransfers) (s : State) : (handler i s).pc = s.pc := by
  cases i
  case bcc | bcs | beq | bne | bmi | bpl | bvc | bvs | jmp | jsr | rts | brk | rti =>
    exact absurd (by simp [Instr.mnemonic, controlTransfers]) h
  all_goals simp [handler, onOperand]

/-- Settles O40, by the frame of every handler: the resolver changes none of the three fields. -/
theorem onlyControlTransfersMovePC : Obligations.OnlyControlTransfersMovePC := by
  intro i s t hexec
  obtain rfl := exec_eq_next_iff.mp hexec
  refine ⟨?env, ?freeCount, fun h => ?pc⟩
  case env => rw [runHandler_env, handler_env, resolve_env]
  case freeCount => rw [runHandler_freeCount, handler_freeCount, resolve_freeCount]
  case pc => rw [runHandler_pc, handler_pc h, resolve_pc]

/-! ### Registers -/

/-- The registers that a mnemonic writes: R20's table read by instructions; the shifts write A in mode IMP alone. -/
def writtenRegs : Mnemonic → List Reg
  | .lda | .adc | .sbc | .and | .ora | .eor | .txa | .tya => [.a]
  | .pla => [.a, .sp]
  | .ldx | .tax | .tsx | .inx | .dex => [.x]
  | .ldy | .tay | .iny | .dey => [.y]
  | .txs | .pha | .php | .plp | .jsr | .rts | .brk | .rti => [.sp]
  | _ => []

/-- The mnemonics whose result goes back where the operand came from (R180). -/
def shifts : List Mnemonic := [.asl, .lsr, .rol, .ror]

@[simp] theorem runHandler_reg (o : Operand) (e : Bool) (h : State → State) (s : State) (r : Reg) :
    (runHandler o e h s).reg r = (h (resolve o s).2).reg r := by
  cases r <;> rfl

@[simp] theorem reg_setNZ (s : State) (v : Byte) (r : Reg) : (s.setNZ v).reg r = s.reg r := by cases r <;> rfl

@[simp] theorem reg_setFlag (s : State) (f : Flag) (b : Bool) (r : Reg) : (s.setFlag f b).reg r = s.reg r := by
  cases r <;> rfl

@[simp] theorem reg_setStatus (s : State) (v : Byte) (r : Reg) : (s.setStatus v).reg r = s.reg r := by cases r <;> rfl

@[simp] theorem reg_compare (s : State) (v m : Byte) (r : Reg) : (s.compare v m).reg r = s.reg r := by cases r <;> rfl

@[simp] theorem reg_bitTest (s : State) (m : Byte) (r : Reg) : (s.bitTest m).reg r = s.reg r := by cases r <;> rfl

@[simp] theorem reg_addToA (s : State) (m : Byte) (r : Reg) :
    (s.addToA m).reg r = if r = .a then addResult s.a m (s.flag .c) else s.reg r := by cases r <;> rfl

@[simp] theorem reg_jump (s : State) (w : Word) (r : Reg) : (s.jump w).reg r = s.reg r := by cases r <;> rfl

@[simp] theorem reg_branch (s : State) (c : Bool) (r : Reg) : (s.branch c).reg r = s.reg r := by cases r <;> rfl

@[simp] theorem reg_busWrite (s : State) (addr : Word) (v : Byte) (r : Reg) : (s.busWrite addr v).reg r = s.reg r := by
  cases r <;> rfl

@[simp] theorem reg_push (s : State) (v : Byte) (r : Reg) :
    (s.push v).reg r = if r = .sp then s.sp - 1 else s.reg r := by cases r <;> rfl

@[simp] theorem reg_pull (s : State) (r : Reg) : s.pull.2.reg r = if r = .sp then s.sp + 1 else s.reg r := by
  cases r <;> rfl

@[simp] theorem reg_pushWord (s : State) (w : Word) (r : Reg) :
    (s.pushWord w).reg r = if r = .sp then s.sp - 1 - 1 else s.reg r := by cases r <;> rfl

@[simp] theorem reg_pullWord (s : State) (r : Reg) :
    s.pullWord.2.reg r = if r = .sp then s.sp + 1 + 1 else s.reg r := by cases r <;> rfl

@[simp] theorem reg_enterBreak (s : State) (r : Reg) :
    s.enterBreak.reg r = if r = .sp then s.sp - 1 - 1 - 1 else s.reg r := by cases r <;> simp [State.reg]

@[simp] theorem reg_returnFromBreak (s : State) (r : Reg) :
    s.returnFromBreak.reg r = if r = .sp then s.sp + 1 + 1 + 1 else s.reg r := by cases r <;> simp [State.reg]

@[simp] theorem reg_resolve (o : Operand) (s : State) (r : Reg) : (resolve o s).2.reg r = s.reg r := by
  cases r <;> simp [State.reg]

@[simp] theorem reg_fetchOperand (o : Operand) (s : State) (r : Reg) : (fetchOperand o s).reg r = s.reg r := by
  cases r <;> simp [State.reg]

theorem reg_finishShift {o : Operand} {r : Reg} (h : r = .a → o ≠ .imp) (c : Bool) (v : Byte) (s : State) :
    (finishShift o c v s).reg r = s.reg r := by
  by_cases ho : o = .imp
  · have hr : r ≠ .a := fun hr => h hr ho
    simp [finishShift, ho, writeBack_imp, hr]
  · simp [finishShift, writeBack_memory ho]

/-- Outside the written registers, and outside A for a shift of mode IMP, a handler keeps every register. -/
theorem handler_reg {i : Instr} {r : Reg} (h : r ∉ writtenRegs i.mnemonic)
    (hshift : r = .a → i.mnemonic ∈ shifts → i.operand ≠ .imp) (s : State) : (handler i s).reg r = s.reg r := by
  cases i
  case asl | lsr | rol | ror =>
    have ho := fun hr => hshift hr (by simp [Instr.mnemonic, shifts])
    exact (reg_finishShift ho _ _ _).trans (reg_fetchOperand _ _ _)
  all_goals simp_all [handler, onOperand, Instr.mnemonic, writtenRegs]

/-- Settles O38: the resolver keeps every register, the handler those that R20 does not list it for. -/
theorem onlyListedInstructionsChangeARegister : Obligations.OnlyListedInstructionsChangeARegister := by
  intro i s t r hexec hw hshift
  obtain rfl := exec_eq_next_iff.mp hexec
  have hr : r ∉ writtenRegs i.mnemonic := by
    intro hr
    apply hw
    clear hw hshift hexec
    generalize i.mnemonic = m at hr ⊢
    revert r
    cases m <;> decide
  rw [runHandler_reg, handler_reg hr hshift, reg_resolve]

/-! ### Flags -/

/-- The flags that a mnemonic writes: R28's "written by" read by instructions. -/
def writtenFlags : Mnemonic → List Flag
  | .adc | .sbc => [.c, .z, .v, .n]
  | .cmp | .cpx | .cpy | .asl | .lsr | .rol | .ror => [.c, .z, .n]
  | .bit => [.z, .v, .n]
  | .and | .ora | .eor | .inc | .dec | .inx | .iny | .dex | .dey | .lda | .ldx | .ldy | .tax | .tay | .txa | .tya
  | .tsx | .pla => [.z, .n]
  | .clc | .sec => [.c]
  | .cld | .sed => [.d]
  | .cli | .sei | .brk => [.i]
  | .clv => [.v]
  | .plp | .rti => [.c, .z, .i, .d, .b, .u, .v, .n]
  | _ => []

/-- The flags after a shift (R180). -/
@[simp] theorem flag_finishShift (o : Operand) (c : Bool) (v : Byte) (s : State) (f : Flag) :
    (finishShift o c v s).flag f =
      if f = .z then v == 0 else if f = .n then v.getLsbD 7 else if f = .c then c else s.flag f := by
  simp [finishShift]

/-- Outside the written flags, a handler keeps every flag. -/
theorem handler_flag {i : Instr} {f : Flag} (h : f ∉ writtenFlags i.mnemonic) (s : State) :
    (handler i s).flag f = s.flag f := by
  cases i
  case plp | rti => cases f <;> exact absurd (by decide) h
  all_goals
    simp_all [handler, onOperand, Instr.mnemonic, writtenFlags, State.flag_addToA, State.flag_compare,
      State.flag_bitTest]

/-- Settles O37: the resolver keeps every flag, the handler those that R28 does not list it for. -/
theorem onlyListedInstructionsChangeAFlag : Obligations.OnlyListedInstructionsChangeAFlag := by
  intro i s t f hexec hw
  obtain rfl := exec_eq_next_iff.mp hexec
  have hf : f ∉ writtenFlags i.mnemonic := by
    intro hf
    apply hw
    clear hw hexec
    generalize i.mnemonic = m at hf ⊢
    revert f
    cases m <;> decide
  rw [runHandler_flag, handler_flag hf, resolve_flag]

end Sys2Proof.Proofs
end

section
/-! PROOFS. The invariant: memory stays canonical, and no instruction costs more than 7 pulses (10_state.md R29,
40_execution_cycle.md R98, 20_memory.md R51). -/

namespace Sys2Proof.Proofs

open Sys2Proof Sys2Proof.Machine

/-! ### Memory -/

theorem finishShift_wf {s : State} (h : s.mem.wf = true) (o : Operand) (c : Bool) (v : Byte) :
    (finishShift o c v s).mem.wf = true := by
  rw [finishShift, State.setNZ_mem]
  exact writeBack_wf h

/-- Every handler keeps memory canonical: it stores nothing, or by bus writes. -/
theorem handler_wf {s : State} (h : s.mem.wf = true) (i : Instr) : (handler i s).mem.wf = true := by
  have hfetch (o : Operand) : (fetchOperand o s).mem.wf = true := by rwa [fetchOperand_mem]
  cases i
  case sta | stx | sty => exact State.busWrite_wf _ _ h
  case inc o | dec o => exact State.busWrite_wf _ _ (hfetch o)
  case asl o | lsr o | rol o | ror o => exact finishShift_wf (hfetch o) _ _ _
  case pha | php => exact State.push_wf _ h
  case jsr => exact State.pushWord_wf _ h
  case brk => exact State.enterBreak_wf h
  all_goals simpa [handler, onOperand] using h

/-- Every instruction keeps memory canonical. -/
theorem exec_wf {i : Instr} {s t : State} (hexec : exec i s = .next t) (h : s.mem.wf = true) : t.mem.wf = true := by
  obtain rfl := exec_eq_next_iff.mp hexec
  rw [runHandler_mem]
  exact handler_wf (by rwa [resolve_mem]) i

/-! ### Cycles -/

/-- The most that a taken branch adds, 1 and 1 more for a page cross (R95, R190). -/
def maxBranchExtra : Mnemonic → Nat
  | .bcc | .bcs | .beq | .bne | .bmi | .bpl | .bvc | .bvs => 2
  | _ => 0

/-- The most that an instruction can cost beyond its base: a page cross of its operand, or a branch (R94, R95). -/
def maxExtra (m : Mnemonic) : Nat := maxBranchExtra m + (signalsExtra m).toNat

theorem branch_cycles_le (s : State) (c : Bool) : (s.branch c).cycles ≤ s.cycles + 2 := by
  have := (pageCross (s.pc + s.addrRel) s.pc).toNat_le
  simp only [State.branch]
  split <;> omega

/-- Only a branch's handler counts cycles of its own. -/
theorem handler_cycles_le (i : Instr) (s : State) : (handler i s).cycles ≤ s.cycles + maxBranchExtra i.mnemonic := by
  cases i
  case bcc | bcs | beq | bne | bmi | bpl | bvc | bvs => exact branch_cycles_le _ _
  all_goals simp [handler, onOperand]

/-- The extra cycles of an instruction are at most its mnemonic's most. -/
theorem exec_cycles_le {i : Instr} {s t : State} (hexec : exec i s = .next t) :
    t.cycles ≤ s.cycles + maxExtra i.mnemonic := by
  obtain rfl := exec_eq_next_iff.mp hexec
  have hhandler := handler_cycles_le i (resolve i.operand s).2
  have hsignal := Bool.toNat_le_toNat (Bool.and_le_right (resolve i.operand s).1 (signalsExtra i.mnemonic))
  rw [resolve_cycles] at hhandler
  rw [runHandler_cycles, maxExtra]
  omega

/-- No row's base count with the most its mnemonic can add exceeds 7; a sink's base count is at most 7 (R74, R98). -/
theorem table_base_add_maxExtra_le : ∀ op : Byte, (table op).base.getD 7 + maxExtra (table op).mnemonic ≤ 7 := by
  set_option maxRecDepth 20000 in decide

theorem illegalCycles_le (e : Env) (op : Byte) : e.illegalCycles op ≤ 7 := by
  unfold Env.illegalCycles
  split <;> omega

theorem baseCycles_le (e : Env) (op : Byte) : e.baseCycles op ≤ (table op).base.getD 7 := by
  unfold Env.baseCycles
  split
  case h_1 n h => rw [h]; rfl
  case h_2 h => rw [h]; exact illegalCycles_le e op

/-- A fetching pulse sets `cycles` to at most 7 before its own decrement (R98). -/
theorem exec_fetchInstr_cycles_le {s t : State} (hexec : exec s.fetchInstr.1 s.fetchInstr.2 = .next t) :
    t.cycles ≤ 7 := by
  obtain ⟨b1, b2, hi⟩ := fetchInstr_fst s
  have hextra := exec_cycles_le hexec
  have hbase := baseCycles_le s.env (s.busAnswer s.pc)
  have htable := table_base_add_maxExtra_le (s.busAnswer s.pc)
  rw [hi, mnemonic_instrOf, State.fetchInstr_cycles] at hextra
  omega

/-! ### The pulse -/

/-- A pulse either counts down, or runs the fetched instruction, closes its operands and counts (R90). -/
theorem step_cases {s t : State} (h : step s = .next t) :
    (s.cycles ≠ 0 ∧ t = s.endPulse) ∨
      (s.cycles = 0 ∧ ∃ u, exec s.fetchInstr.1 s.fetchInstr.2 = .next u ∧ t = u.closeOperands.endPulse) := by
  unfold step at h
  split at h
  next h0 =>
    rw [fetchPulse, exec_eq_runHandler, finishFetchPulse, Host.Outcome.next.injEq] at h
    exact .inr ⟨h0, _, exec_eq_runHandler _ _, h.symm⟩
  next h0 => exact .inl ⟨h0, (Host.Outcome.next.inj h).symm⟩

/-- Settles O45, by the two kinds of pulse. -/
theorem stepKeepsTheInvariant : Obligations.StepKeepsTheInvariant := by
  rintro s t ⟨hwf, hcycles⟩ hstep
  obtain ⟨-, rfl⟩ | ⟨-, u, hexec, rfl⟩ := step_cases hstep
  case inl =>
    exact ⟨by rwa [State.endPulse_mem], by rw [State.endPulse_cycles]; omega⟩
  case inr =>
    have hmem : u.mem.wf = true := exec_wf hexec (by rwa [State.fetchInstr_mem])
    have hcount := exec_fetchInstr_cycles_le hexec
    refine ⟨by rwa [State.endPulse_mem, State.closeOperands_mem], ?_⟩
    rw [State.endPulse_cycles, State.closeOperands_cycles]
    omega

end Sys2Proof.Proofs
end

section
/-! PROOFS. The status byte, the stack page and reset (10_state.md R24 to R26, R29, R35). -/

namespace Sys2Proof.Proofs

open Sys2Proof Sys2Proof.Machine

/-! ### The status byte -/

/-- The status byte as a number, flag by flag (R25). -/
theorem toNat_status : ∀ p : Byte,
    p.toNat =
      (getFlag p .n).toNat * 128 + (getFlag p .v).toNat * 64 + (getFlag p .u).toNat * 32 + (getFlag p .b).toNat * 16 +
      (getFlag p .d).toNat * 8 + (getFlag p .i).toNat * 4 + (getFlag p .z).toNat * 2 + (getFlag p .c).toNat := by
  set_option maxRecDepth 20000 in decide

/-- Settles O8: the value of P over its 256 bytes, the accessor by reading after writing. -/
theorem flagsAreTheBitsOfTheStatusByte : Obligations.FlagsAreTheBitsOfTheStatusByte := by
  refine fun s => ⟨toNat_status s.p, fun f b => ⟨rfl, ?same, fun g hg => ?other, rfl⟩⟩
  case same => rw [State.flag_setFlag, if_pos rfl]
  case other => rw [State.flag_setFlag, if_neg hg]

/-! ### The stack page -/

theorem toNat_byte_sub_one (b : Byte) : (b - 1).toNat = (b.toNat + 255) % 256 := by
  rw [BitVec.toNat_sub, Nat.add_comm]
  rfl

/-- Every stack address lies on page 1 (R24). -/
theorem page_stackAddr (sp : Byte) : page (stackAddr sp) = 0x01 := by
  have hsp := sp.isLt
  have haddr := toNat_stackAddr sp
  apply BitVec.eq_of_toNat_eq
  rw [page, toNat_hiByte, haddr]
  show (256 + sp.toNat) / 256 = 1
  omega

/-- A push stores its byte at the stack address that SP names (R11). -/
theorem stored_push {s : State} (v : Byte) (h : s.mem.wf = true) : Stored (stackAddr s.sp) v s (s.push v) :=
  State.stored_busWrite (stackAddr s.sp) v h

/-- Settles O9, clause by clause from the field lemmas of `push` and `pull`. -/
theorem stackWrapsInsideItsPage : Obligations.StackWrapsInsideItsPage := by
  intro s v hwf
  refine ⟨stored_push v hwf, State.push_busLog s v, ?pushSp, ?pullSp, State.pull_fst_eq s, ?pullLog,
    toNat_stackAddr s.sp, page_stackAddr s.sp, ?wrap⟩
  case pushSp => rw [State.push_sp, toNat_byte_sub_one]
  case pullSp => exact BitVec.toNat_add s.sp 1
  case pullLog => rw [State.pull_fst_eq]; rfl
  case wrap => intro h; rw [State.push_sp, h]; rfl

/-! ### Reset -/

/-- Power-on lists no byte of memory and leaves nothing to count, whatever the registers. -/
theorem inv_resetWith (r : ResetRegs) : Inv (State.resetWith r) := ⟨rfl, Nat.zero_le 6⟩

/-- Settles O47: `State.reset` is power-on with all registers zero. -/
theorem resetMeetsTheInvariant : Obligations.ResetMeetsTheInvariant :=
  ⟨inv_resetWith, inv_resetWith ⟨0, 0, 0, 0, 0, 0⟩⟩

/-- Settles O48, field by field. -/
theorem resetLeavesTheBlockAtFetch : Obligations.ResetLeavesTheBlockAtFetch :=
  fun r s => ⟨rfl, rfl, hostReset_mem s r, hostReset_env s r, hostReset_busLog s r, rfl⟩

end Sys2Proof.Proofs
end

section
/-! PROOFS. Which instructions read a flag (10_state.md R28): how each state operation runs on a state with one flag
forced. An operation that writes no flag carries the forced flag along; one that writes flags may overwrite it, so
there the two runs are compared after that flag is cleared. -/

namespace Sys2Proof.Proofs

open Sys2Proof Sys2Proof.Machine

section
variable (s : State) (f : Flag) (b c : Bool)

/-! ### Operations that write no flag -/

theorem setReg_setFlag (r : Reg) (v : Byte) : (s.setFlag f b).setReg r v = (s.setReg r v).setFlag f b := by
  cases r <;> rfl

theorem busWrite_setFlag (addr : Word) (v : Byte) :
    (s.setFlag f b).busWrite addr v = (s.busWrite addr v).setFlag f b := rfl

theorem push_setFlag (v : Byte) : (s.setFlag f b).push v = (s.push v).setFlag f b := rfl

theorem pushWord_setFlag (w : Word) : (s.setFlag f b).pushWord w = (s.pushWord w).setFlag f b := rfl

theorem pull_setFlag : (s.setFlag f b).pull = (s.pull.1, s.pull.2.setFlag f b) := rfl

theorem pullWord_setFlag : (s.setFlag f b).pullWord = (s.pullWord.1, s.pullWord.2.setFlag f b) := rfl

theorem jump_setFlag (w : Word) : (s.setFlag f b).jump w = (s.jump w).setFlag f b := rfl

theorem addCycles_setFlag (n : Nat) : (addCycles n s).setFlag f b = addCycles n (s.setFlag f b) := rfl

theorem branch_setFlag (cond : Bool) : (s.setFlag f b).branch cond = (s.branch cond).setFlag f b := rfl

theorem fetchOperand_setFlag (o : Operand) : fetchOperand o (s.setFlag f b) = (fetchOperand o s).setFlag f b := by
  cases o <;> rfl

theorem writeBack_setFlag (o : Operand) (v : Byte) :
    writeBack o v (s.setFlag f b) = (writeBack o v s).setFlag f b := by
  cases o <;> rfl

/-- The resolver reads no flag. -/
theorem resolve_setFlag (o : Operand) :
    resolve o (s.setFlag f b) = ((resolve o s).1, (resolve o s).2.setFlag f b) := by
  cases o <;> rfl

/-! ### Operations that write flags -/

/-- States that differ at most in P are equal when every flag is. -/
theorem eq_of_flags {s t : State} (h : t = { s with p := t.p }) (hf : ∀ g, t.flag g = s.flag g) : t = s := by
  rw [h, status_ext hf]

theorem setFlag_setFlag : (s.setFlag f b).setFlag f c = s.setFlag f c := by
  rw [State.setFlag, State.setFlag, State.setFlag, putFlag_putFlag]

theorem setFlag_comm {f g : Flag} (h : f ≠ g) : (s.setFlag f b).setFlag g c = (s.setFlag g c).setFlag f b := by
  simp only [State.setFlag, putFlag_comm s.p b c h]

theorem setFlag_setFlag_forced (g : Flag) (v : Bool) :
    ((s.setFlag f b).setFlag g v).setFlag f c = (s.setFlag g v).setFlag f c :=
  eq_of_flags rfl fun k => by by_cases hk : k = f <;> simp [hk]

theorem setNZ_setFlag_forced (v : Byte) : ((s.setFlag f b).setNZ v).setFlag f c = (s.setNZ v).setFlag f c :=
  eq_of_flags rfl fun k => by by_cases hk : k = f <;> simp [hk]

theorem loadReg_setFlag_forced (r : Reg) (v : Byte) :
    ((s.setFlag f b).loadReg r v).setFlag f c = (s.loadReg r v).setFlag f c := by
  rw [State.loadReg, setReg_setFlag, setNZ_setFlag_forced, State.loadReg]

theorem compare_setFlag_forced (r m : Byte) :
    ((s.setFlag f b).compare r m).setFlag f c = (s.compare r m).setFlag f c :=
  eq_of_flags rfl fun k => by by_cases hk : k = f <;> simp [hk, State.flag_compare]

theorem bitTest_setFlag_forced (m : Byte) : ((s.setFlag f b).bitTest m).setFlag f c = (s.bitTest m).setFlag f c :=
  eq_of_flags rfl fun k => by by_cases hk : k = f <;> simp [hk, State.flag_bitTest]

theorem finishShift_setFlag_forced (o : Operand) (carryOut : Bool) (r : Byte) :
    (finishShift o carryOut r (s.setFlag f b)).setFlag f c = (finishShift o carryOut r s).setFlag f c := by
  simp only [finishShift, writeBack_setFlag]
  exact eq_of_flags rfl fun k => by by_cases hk : k = f <;> simp [hk]

variable {f}

/-- An addition reads C alone (R150, R151). -/
theorem addToA_setFlag_forced (hf : f ≠ .c) (m : Byte) :
    ((s.setFlag f b).addToA m).setFlag f c = (s.addToA m).setFlag f c := by
  have hc : (s.setFlag f b).flag .c = s.flag .c := by rw [State.flag_setFlag, if_neg hf.symm]
  refine eq_of_flags ?_ fun k => ?_
  · simp only [State.addToA, hc]; rfl
  · by_cases hk : k = f <;> simp [hk, State.flag_addToA, hf.symm]

/-! ### The pushed status byte -/

/-- B and U are pushed as 1 whatever they hold (R27). -/
theorem pushedStatus_putFlag (hf : f = .b ∨ f = .u) (p : Byte) : pushedStatus (putFlag p f b) = pushedStatus p := by
  apply status_ext
  intro g
  by_cases hg : g = f
  · subst hg; rcases hf with rfl | rfl <;> simp
  · simp [hg]

theorem handler_php_setFlag (hf : f = .b ∨ f = .u) :
    handler .php (s.setFlag f b) = (handler .php s).setFlag f b := by
  simp only [handler, State.setFlag_p, pushedStatus_putFlag b hf, push_setFlag]

theorem enterBreak_setFlag (hf : f = .b ∨ f = .u) : (s.setFlag f b).enterBreak = s.enterBreak.setFlag f b := by
  have hi : f ≠ .i := by rcases hf with rfl | rfl <;> decide
  simp only [State.enterBreak, pushWord_setFlag, push_setFlag, State.setFlag_pc, State.setFlag_p,
    pushedStatus_putFlag b hf, setFlag_comm _ b true hi]
  rfl

/-! ### The handlers -/

/-- The flags whose value a mnemonic's effect depends on: R28's "read by" read by instructions. -/
def readFlags : Mnemonic → List Flag
  | .adc | .sbc | .rol | .ror | .bcc | .bcs => [.c]
  | .beq | .bne => [.z]
  | .bvc | .bvs => [.v]
  | .bmi | .bpl => [.n]
  | .php | .brk => [.c, .z, .i, .d, .v, .n]
  | _ => []

/-- Only B and U are not read by PHP and BRK. -/
theorem eq_b_or_u_of_not_pushed {f : Flag} (hf : f ∉ readFlags .php) : f = .b ∨ f = .u := by
  cases f <;> simp [readFlags] at hf ⊢

/-- A handler that does not read a flag does the same but for that flag, whatever the flag holds. -/
theorem handler_setFlag_forced {i : Instr} (hf : f ∉ readFlags i.mnemonic) :
    (handler i (s.setFlag f b)).setFlag f c = (handler i s).setFlag f c := by
  have hne {g : Flag} (hg : g ∈ readFlags i.mnemonic) : g ≠ f := fun h => hf (h ▸ hg)
  cases i
  case lda | ldx | ldy | and | ora | eor => simp [handler, onOperand, fetchOperand_setFlag, loadReg_setFlag_forced]
  case adc | sbc =>
    simp [handler, onOperand, fetchOperand_setFlag, addToA_setFlag_forced _ _ _ (hne (.head _)).symm]
  case rol | ror =>
    have hc : Flag.c ≠ f := hne (.head _)
    simp [handler, onOperand, fetchOperand_setFlag, finishShift_setFlag_forced, hc]
  case asl | lsr => simp [handler, onOperand, fetchOperand_setFlag, finishShift_setFlag_forced]
  case bit => simp [handler, onOperand, fetchOperand_setFlag, bitTest_setFlag_forced]
  case cmp | cpx | cpy => simp [handler, onOperand, fetchOperand_setFlag, compare_setFlag_forced]
  case inc | dec => simp [handler, onOperand, fetchOperand_setFlag, busWrite_setFlag, setNZ_setFlag_forced]
  case bcc | bcs | beq | bne | bmi | bpl | bvc | bvs =>
    simp [handler, branch_setFlag, setFlag_setFlag, hne (.head _)]
  case php => rw [handler_php_setFlag _ _ (eq_b_or_u_of_not_pushed hf), setFlag_setFlag]
  case brk => rw [handler, enterBreak_setFlag _ _ (eq_b_or_u_of_not_pushed hf), setFlag_setFlag]
  case plp | rti => rfl
  case clc | sec | cld | sed | cli | sei | clv => exact setFlag_setFlag_forced s f b c _ _
  case pla => simp [handler, pull_setFlag, loadReg_setFlag_forced]
  case tax | tay | tsx | txa | tya | inx | iny | dex | dey => simp [handler, loadReg_setFlag_forced]
  all_goals
    simp [handler, setReg_setFlag, busWrite_setFlag, push_setFlag, pushWord_setFlag, pullWord_setFlag, jump_setFlag,
      setFlag_setFlag]

/-- The frame of a handler carries its independence from a flag to the whole instruction. -/
theorem runHandler_setFlag_forced {h : State → State}
    (hh : ∀ u : State, (h (u.setFlag f b)).setFlag f c = (h u).setFlag f c) (o : Operand) (e : Bool) :
    (runHandler o e h (s.setFlag f b)).setFlag f c = (runHandler o e h s).setFlag f c := by
  simp only [runHandler_eq_addCycles, resolve_setFlag, addCycles_setFlag, hh]

end

/-! ### The readers of R28 -/

/-- Settles O43: the flags R28 does not list an instruction for are not read by its handler, and by no resolver. -/
theorem onlyListedInstructionsReadAFlag : Obligations.OnlyListedInstructionsReadAFlag := by
  intro i s t f b hr hexec
  obtain rfl := exec_eq_next_iff.mp hexec
  have hf : f ∉ readFlags i.mnemonic := by
    intro hf
    apply hr
    clear hr hexec
    generalize i.mnemonic = m at hf ⊢
    revert f
    cases m <;> decide
  exact ⟨_, exec_eq_runHandler _ _,
    runHandler_setFlag_forced s b false (fun u => handler_setFlag_forced u b false hf) _ _⟩

end Sys2Proof.Proofs
end

section
/-! PROOFS. No instruction reads scratch that an earlier one left (10_state.md R33): after the resolver, a handler reads
only the scratch registers that the resolver, or its own `Fetch`, wrote. Two runs are compared once the operands are
closed, as the driver closes them at the end of the fetching pulse. -/

namespace Sys2Proof.Proofs

open Sys2Proof Sys2Proof.Machine

/-! ### The decoder answers well-formed instructions -/

theorem table_mode_allowed : ∀ op : Byte, (allowedModes (table op).mnemonic).contains (table op).mode = true := by
  set_option maxRecDepth 20000 in decide

theorem sinkSlots_contains_of_xxx : ∀ op : Byte, (table op).mnemonic = .xxx → sinkSlots.contains op = true := by
  set_option maxRecDepth 20000 in decide

/-- The decoder's instruction has its row's mode (R72). -/
@[simp] theorem operand_mode_instrOf (op b1 b2 : Byte) : (instrOf op b1 b2).operand.mode = (table op).mode := by
  have hallowed := table_mode_allowed op
  unfold instrOf
  cases hm : (table op).mnemonic <;> rw [hm] at hallowed
  case lda | ldx | ldy | sta | stx | sty | adc | sbc | and | ora | eor | bit | cmp | cpx | cpy | inc | dec | asl | lsr
      | rol | ror | jmp => exact mode_operandOf _ _ _
  all_goals
    simp only [allowedModes, List.contains_cons, List.contains_nil, Bool.or_false, beq_iff_eq] at hallowed
    rw [hallowed]
    rfl

/-- Every instruction that the decoder answers is one that the encoding admits (R72, R74). -/
theorem wellFormed_instrOf (op b1 b2 : Byte) : (instrOf op b1 b2).wellFormed = true := by
  have hop : (instrOf op b1 b2).opcodeFieldOk = true := by
    have hsink := sinkSlots_contains_of_xxx op
    unfold instrOf
    cases hm : (table op).mnemonic
    case xxx => exact hsink hm
    all_goals rfl
  rw [Instr.wellFormed, mnemonic_instrOf, operand_mode_instrOf, table_mode_allowed, hop]
  rfl

/-! ### Scratch registers -/

/-- `fetched` takes a byte (R31). -/
def setFetched (v : Byte) (s : State) : State := { s with fetched := v }

/-- `addr_abs` takes an address (R32). -/
def setAddrAbs (w : Word) (s : State) : State := { s with addrAbs := w }

/-- `addr_rel` takes a displacement (R32). -/
def setAddrRel (w : Word) (s : State) : State := { s with addrRel := w }

/-- The three operand registers at once. -/
def setScratch (v : Byte) (w r : Word) (s : State) : State := setFetched v (setAddrAbs w (setAddrRel r s))

theorem fetchOperand_setFetched (o : Operand) (v : Byte) (s : State) :
    fetchOperand o (setFetched v s) = fetchOperand o s := by
  cases o <;> rfl

theorem fetchOperand_setAddrRel (o : Operand) (w : Word) (s : State) :
    fetchOperand o (setAddrRel w s) = setAddrRel w (fetchOperand o s) := by
  cases o <;> rfl

theorem finishShift_setAddrRel (o : Operand) (c : Bool) (r : Byte) (w : Word) (s : State) :
    finishShift o c r (setAddrRel w s) = setAddrRel w (finishShift o c r s) := by
  cases o <;> rfl

/-! ### What a handler reads of them -/

/-- No handler reads `fetched` before its `Fetch` wrote it. -/
theorem handler_setFetched (i : Instr) (v : Byte) (s : State) :
    (handler i (setFetched v s)).closeOperands = (handler i s).closeOperands := by
  cases i
  case lda | ldx | ldy | adc | sbc | and | ora | eor | bit | cmp | cpx | cpy | inc | dec | asl | lsr | rol | ror =>
    simp only [handler, onOperand, fetchOperand_setFetched]
  all_goals rfl

/-- Only a branch, whose resolver wrote it, reads `addr_rel`. -/
theorem handler_setAddrRel {i : Instr} (h : i.operand.mode ≠ .rel) (w : Word) (s : State) :
    (handler i (setAddrRel w s)).closeOperands = (handler i s).closeOperands := by
  cases i
  case bcc | bcs | beq | bne | bmi | bpl | bvc | bvs => exact absurd rfl h
  case asl | lsr | rol | ror =>
    simp only [handler, onOperand, fetchOperand_setAddrRel, finishShift_setAddrRel]
    rfl
  case lda | ldx | ldy | adc | sbc | and | ora | eor | bit | cmp | cpx | cpy | inc | dec =>
    simp only [handler, onOperand, fetchOperand_setAddrRel]
    rfl
  all_goals rfl

/-- In modes IMP and REL, whose resolvers do not write it, no handler reads `addr_abs`. -/
theorem handler_setAddrAbs {i : Instr} (hwf : i.wellFormed = true) (h : i.operand.mode = .imp ∨ i.operand.mode = .rel)
    (w : Word) (s : State) : (handler i (setAddrAbs w s)).closeOperands = (handler i s).closeOperands := by
  have hallowed := (Bool.and_eq_true_iff.mp hwf).1
  cases i
  case asl o | lsr o | rol o | ror o =>
    cases o
    case imp => rfl
    case rel => exact absurd hallowed Bool.false_ne_true
    all_goals simp [Instr.operand, Operand.mode] at h
  case lda | ldx | ldy | sta | stx | sty | adc | sbc | and | ora | eor | bit | cmp | cpx | cpy | inc | dec | jmp
      | jsr =>
    rcases h with h | h <;> rw [h] at hallowed <;> exact absurd hallowed Bool.false_ne_true
  all_goals rfl

/-! ### The resolver writes the rest -/

/-- IMP writes `fetched`, REL `addr_rel`, every other mode `addr_abs`. -/
theorem resolve_setScratch (o : Operand) (v : Byte) (w r : Word) (s : State) :
    resolve o (setScratch v w r s) = ((resolve o s).1,
      match o.mode with
      | .imp => setAddrAbs w (setAddrRel r (resolve o s).2)
      | .rel => setFetched v (setAddrAbs w (resolve o s).2)
      | _ => setFetched v (setAddrRel r (resolve o s).2)) := by
  cases o <;> rfl

/-! ### The pulse -/

/-- The handler of a well-formed instruction, after its resolver, does not depend on the scratch before them. -/
theorem handler_resolve_setScratch {i : Instr} (hwf : i.wellFormed = true) (v : Byte) (w r : Word) (s : State) :
    (handler i (resolve i.operand (setScratch v w r s)).2).closeOperands =
      (handler i (resolve i.operand s).2).closeOperands := by
  rw [resolve_setScratch]
  cases hm : i.operand.mode
  case imp => rw [handler_setAddrAbs hwf (.inl hm), handler_setAddrRel (by simp [hm])]
  case rel => rw [handler_setFetched, handler_setAddrAbs hwf (.inr hm)]
  all_goals rw [handler_setFetched, handler_setAddrRel (by simp [hm])]

theorem closeOperands_addCycles (n : Nat) (s : State) :
    (addCycles n s).closeOperands = addCycles n s.closeOperands := rfl

/-- The end of the fetching pulse hides what scratch a well-formed instruction started with. -/
theorem finishFetchPulse_exec_setScratch {i : Instr} (hwf : i.wellFormed = true) (v : Byte) (w r : Word) (s : State) :
    finishFetchPulse (exec i (setScratch v w r s)) = finishFetchPulse (exec i s) := by
  have hsignal : (resolve i.operand (setScratch v w r s)).1 = (resolve i.operand s).1 := by rw [resolve_setScratch]
  simp only [exec_eq_runHandler, finishFetchPulse, runHandler_eq_addCycles, closeOperands_addCycles, hsignal,
    handler_resolve_setScratch hwf]

/-- The opcode fetch overwrites `opcode` (R91). -/
theorem fetchOpcode_of_sameButScratch {s t : State} (h : SameButScratch s t) :
    t.fetchOpcode = setScratch t.fetched t.addrAbs t.addrRel s.fetchOpcode := by
  rw [h]
  rfl

theorem fetchByte_setScratch (v : Byte) (w r : Word) (s : State) :
    (setScratch v w r s).fetchByte = (s.fetchByte.1, setScratch v w r s.fetchByte.2) := rfl

theorem opcode_setScratch (v : Byte) (w r : Word) (s : State) : (setScratch v w r s).opcode = s.opcode := rfl

/-- The fetch of the whole instruction carries the operand registers along (R91, R110). -/
theorem fetchInstr_of_sameButScratch {s t : State} (h : SameButScratch s t) :
    t.fetchInstr = (s.fetchInstr.1, setScratch t.fetched t.addrAbs t.addrRel s.fetchInstr.2) := by
  simp only [State.fetchInstr, fetchOpcode_of_sameButScratch h, opcode_setScratch, fetchByte_setScratch]
  generalize (table s.fetchOpcode.opcode).mode.operandBytes = bytes
  rcases bytes with _ | _ | _ <;> rfl

/-- Settles O54: both pulses fetch the same instruction, and its run depends on no scratch. -/
theorem noInstructionReadsStaleScratch : Obligations.NoInstructionReadsStaleScratch := by
  intro s t hs hsame
  have ht : t.cycles = 0 := (congrArg State.cycles hsame).trans hs
  obtain ⟨b1, b2, hi⟩ := fetchInstr_fst s
  have hwf : s.fetchInstr.1.wellFormed = true := hi ▸ wellFormed_instrOf _ b1 b2
  rw [step, step, if_pos hs, if_pos ht, fetchPulse, fetchPulse, fetchInstr_of_sameButScratch hsame]
  exact finishFetchPulse_exec_setScratch hwf _ _ _ _

end Sys2Proof.Proofs
end

section
/-! PROOFS. Memory behind the bus and its log: a byte written is read there (20_memory.md R51, R54), a pulse only adds
transactions to the log (R58), and a byte stored at PC is what the next fetch reads (R61). -/

namespace Sys2Proof.Proofs

open Sys2Proof Sys2Proof.Machine

/-! ### Memory -/

/-- Settles O7: the two clauses are the laws of `Memory.write` and the extensionality of canonical memories. -/
theorem memoryReadAfterWrite : Obligations.MemoryReadAfterWrite :=
  ⟨fun _ addr v hwf => ⟨Memory.wf_write v hwf addr.isLt, fun b => Memory.read_write v b hwf⟩,
    fun _ _ => Memory.ext_of_read⟩

/-! ### The bus log -/

theorem busLog_suffix_resolve (o : Operand) (s : State) : s.busLog <:+ (resolve o s).2.busLog := by
  obtain ⟨added, hlog, -⟩ := resolve_busLog o s
  exact ⟨added, hlog.symm⟩

theorem busLog_suffix_fetchOperand (o : Operand) (s : State) : s.busLog <:+ (fetchOperand o s).busLog :=
  ⟨_, (fetchOperand_busLog o s).symm⟩

theorem busLog_suffix_finishShift (o : Operand) (c : Bool) (v : Byte) (s : State) :
    s.busLog <:+ (finishShift o c v s).busLog := by
  by_cases ho : o = .imp
  · simp [finishShift, ho, writeBack_imp]
  · simp [finishShift, writeBack_memory ho]

/-- Every handler only adds transactions: `Fetch`'s read, a write, stack transfers, the reads of BRK's vector. -/
theorem busLog_suffix_handler (i : Instr) (s : State) : s.busLog <:+ (handler i s).busLog := by
  cases i
  case lda o | ldx o | ldy o | adc o | sbc o | and o | ora o | eor o | bit o | cmp o | cpx o | cpy o =>
    simpa [handler, onOperand] using busLog_suffix_fetchOperand o s
  case inc o | dec o =>
    exact (busLog_suffix_fetchOperand o s).trans (by simp [handler, onOperand])
  case asl o | lsr o | rol o | ror o =>
    exact (busLog_suffix_fetchOperand o s).trans (busLog_suffix_finishShift o _ _ _)
  case rts => exact ⟨[_, _], rfl⟩
  case brk => exact ⟨[_, _, _, _, _], rfl⟩
  case rti => exact ⟨[_, _, _], rfl⟩
  case jsr => exact ⟨[_, _], rfl⟩
  all_goals simp [handler]

/-- Every instruction only adds transactions to the log (R58). -/
theorem busLog_suffix_exec {i : Instr} {s t : State} (hexec : exec i s = .next t) : s.busLog <:+ t.busLog := by
  obtain rfl := exec_eq_next_iff.mp hexec
  rw [runHandler_busLog]
  exact (busLog_suffix_resolve i.operand s).trans (busLog_suffix_handler i _)

theorem exec_env {i : Instr} {s t : State} (hexec : exec i s = .next t) : t.env = s.env := by
  obtain rfl := exec_eq_next_iff.mp hexec
  rw [runHandler_env, handler_env, resolve_env]

/-- The fetch begins with the read of the opcode at PC (R91); operand bytes are read after it (R110). -/
theorem opcodeRead_suffix_fetchInstr (s : State) :
    .read s.pc (s.busAnswer s.pc) :: s.busLog <:+ s.fetchInstr.2.busLog := by
  unfold State.fetchInstr
  dsimp only
  split
  · exact ⟨[], rfl⟩
  · exact ⟨[_], rfl⟩
  · exact ⟨[_, _], rfl⟩

/-- Settles O55, by the two kinds of pulse: a countdown leaves the log alone, a fetching pulse adds the opcode read,
then the operand reads, then the instruction's own transactions. -/
theorem busLogOnlyGrows : Obligations.BusLogOnlyGrows := by
  intro s t hstep
  obtain ⟨hcycles, rfl⟩ | ⟨hcycles, u, hexec, rfl⟩ := step_cases hstep
  case inl => exact ⟨State.endPulse_env s, .inl ⟨Nat.pos_of_ne_zero hcycles, State.endPulse_busLog s⟩⟩
  case inr =>
    obtain ⟨added, hlog⟩ := (opcodeRead_suffix_fetchInstr s).trans (busLog_suffix_exec hexec)
    exact ⟨(exec_env hexec).trans (State.fetchInstr_env s), .inr ⟨hcycles, added, hlog.symm⟩⟩

/-! ### The fetch at an instruction boundary -/

theorem step_of_cycles_eq_zero {s : State} (h : s.cycles = 0) :
    step s = finishFetchPulse (exec s.fetchInstr.1 s.fetchInstr.2) := by
  rw [step, if_pos h, fetchPulse]

theorem fetchInstr_of_operandBytes_zero {s : State} (h : (table (s.busAnswer s.pc)).mode.operandBytes = 0) :
    s.fetchInstr = (instrOf (s.busAnswer s.pc) 0 0, s.fetchOpcode) := by
  simp only [State.fetchInstr, State.fetchOpcode_opcode, h]

theorem fetchInstr_of_operandBytes_one {s : State} (h : (table (s.busAnswer s.pc)).mode.operandBytes = 1) :
    s.fetchInstr = (instrOf (s.busAnswer s.pc) s.fetchOpcode.fetchByte.1 0, s.fetchOpcode.fetchByte.2) := by
  simp only [State.fetchInstr, State.fetchOpcode_opcode, h]

theorem fetchInstr_of_operandBytes_two {s : State} (h : (table (s.busAnswer s.pc)).mode.operandBytes = 2) :
    s.fetchInstr =
      (instrOf (s.busAnswer s.pc) s.fetchOpcode.fetchByte.1 s.fetchOpcode.fetchByte.2.fetchByte.1,
        s.fetchOpcode.fetchByte.2.fetchByte.2) := by
  simp only [State.fetchInstr, State.fetchOpcode_opcode, h]

theorem word_add_two (w : Word) : w + 2 = w + 1 + 1 := by rw [BitVec.add_assoc]; rfl

theorem word_add_three (w : Word) : w + 3 = w + 1 + 1 + 1 := by rw [BitVec.add_assoc, BitVec.add_assoc]; rfl

/-! ### A store, and the byte it leaves -/

/-- STA, STX and STY are one handler, the bus write of their register at `addr_abs` (R133 to R135). -/
theorem exec_store {o : Operand} {s : State} {p : Instr × Byte}
    (hp : p ∈ [(Instr.sta o, s.a), (.stx o, s.x), (.sty o, s.y)]) :
    exec p.1 s = .next (runHandler o false (fun u => u.busWrite u.addrAbs p.2) s) := by
  simp only [List.mem_cons, List.not_mem_nil, or_false] at hp
  rcases hp with rfl | rfl | rfl <;>
    simp [exec_eq_runHandler, runHandler, handler, Instr.operand, Instr.mnemonic, signalsExtra]

/-- Settles O60: the store leaves its byte at PC, so the boundary's opcode read answers it, and the fetch goes on by the
number of operand bytes of that byte's mode. -/
theorem storedByteIsSeenByTheNextFetch : Obligations.StoredByteIsSeenByTheNextFetch := by
  intro o s t hwf hdev haddr p hp _ hexec
  have ht := Host.Outcome.next.inj ((exec_store hp).symm.trans hexec)
  have hpc : t.pc = s.pc := by rw [← ht]; simp
  have henv : t.env = s.env := exec_env hexec
  have hpeek : t.peek s.pc = p.2 := by
    rw [← ht, ← haddr]
    exact peek_storing_handler o s (fun _ => p.2) hwf (haddr ▸ hdev)
  have hanswer : State.busAnswer { t with cycles := 0 } s.pc = p.2 :=
    (State.busAnswer_of_memory ((State.isDevice_congr henv s.pc).trans hdev)).trans hpeek
  dsimp only
  rw [← hpc] at hanswer ⊢
  rw [← henv, ← hanswer]
  refine ⟨rfl, fun h => ?none, fun h => ?one, fun h => ?two⟩
  case none => rw [step_of_cycles_eq_zero rfl, fetchInstr_of_operandBytes_zero h]; rfl
  case one => rw [step_of_cycles_eq_zero rfl, fetchInstr_of_operandBytes_one h, word_add_two]; rfl
  case two =>
    rw [step_of_cycles_eq_zero rfl, fetchInstr_of_operandBytes_two h, word_add_two, word_add_three]
    rfl

end Sys2Proof.Proofs
end

section
/-! PROOFS. The encoding (30_encoding.md): the dispatch table has a row for every byte (R72) and its sink rows are R74's;
the decoder answers exactly the lists that are long enough (R70, R71, R77); the encoder, written from the "Encoding"
lines of the instruction rules, and the decoder, written from the grid of R75, undo each other. -/

namespace Sys2Proof.Proofs

open Sys2Proof Sys2Proof.Machine

/-! ### Operands and their bytes -/

theorem eq_of_operandOf_eq_rel {m : Mode} {b1 b2 d : Byte} (h : m.operandOf b1 b2 = .rel d) : b1 = d := by
  cases m <;> cases h
  rfl

theorem eq_of_operandOf_eq_abs {m : Mode} {b1 b2 : Byte} {w : Word} (h : m.operandOf b1 b2 = .abs w) :
    mkWord b2 b1 = w := by
  cases m <;> cases h
  rfl

/-- The operand of a mode keeps every one of the mode's operand bytes, in their order (R53, R70). -/
theorem bytes_operandOf {m : Mode} {bs : List Byte} (h : bs.length = m.operandBytes) :
    (m.operandOf (bs.getD 0 0) (bs.getD 1 0)).bytes = bs := by
  cases m
  case imp => exact (List.length_eq_zero_iff.mp h).symm
  case abs | abx | aby | ind =>
    obtain ⟨b1, b2, rfl⟩ := List.length_eq_two.mp h
    simp [Mode.operandOf, Operand.bytes]
  all_goals
    obtain ⟨b1, rfl⟩ := List.length_eq_one_iff.mp h
    rfl

/-! ### The instruction of a row -/

/-- The decoder's instruction has the operand of its row's mode (R72). -/
@[simp] theorem operand_instrOf (op b1 b2 : Byte) :
    (instrOf op b1 b2).operand = (table op).mode.operandOf b1 b2 := by
  have hallowed := table_mode_allowed op
  unfold instrOf
  cases hm : (table op).mnemonic <;> rw [hm] at hallowed
  case lda | ldx | ldy | sta | stx | sty | adc | sbc | and | ora | eor | bit | cmp | cpx | cpy | inc | dec | asl | lsr
      | rol | ror | jmp => rfl
  all_goals
    simp only [allowedModes, List.contains_cons, List.contains_nil, Bool.or_false, beq_iff_eq] at hallowed
    rw [hallowed]
    rfl

theorem instrOf_of_xxx {op : Byte} (h : (table op).mnemonic = .xxx) (b1 b2 : Byte) : instrOf op b1 b2 = .xxx op := by
  unfold instrOf
  rw [h]

/-- A row with the mnemonic of an instruction, and bytes that make its operand, decode to it; a sink is told apart from
the other sinks by its opcode alone (R74). -/
theorem instrOf_eq {i : Instr} {op b1 b2 : Byte} (hopcode : i.opcodeOf = some op)
    (hmnemonic : (table op).mnemonic = i.mnemonic) (hoperand : (table op).mode.operandOf b1 b2 = i.operand) :
    instrOf op b1 b2 = i := by
  unfold instrOf
  dsimp only
  rw [hmnemonic, hoperand]
  cases i
  case bcc | bcs | beq | bne | bmi | bpl | bvc | bvs => exact congrArg _ (eq_of_operandOf_eq_rel hoperand)
  case jsr => exact congrArg _ (eq_of_operandOf_eq_abs hoperand)
  case xxx => exact congrArg _ (Option.some.inj hopcode).symm
  all_goals rfl

/-! ### The opcode of an instruction -/

/-- Outside the sink, the opcode comes from the "Encoding" line of the instruction's rule. -/
theorem opcodeOf_of_mnemonic_ne_xxx {i : Instr} (h : i.mnemonic ≠ .xxx) :
    i.opcodeOf = ((encodings i.mnemonic).find? (fun e => e.2.1 == i.operand.mode)).map (·.1) := by
  cases i
  case xxx => exact absurd rfl h
  all_goals rfl

/-- The "Encoding" lines give every documented slot of the grid its own opcode back (R75). -/
theorem find_encodings_table : ∀ op : Byte, (table op).mnemonic ≠ .xxx →
    ((encodings (table op).mnemonic).find? (fun e => e.2.1 == (table op).mode)).map (·.1) = some op := by
  set_option maxRecDepth 20000 in decide

@[simp] theorem opcodeOf_instrOf (op b1 b2 : Byte) : (instrOf op b1 b2).opcodeOf = some op := by
  by_cases hsink : (table op).mnemonic = .xxx
  · rw [instrOf_of_xxx hsink]
    rfl
  · rw [opcodeOf_of_mnemonic_ne_xxx (by simpa using hsink), mnemonic_instrOf, operand_mode_instrOf]
    exact find_encodings_table op hsink

/-- The laws of the family OpcodeRow together. -/
theorem opcodeRow : ∀ i : Instr, Laws.OpcodeRow.Statement i
  | .lda o => Laws.OpcodeRow.lda o | .ldx o => Laws.OpcodeRow.ldx o | .ldy o => Laws.OpcodeRow.ldy o
  | .sta o => Laws.OpcodeRow.sta o | .stx o => Laws.OpcodeRow.stx o | .sty o => Laws.OpcodeRow.sty o
  | .tax => Laws.OpcodeRow.tax | .tay => Laws.OpcodeRow.tay | .tsx => Laws.OpcodeRow.tsx
  | .txa => Laws.OpcodeRow.txa | .txs => Laws.OpcodeRow.txs | .tya => Laws.OpcodeRow.tya
  | .adc o => Laws.OpcodeRow.adc o | .sbc o => Laws.OpcodeRow.sbc o | .and o => Laws.OpcodeRow.and o
  | .ora o => Laws.OpcodeRow.ora o | .eor o => Laws.OpcodeRow.eor o | .bit o => Laws.OpcodeRow.bit o
  | .cmp o => Laws.OpcodeRow.cmp o | .cpx o => Laws.OpcodeRow.cpx o | .cpy o => Laws.OpcodeRow.cpy o
  | .inc o => Laws.OpcodeRow.inc o | .dec o => Laws.OpcodeRow.dec o
  | .inx => Laws.OpcodeRow.inx | .iny => Laws.OpcodeRow.iny | .dex => Laws.OpcodeRow.dex | .dey => Laws.OpcodeRow.dey
  | .asl o => Laws.OpcodeRow.asl o | .lsr o => Laws.OpcodeRow.lsr o
  | .rol o => Laws.OpcodeRow.rol o | .ror o => Laws.OpcodeRow.ror o
  | .bcc d => Laws.OpcodeRow.bcc d | .bcs d => Laws.OpcodeRow.bcs d | .beq d => Laws.OpcodeRow.beq d
  | .bne d => Laws.OpcodeRow.bne d | .bmi d => Laws.OpcodeRow.bmi d | .bpl d => Laws.OpcodeRow.bpl d
  | .bvc d => Laws.OpcodeRow.bvc d | .bvs d => Laws.OpcodeRow.bvs d
  | .jmp o => Laws.OpcodeRow.jmp o | .jsr a => Laws.OpcodeRow.jsr a
  | .rts => Laws.OpcodeRow.rts | .brk => Laws.OpcodeRow.brk | .rti => Laws.OpcodeRow.rti
  | .pha => Laws.OpcodeRow.pha | .php => Laws.OpcodeRow.php | .pla => Laws.OpcodeRow.pla | .plp => Laws.OpcodeRow.plp
  | .clc => Laws.OpcodeRow.clc | .sec => Laws.OpcodeRow.sec | .cld => Laws.OpcodeRow.cld | .sed => Laws.OpcodeRow.sed
  | .cli => Laws.OpcodeRow.cli | .sei => Laws.OpcodeRow.sei | .clv => Laws.OpcodeRow.clv | .nop => Laws.OpcodeRow.nop
  | .xxx op => Laws.OpcodeRow.xxx op

/-! ### Encoding -/

theorem encode_of_opcodeOf {i : Instr} {op : Byte} (h : i.opcodeOf = some op) : encode i = op :: i.operand.bytes := by
  rw [encode, h]

/-- Encoding what the decoder built from an opcode and its operand bytes gives these bytes back. -/
theorem encode_instrOf {op : Byte} {bs : List Byte} (h : bs.length = (table op).mode.operandBytes) :
    encode (instrOf op (bs.getD 0 0) (bs.getD 1 0)) = op :: bs := by
  rw [encode_of_opcodeOf (opcodeOf_instrOf _ _ _), operand_instrOf, bytes_operandOf h]

/-! ### Decoding -/

/-- The decoder accepts exactly an opcode and its operand bytes, and answers what follows them (R70, R71). -/
theorem decode_eq_ok_iff {bytes rest : List Byte} {i : Instr} :
    decode bytes = .ok (i, rest) ↔ ∃ op bs, bs.length = (table op).mode.operandBytes ∧ bytes = op :: (bs ++ rest) ∧
      i = instrOf op (bs.getD 0 0) (bs.getD 1 0) := by
  constructor
  case mp =>
    intro h
    unfold decode at h
    split at h
    case h_1 => cases h
    case h_2 op tail =>
      split at h
      case h_1 hlen => cases h; exact ⟨op, [], hlen.symm, rfl, rfl⟩
      case h_2 b1 _ hlen => cases h; exact ⟨op, [b1], hlen.symm, rfl, rfl⟩
      case h_3 b1 b2 _ hlen => cases h; exact ⟨op, [b1, b2], hlen.symm, rfl, rfl⟩
      case h_4 => cases h
  case mpr =>
    rintro ⟨op, bs, hlen, rfl, rfl⟩
    exact decode_cons_append op bs rest hlen

/-- Settles O1: the encoder's opcode selects the instruction's own row, and the operand's bytes make its operand. -/
theorem decodeOfEncodeIsTheInstruction : Obligations.DecodeOfEncodeIsTheInstruction := by
  intro i rest hwf
  obtain ⟨op, hopcode, hmnemonic, hmode⟩ := opcodeRow i hwf
  have hoperand : (table op).mode.operandOf (i.operand.bytes.getD 0 0) (i.operand.bytes.getD 1 0) = i.operand := by
    rw [hmode, operandOf_bytes]
  have hlen : i.operand.bytes.length = (table op).mode.operandBytes := by rw [hmode, length_operandBytes]
  rw [encode_of_opcodeOf hopcode, List.cons_append, decode_cons_append op _ rest hlen,
    instrOf_eq hopcode hmnemonic hoperand]

/-- Settles O2: the accepted list is an opcode, its operand bytes and the rest, and the encoder gives the first two
back. -/
theorem encodeOfDecodeIsTheBytes : Obligations.EncodeOfDecodeIsTheBytes := by
  intro bytes rest i hdecode
  obtain ⟨op, bs, hlen, rfl, rfl⟩ := decode_eq_ok_iff.mp hdecode
  exact ⟨wellFormed_instrOf op _ _, by rw [encode_instrOf hlen, List.cons_append]⟩

/-- Settles O3: what follows the opcode splits after its operand bytes exactly when there are that many. -/
theorem decodeRejectsOnlyByteListsThatEndTooEarly : Obligations.DecodeRejectsOnlyByteListsThatEndTooEarly := by
  intro bytes
  constructor
  case mp =>
    rintro ⟨i, rest, hdecode⟩
    obtain ⟨op, bs, hlen, rfl, -⟩ := decode_eq_ok_iff.mp hdecode
    exact ⟨op, bs ++ rest, rfl, by rw [← hlen, List.length_append]; exact Nat.le_add_right _ _⟩
  case mpr =>
    rintro ⟨op, operands, rfl, hle⟩
    exact ⟨_, _, decode_eq_ok_iff.mpr ⟨op, operands.take _, List.length_take_of_le hle,
      by rw [List.take_append_drop], rfl⟩⟩

/-- Settles O4: the decoder, run on each word. -/
theorem specWordsDecodeToTheirInstructions : Obligations.SpecWordsDecodeToTheirInstructions :=
  ⟨rfl, rfl, rfl, rfl, rfl, rfl, rfl, rfl, rfl, rfl, rfl, rfl, rfl⟩

/-! ### The rows of the table -/

/-- A documented row's base count is in 1..7 (R72). -/
theorem table_base_bounds : ∀ op : Byte, ∀ n ∈ (table op).base, 1 ≤ n ∧ n ≤ 7 := by
  set_option maxRecDepth 20000 in decide

theorem one_le_illegalCycles (e : Env) (op : Byte) : 1 ≤ e.illegalCycles op := by
  unfold Env.illegalCycles
  split <;> omega

theorem baseCycles_of_base_some {op : Byte} {n : Nat} (h : (table op).base = some n) (e : Env) :
    e.baseCycles op = n := by
  simp only [Env.baseCycles, h]

theorem baseCycles_of_base_none {op : Byte} (h : (table op).base = none) (e : Env) :
    e.baseCycles op = e.illegalCycles op := by
  simp only [Env.baseCycles, h]

/-- Every base count is in 1..7: the row's own, or the parameter's (R72, R74). -/
theorem baseCycles_bounds (e : Env) (op : Byte) : 1 ≤ e.baseCycles op ∧ e.baseCycles op ≤ 7 := by
  cases hbase : (table op).base
  case none =>
    rw [baseCycles_of_base_none hbase]
    exact ⟨one_le_illegalCycles e op, illegalCycles_le e op⟩
  case some n =>
    rw [baseCycles_of_base_some hbase]
    exact table_base_bounds op n hbase

/-- Settles O5: the row's base count, and the decoder's instruction with its row's mnemonic and operand. -/
theorem everyOpcodeSelectsADefinedRow : Obligations.EveryOpcodeSelectsADefinedRow := by
  intro op b1 b2 e
  obtain ⟨hlow, hhigh⟩ := baseCycles_bounds e op
  exact ⟨hlow, hhigh, wellFormed_instrOf op b1 b2, mnemonic_instrOf op b1 b2, operand_instrOf op b1 b2⟩

theorem table_eq_sinkRow_iff (op : Byte) : table op = sinkRow ↔ op ∈ sinkSlots := by
  rw [← List.contains_iff_mem]
  exact ⟨fun h => sinkSlots_contains_of_xxx op (congrArg Row.mnemonic h), table_sinkSlot op⟩

theorem nodup_sinkSlots : sinkSlots.Nodup := by
  set_option maxRecDepth 20000 in decide

/-- Settles O6: the table's sink rows are the slots of R74's list, and a sink row leaves its count to the parameter. -/
theorem exactlyTheSinkSlotsSelectTheSink : Obligations.ExactlyTheSinkSlotsSelectTheSink := by
  refine ⟨table_eq_sinkRow_iff, rfl, nodup_sinkSlots, fun op e hsink => ?cost⟩
  exact baseCycles_of_base_none (congrArg Row.base ((table_eq_sinkRow_iff op).mpr hsink)) e

end Sys2Proof.Proofs
end

section
/-! PROOFS. The execution cycle (40_execution_cycle.md): what a pulse is at a boundary and in a countdown (R90, R97),
the fetch through the bus (R91), the cost of an instruction (R94, R95, R98), and the instruction-level step as a number
of pulses (R102). -/

namespace Sys2Proof.Proofs

open Sys2Proof Sys2Proof.Machine

/-! ### The two kinds of pulse -/

theorem step_of_cycles_pos {s : State} (h : 0 < s.cycles) : step s = .next s.endPulse := by
  rw [step, if_neg (Nat.ne_of_gt h)]

/-- Settles O44: a countdown pulse only counts, and on a fetching pulse the instruction, whichever it is, completes. -/
theorem everyPulseAnswersANextState : Obligations.EveryPulseAnswersANextState := by
  intro s
  rcases Nat.eq_zero_or_pos s.cycles with hfetch | hcount
  · exact ⟨_, by rw [step_of_cycles_eq_zero hfetch, exec_eq_runHandler, finishFetchPulse]⟩
  · exact ⟨_, step_of_cycles_pos hcount⟩

/-- Settles O52: the countdown pulse is `endPulse`, which gives up `opcode` only when the count reaches 0. -/
theorem countdownPulseOnlyCounts : Obligations.CountdownPulseOnlyCounts := by
  intro s hcount
  refine ⟨s.endPulse, step_of_cycles_pos hcount, State.endPulse_cycles s, rfl, fun hmore => ?kept⟩
  have hleft : s.cycles - 1 ≠ 0 := by omega
  exact ⟨if_neg hleft, if_neg hleft⟩

/-! ### The countdown as a run of pulses -/

@[simp] theorem countDown_cycles (n : Nat) (s : State) : (State.countDown n s).cycles = s.cycles - n := by
  induction n generalizing s with
  | zero => rfl
  | succ n ih => rw [State.countDown, ih, State.endPulse_cycles, Nat.sub_sub, Nat.add_comm]

/-- A countdown keeps everything but the count, the `opcode` scratch and the model's own counter (R97, R100). -/
theorem countDown_frame (n : Nat) (s : State) : State.countDown n s =
    { s with
      cycles := (State.countDown n s).cycles
      opcode := (State.countDown n s).opcode
      freeCount := (State.countDown n s).freeCount } := by
  induction n generalizing s with
  | zero => rfl
  | succ n ih => exact ih s.endPulse

/-- A run whose first step has a next state goes on from there. -/
theorem run_succ_of_step {M : Host.Core} {s t : M.State} (h : M.step s = .next t) (k : Nat) :
    M.run (k + 1) s = M.run k t := by
  rw [Host.Core.run, h]

/-- As long as the count lasts, pulses are the countdown (R97). -/
theorem run_eq_countDown {k : Nat} {s : State} (h : k ≤ s.cycles) :
    Host.Core.run core k s = .next (State.countDown k s) := by
  induction k generalizing s with
  | zero => rfl
  | succ k ih =>
    have hrest : k ≤ s.endPulse.cycles := by rw [State.endPulse_cycles]; omega
    exact (run_succ_of_step (M := core) (step_of_cycles_pos (by omega)) k).trans (ih hrest)

theorem execInstruction_of_step {s t : State} (h0 : s.cycles = 0) (h : step s = .next t) :
    execInstruction s = .next (State.countDown t.cycles t) := by
  rw [step, if_pos h0] at h
  rw [execInstruction, h]

/-- Settles O53: after the first pulse, both the run of pulses and the instruction-level step are the countdown. -/
theorem pulsesAgreeWithTheInstructionStep : Obligations.PulsesAgreeWithTheInstructionStep := by
  intro s t h0 hstep
  have hrun {k : Nat} (hk : k ≤ t.cycles) : Host.Core.run core (k + 1) s = .next (State.countDown k t) :=
    (run_succ_of_step (M := core) hstep k).trans (run_eq_countDown hk)
  have hend : (State.countDown t.cycles t).cycles = 0 := by rw [countDown_cycles, Nat.sub_self]
  refine ⟨fun k hk => ⟨_, hrun hk, countDown_cycles k t⟩,
    _, hrun (Nat.le_refl _), execInstruction_of_step h0 hstep, hend, ?frame⟩
  have hframe := countDown_frame t.cycles t
  rwa [hend] at hframe

/-! ### The fetch -/

/-- Settles O51: the fetch of one, two or three bytes, by the operand bytes of the opcode's mode. -/
theorem stepFetchesThroughTheBus : Obligations.StepFetchesThroughTheBus := by
  intro s h0
  dsimp only
  rw [step_of_cycles_eq_zero h0, word_add_three, word_add_two]
  refine ⟨fun h => ?none, fun h => ?one, fun h => ?two⟩
  case none => rw [fetchInstr_of_operandBytes_zero h]; rfl
  case one => rw [fetchInstr_of_operandBytes_one h]; rfl
  case two => rw [fetchInstr_of_operandBytes_two h]; rfl

/-- Settles O50: outside device windows each answer of the bus is memory's byte, and the decoder takes from the three
bytes as many as the fetch reads. -/
theorem stepRunsTheDecodedInstruction : Obligations.StepRunsTheDecodedInstruction := by
  intro s i rest h0 hdev0 hdev1 hdev2 hdecode
  obtain ⟨op, bs, hlen, hbytes, rfl⟩ := decode_eq_ok_iff.mp hdecode
  obtain ⟨rfl, htail⟩ := List.cons.inj hbytes
  have hanswer0 : s.busAnswer s.pc = s.peek s.pc := State.busAnswer_of_memory hdev0
  have hanswer1 : (s.afterRead s.pc).busAnswer (s.pc + 1) = s.peek (s.pc + 1) := State.busAnswer_of_memory hdev1
  have hanswer2 : ((s.afterRead s.pc).afterRead (s.pc + 1)).busAnswer (s.pc + 2) = s.peek (s.pc + 2) :=
    State.busAnswer_of_memory hdev2
  obtain ⟨hnone, hone, htwo⟩ := stepFetchesThroughTheBus s h0
  rw [hanswer0] at hnone hone htwo
  rw [hanswer1] at hone htwo
  rw [hanswer2] at htwo
  rcases bs with _ | ⟨b1, _ | ⟨b2, _ | ⟨b3, bs⟩⟩⟩
  · cases htail
    exact hnone hlen.symm
  · cases htail
    exact hone hlen.symm
  · cases htail
    exact htwo hlen.symm
  · simp at htail

/-! ### The cost of an instruction -/

theorem signalsExtra_iff (m : Mnemonic) :
    signalsExtra m = true ↔ m ∈ [.adc, .and, .cmp, .eor, .lda, .ldx, .ldy, .ora, .sbc] := by
  cases m <;> decide

/-- A branch is taken when its flag has its value (R191 to R198). -/
theorem handler_of_branch {i : Instr} {f : Flag} {v : Bool} (h : branchCondition i.mnemonic = some (f, v))
    (s : State) : handler i s = s.branch (s.flag f == v) := by
  cases i
  case bcc | bcs | beq | bne | bmi | bpl | bvc | bvs =>
    cases h
    simp [handler]
  all_goals cases h

/-- No other handler counts cycles of its own. -/
theorem handler_cycles_of_not_branch {i : Instr} (h : branchCondition i.mnemonic = none) (s : State) :
    (handler i s).cycles = s.cycles := by
  cases i
  case bcc | bcs | beq | bne | bmi | bpl | bvc | bvs => cases h
  all_goals simp [handler, onOperand]

/-- A taken branch adds 1, and 1 more when it leaves the page of the next instruction (R95, R190). -/
theorem branch_cycles (s : State) (c : Bool) :
    (s.branch c).cycles = s.cycles + if c then (if page (s.branch c).pc = page s.pc then 1 else 2) else 0 := by
  cases c
  case false => rfl
  case true =>
    by_cases hpage : page (s.pc + s.addrRel) = page s.pc
    · simp [State.branch, pageCross, hpage]
    · have hcross : pageCross (s.pc + s.addrRel) s.pc = true := bne_iff_ne.mpr hpage
      simp [State.branch, hcross, hpage]

/-- Settles O42: the frame adds the signalled cycle, and of the handlers only a branch adds more. -/
theorem extraCyclesOfEveryInstruction : Obligations.ExtraCyclesOfEveryInstruction := by
  intro i s t _ hexec
  obtain rfl := exec_eq_next_iff.mp hexec
  refine ⟨fun hsignal => by simpa using resolve_signal hsignal, ?cycles⟩
  have hextra : ((resolve i.operand s).1 && signalsExtra i.mnemonic).toNat =
      if i.mnemonic ∈ [.adc, .and, .cmp, .eor, .lda, .ldx, .ldy, .ora, .sbc] ∧ (resolve i.operand s).1 = true
        then 1 else 0 := by
    simp only [← signalsExtra_iff, Bool.toNat, cond_eq_ite, Bool.and_eq_true, and_comm]
  rw [runHandler_cycles, hextra, runHandler_pc, Nat.add_right_comm s.cycles]
  congr 1
  cases hbranch : branchCondition i.mnemonic with
  | none => rw [handler_cycles_of_not_branch hbranch, resolve_cycles]; rfl
  | some c =>
    rw [handler_of_branch hbranch, branch_cycles]
    simp only [resolve_cycles, resolve_flag, resolve_pc, beq_iff_eq]

/-- Settles O46: the fetched instruction starts at its base count, at least 1, completes at that count with its extra
cycles, and the pulse takes one off. -/
theorem fetchPulseLeavesTheCostMinusOne : Obligations.FetchPulseLeavesTheCostMinusOne := by
  intro s t h0 hstep
  obtain ⟨hne, -⟩ | ⟨-, u, hexec, rfl⟩ := step_cases hstep
  case inl => exact absurd h0 hne
  case inr =>
    obtain ⟨b1, b2, hi⟩ := fetchInstr_fst s
    have hwf : s.fetchInstr.1.wellFormed = true := hi ▸ wellFormed_instrOf _ b1 b2
    obtain ⟨-, hcost⟩ := extraCyclesOfEveryInstruction _ _ _ hwf hexec
    simp only [State.fetchInstr_flag, State.fetchInstr_cycles] at hcost
    have hbase := (baseCycles_bounds s.env (s.busAnswer s.pc)).1
    have hmax := exec_fetchInstr_cycles_le hexec
    have hcount : u.closeOperands.endPulse.cycles + 1 = u.cycles := by
      rw [State.endPulse_cycles, State.closeOperands_cycles]
      omega
    dsimp only
    rw [hcount]
    exact ⟨hcost, hmax⟩

end Sys2Proof.Proofs
end

section
/-! PROOFS. The addressing-mode resolvers (41_addressing_modes.md R111 to R122): the numbers behind their addresses,
the modes without a pointer, the indexed modes, and the two pointer reads of IND, IZX and IZY. -/

namespace Sys2Proof.Proofs

open Sys2Proof Sys2Proof.Machine

/-! ### The numbers behind the addresses -/

/-- An index is added modulo 65536 (R8, R118). -/
theorem toNat_add_zext16 (base : Word) (index : Byte) :
    (base + zext16 index).toNat = (base.toNat + index.toNat) % 65536 := by
  rw [BitVec.toNat_add, toNat_zext16]

/-- A displacement with bit 7 set is 256 less than its byte (R116). -/
theorem toNat_sext16 (d : Byte) : (sext16 d).toNat = if d.getLsbD 7 then d.toNat + 0xFF00 else d.toNat := by
  have hzext : (d.setWidth 16).toNat = d.toNat := toNat_zext16 d
  rw [sext16, BitVec.toNat_signExtend, hzext, BitVec.msb_eq_getLsbD_last]
  show d.toNat + (if d.getLsbD 7 then 0xFF00 else 0) = _
  split <;> rfl

/-- The address in page 0 that a byte names (R8). -/
theorem eq_zext16_of_toNat_eq {p : Word} {b : Byte} (h : p.toNat = b.toNat) : p = zext16 b :=
  BitVec.eq_of_toNat_eq (h.trans (toNat_zext16 b).symm)

/-- The start of a page, as R120's mask computes it. -/
theorem and_ff00_eq_mkWord (w : Word) : w &&& 0xFF00 = mkWord (hiByte w) 0 := by
  have hmask : ∀ k < 16, (0xFF00 : Word).getLsbD k = decide (8 ≤ k) := by decide
  apply BitVec.eq_of_getLsbD_eq
  intro k hk
  rw [BitVec.getLsbD_and, hmask k hk, mkWord, hiByte, BitVec.getLsbD_append, BitVec.getLsbD_extractLsb']
  by_cases h : k < 8
  · simp [h]
  · simp [h, show k - 8 < 8 by omega, show 8 + (k - 8) = k by omega, show 8 ≤ k by omega]

/-- Where IND's second read goes: the next address, which wraps inside the pointer's page (R120). -/
theorem toNat_secondPointerAddr (ptr : Word) :
    (if loByte ptr = 0xFF then ptr &&& 0xFF00 else ptr + 1).toNat =
      if ptr.toNat % 256 = 0xFF then ptr.toNat - 0xFF else ptr.toNat + 1 := by
  have hlo : loByte ptr = 0xFF ↔ ptr.toNat % 256 = 0xFF := by
    rw [← BitVec.toNat_inj, toNat_loByte]; rfl
  simp only [hlo]
  split
  case isTrue h =>
    rw [and_ff00_eq_mkWord, toNat_mkWord, toNat_hiByte]
    show ptr.toNat / 256 * 256 + 0 = _
    omega
  case isFalse h =>
    have hlt := ptr.isLt
    rw [BitVec.toNat_add]
    show (ptr.toNat + 1) % 65536 = _
    omega

/-! ### Modes without a pointer -/

/-- Settles O10: each mode is one arm of the resolver, and its address or displacement has the number R113 to R116
give it. -/
theorem directModesResolve : Obligations.DirectModesResolve := by
  intro s b w
  refine ⟨rfl, rfl, ⟨_, rfl, ?zp0⟩, ⟨_, rfl, ?zpx⟩, ⟨_, rfl, ?zpy⟩, ⟨_, rfl, ?rel⟩, rfl⟩
  case zp0 => exact toNat_zext16 b
  case zpx => rw [toNat_zext16, BitVec.toNat_add]
  case zpy => rw [toNat_zext16, BitVec.toNat_add]
  case rel => exact toNat_sext16 b

/-- Settles O11: ABX and ABY add their index to the base, and the signal is a comparison of the two pages. -/
theorem indexedAbsoluteModesSignalPageCross : Obligations.IndexedAbsoluteModesSignalPageCross :=
  fun s base =>
    ⟨⟨_, rfl, toNat_add_zext16 base s.x, pageCross_iff _ base⟩,
      ⟨_, rfl, toNat_add_zext16 base s.y, pageCross_iff _ base⟩⟩

/-! ### Modes with a pointer -/

/-- Settles O12: the second read's address is the one R120 gives. -/
theorem indirectModeWrapsInsideThePointersPage : Obligations.IndirectModeWrapsInsideThePointersPage := by
  intro s ptr second hsecond
  obtain rfl := BitVec.eq_of_toNat_eq (hsecond.trans (toNat_secondPointerAddr ptr).symm)
  exact ⟨_, _, rfl, rfl, _, toNat_mkWord _ _, rfl⟩

/-- Settles O13: both pointer addresses are bytes, so both lie in page 0. -/
theorem indexedIndirectPointerStaysInZeroPage : Obligations.IndexedIndirectPointerStaysInZeroPage := by
  intro s t p0 p1 h0 h1
  obtain rfl : p0 = zext16 (t + s.x) := eq_zext16_of_toNat_eq (by rw [h0, BitVec.toNat_add])
  obtain rfl : p1 = zext16 (t + s.x + 1) :=
    eq_zext16_of_toNat_eq (by rw [h1, BitVec.toNat_add, BitVec.toNat_add]; exact (Nat.mod_add_mod _ _ _).symm)
  exact ⟨_, _, rfl, rfl, _, toNat_mkWord _ _, rfl⟩

/-- Settles O14: the pointer comes from page 0, and the signal compares the page of pointer plus Y with the pointer's,
which is the pointer's high byte. -/
theorem indirectIndexedAddsYAndSignalsPageCross : Obligations.IndirectIndexedAddsYAndSignalsPageCross := by
  intro s t p0 p1 h0 h1
  obtain rfl := eq_zext16_of_toNat_eq h0
  obtain rfl : p1 = zext16 (t + 1) := eq_zext16_of_toNat_eq (by rw [h1, BitVec.toNat_add]; rfl)
  refine ⟨_, _, rfl, rfl, _, ?addr, rfl, ?signal⟩
  case addr => rw [toNat_add_zext16, toNat_mkWord, State.busRead_fst, State.busRead_snd, State.busRead_fst]
  case signal =>
    refine (pageCross_iff _ _).trans ?_
    rw [← toNat_hiByte (mkWord _ _), hiByte_mkWord, State.busRead_fst, State.busRead_snd]

end Sys2Proof.Proofs
end

section
/-! PROOFS. How many bus transactions an instruction makes after its own bytes are read (41_addressing_modes.md R123,
40_execution_cycle.md R96): the resolver's pointer reads, then the handler's own. -/

namespace Sys2Proof.Proofs

open Sys2Proof Sys2Proof.Machine

/-! ### Counting the transactions between two logs -/

/-- A transaction that is a read (R10). -/
def isRead : BusEvent → Bool
  | .read _ _ => true
  | .write _ _ => false

/-- The log grew by this many reads and this many writes. -/
def LogGrows (reads writes : Nat) (before after : List BusEvent) : Prop :=
  ∃ added, after = added ++ before ∧ (added.filter isRead).length = reads ∧
    (added.filter fun e => !isRead e).length = writes

theorem LogGrows.of_eq {before after : List BusEvent} (h : after = before) : LogGrows 0 0 before after :=
  ⟨[], h, rfl, rfl⟩

theorem LogGrows.read (addr : Word) (v : Byte) (log : List BusEvent) : LogGrows 1 0 log (.read addr v :: log) :=
  ⟨[_], rfl, rfl, rfl⟩

theorem LogGrows.write (addr : Word) (v : Byte) (log : List BusEvent) : LogGrows 0 1 log (.write addr v :: log) :=
  ⟨[_], rfl, rfl, rfl⟩

theorem LogGrows.trans {r₁ w₁ r₂ w₂ : Nat} {l₁ l₂ l₃ : List BusEvent} (h₁ : LogGrows r₁ w₁ l₁ l₂)
    (h₂ : LogGrows r₂ w₂ l₂ l₃) : LogGrows (r₁ + r₂) (w₁ + w₂) l₁ l₃ := by
  obtain ⟨added₁, rfl, rfl, rfl⟩ := h₁
  obtain ⟨added₂, rfl, rfl, rfl⟩ := h₂
  exact ⟨added₂ ++ added₁, by simp, by simp [Nat.add_comm], by simp [Nat.add_comm]⟩

/-! ### The parts of an instruction -/

/-- The resolver's pointer reads (R123). -/
def pointerReads (m : Mode) : Nat := if m ∈ [.ind, .izx, .izy] then 2 else 0

/-- `Fetch`'s read: none in mode IMP, and in mode IMM the fetch of the instruction made it (R96). -/
def fetchReads (m : Mode) : Nat := if m ≠ .imp ∧ m ≠ .imm then 1 else 0

/-- The write of `WriteBack`: none in mode IMP, which writes A (R180). -/
def writeBackWrites (m : Mode) : Nat := if m = .imp then 0 else 1

theorem logGrows_resolve (o : Operand) (s : State) :
    LogGrows (pointerReads o.mode) 0 s.busLog (resolve o s).2.busLog := by
  obtain ⟨added, hlog, hlen, hreads⟩ := resolve_busLog o s
  have hread : ∀ e ∈ added, isRead e = true := by
    intro e he
    obtain ⟨a, v, rfl⟩ := hreads e he
    rfl
  refine ⟨added, hlog, ?reads, ?writes⟩
  case reads => rw [List.filter_eq_self.mpr hread, hlen, pointerReads]
  case writes => simpa using hread

theorem logGrows_fetchOperand (o : Operand) (s : State) :
    LogGrows (fetchReads o.mode) 0 s.busLog (fetchOperand o s).busLog := by
  cases o
  case imp => exact .of_eq rfl
  case imm => exact .of_eq rfl
  all_goals exact .read _ _ _

theorem logGrows_finishShift (o : Operand) (c : Bool) (v : Byte) (s : State) :
    LogGrows 0 (writeBackWrites o.mode) s.busLog (finishShift o c v s).busLog := by
  cases o
  case imp => exact .of_eq rfl
  all_goals exact .write _ _ _

/-! ### The handlers -/

/-- A handler that begins with `Fetch` adds its read, then the writes of the rest. -/
theorem logGrows_onOperand {writes : Nat} {rest : State → Byte → State}
    (h : ∀ s m, LogGrows 0 writes s.busLog (rest s m).busLog) (o : Operand) (s : State) :
    LogGrows (fetchReads o.mode) writes s.busLog (onOperand o rest s).busLog := by
  rw [← Nat.zero_add writes]
  exact (logGrows_fetchOperand o s).trans (h _ _)

/-- The reads of a handler: `Fetch`'s (R96), the pulls (R202, R204, R217, R218), BRK's vector (R203). -/
def handlerReads : Instr → Nat
  | .lda o | .ldx o | .ldy o | .adc o | .sbc o | .and o | .ora o | .eor o | .bit o | .cmp o | .cpx o | .cpy o | .inc o
  | .dec o | .asl o | .lsr o | .rol o | .ror o => fetchReads o.mode
  | .pla | .plp => 1
  | .rts | .brk => 2
  | .rti => 3
  | _ => 0

/-- The writes of a handler: stores and read-modify-writes (R133, R160, R180), the pushes (R201, R203, R215). -/
def handlerWrites : Instr → Nat
  | .sta _ | .stx _ | .sty _ | .inc _ | .dec _ | .pha | .php => 1
  | .asl o | .lsr o | .rol o | .ror o => writeBackWrites o.mode
  | .jsr _ => 2
  | .brk => 3
  | _ => 0

/-- What a handler adds to the log: `Fetch` and then what follows it, or the stack transfers by themselves. -/
theorem logGrows_handler (i : Instr) (s : State) :
    LogGrows (handlerReads i) (handlerWrites i) s.busLog (handler i s).busLog := by
  cases i
  case lda o | ldx o | ldy o | adc o | sbc o | and o | ora o | eor o | bit o | cmp o | cpx o | cpy o =>
    exact logGrows_onOperand (fun _ _ => .of_eq (by simp)) o s
  case inc o | dec o => exact logGrows_onOperand (fun _ _ => .write _ _ _) o s
  case asl o | lsr o | rol o | ror o =>
    exact logGrows_onOperand (fun s _ => logGrows_finishShift o _ _ s) o s
  case sta | stx | sty | pha | php => exact .write _ _ _
  case pla | plp => exact .read _ _ _
  case jsr | rts => exact ⟨[_, _], rfl, rfl, rfl⟩
  case rti => exact ⟨[_, _, _], rfl, rfl, rfl⟩
  case brk => exact ⟨[_, _, _, _, _], rfl, rfl, rfl⟩
  all_goals exact .of_eq rfl

/-- Settles O41: the resolver's transactions, then the handler's. -/
theorem busTransactionCountsOfEveryInstruction : Obligations.BusTransactionCountsOfEveryInstruction := by
  unfold Obligations.BusTransactionCountsOfEveryInstruction
  intro _ operandReads otherReads writes _ i s t _ hexec
  obtain rfl := exec_eq_next_iff.mp hexec
  have hgrows := (logGrows_resolve i.operand s).trans (logGrows_handler i _)
  have hreads : handlerReads i = operandReads i + otherReads i.mnemonic := by
    -- R96's list names the eighteen handlers that call `Fetch`; for every other one both sides are a number.
    cases i
    case lda o | ldx o | ldy o | adc o | sbc o | and o | ora o | eor o | bit o | cmp o | cpx o | cpy o | inc o | dec o
        | asl o | lsr o | rol o | ror o =>
      exact (if_congr (and_iff_right (List.mem_of_elem_eq_true rfl)) rfl rfl).symm
    all_goals rfl
  have hwrites : handlerWrites i = writes i := by
    cases i <;> rfl
  rw [hreads, hwrites, Nat.zero_add, ← Nat.add_assoc] at hgrows
  exact hgrows

end Sys2Proof.Proofs
end

section
/-! PROOFS. Frames of whole instructions from frames of their handlers: what the resolver and `Fetch` leave unchanged
is said once here (00_scope.md R11, 40_execution_cycle.md R90, R94, R96). -/

namespace Sys2Proof.Proofs

open Sys2Proof Sys2Proof.Machine

/-! ### Registers and flags kept -/

theorem keeps_trans {regs : List Reg} {flags : List Flag} {s t u : State} (h₁ : Keeps regs flags s t)
    (h₂ : Keeps regs flags t u) : Keeps regs flags s u where
  regs r hr := (h₂.regs r hr).trans (h₁.regs r hr)
  flags f hf := (h₂.flags f hf).trans (h₁.flags f hf)
  env := h₂.env.trans h₁.env

theorem keeps_resolve (regs : List Reg) (flags : List Flag) (o : Operand) (s : State) :
    Keeps regs flags s (resolve o s).2 where
  regs r _ := reg_resolve o s r
  flags f _ := resolve_flag s o f
  env := resolve_env s o

theorem keeps_fetchOperand (regs : List Reg) (flags : List Flag) (o : Operand) (s : State) :
    Keeps regs flags s (fetchOperand o s) where
  regs r _ := reg_fetchOperand o s r
  flags f _ := fetchOperand_flag s o f
  env := fetchOperand_env s o

/-- The frame every handler runs in keeps what the handler keeps. -/
theorem keeps_runHandler {regs : List Reg} {flags : List Flag} {o : Operand} {h : State → State} {s : State}
    (hkeeps : Keeps regs flags (resolve o s).2 (h (resolve o s).2)) (e : Bool) :
    Keeps regs flags s (runHandler o e h s) :=
  have hall := keeps_trans (keeps_resolve regs flags o s) hkeeps
  { regs := fun r hr => (runHandler_reg o e h s r).trans (hall.regs r hr)
    flags := hall.flags
    env := hall.env }

/-! ### The frames of a whole instruction -/

/-- A handler of mode IMP that is quiet makes a quiet instruction: the resolver of IMP makes no transaction. -/
theorem quiet_runHandler_imp {regs : List Reg} {flags : List Flag} {h : State → State} {s : State}
    (hquiet : Quiet regs flags (resolve .imp s).2 (h (resolve .imp s).2)) :
    Quiet regs flags s (runHandler .imp false h s) where
  keeps := keeps_runHandler hquiet.keeps false
  pc := hquiet.pc
  mem := hquiet.mem
  log := hquiet.log
  cycles := hquiet.cycles

/-- A handler that calls `Fetch` and is quiet after it makes an instruction that only reads its operand. -/
theorem readsOperand_onOperand {regs : List Reg} {flags : List Flag} {rest : State → Byte → State}
    (hrest : ∀ u m, Quiet regs flags u (rest u m)) (signals : Bool) (o : Operand) (s : State) :
    ReadsOperand regs flags signals o s (runHandler o signals (onOperand o rest) s) := by
  obtain ⟨hkeeps, hpc, hmem, hlog, hcycles⟩ :=
    hrest (fetchOperand o (resolve o s).2) (fetchOperand o (resolve o s).2).fetched
  refine ⟨keeps_runHandler (keeps_trans (keeps_fetchOperand _ _ _ _) hkeeps) _, ?pc, fun addr => ?mem, hlog, ?cycles⟩
  case pc => rw [runHandler_pc, onOperand, hpc, fetchOperand_pc, resolve_pc]
  case mem => rw [runHandler_peek, onOperand, hmem, fetchOperand_peek, resolve_peek]
  case cycles =>
    rw [runHandler_cycles, onOperand, hcycles, fetchOperand_cycles, resolve_cycles, resolverExtra]
    cases signals <;> simp

/-! ### A register takes a byte -/

theorem quiet_setReg (r : Reg) (v : Byte) (s : State) : Quiet [r] [] s (s.setReg r v) where
  keeps :=
    { regs := fun q hq => by rw [State.reg_setReg, if_neg (List.ne_of_not_mem_cons hq)]
      flags := fun f _ => State.flag_setReg s r v f
      env := by cases r <;> rfl }
  pc := by cases r <;> rfl
  mem addr := by cases r <;> rfl
  log := by cases r <;> rfl
  cycles := by cases r <;> rfl

theorem quiet_loadReg (r : Reg) (v : Byte) (s : State) : Quiet [r] [.n, .z] s (s.loadReg r v) where
  keeps :=
    { regs := fun q hq => by rw [State.reg_loadReg, if_neg (List.ne_of_not_mem_cons hq)]
      flags := fun f hf => by simp_all
      env := by cases r <;> rfl }
  pc := by cases r <;> rfl
  mem addr := by cases r <;> rfl
  log := by cases r <;> rfl
  cycles := by cases r <;> rfl

theorem setsNZ_loadReg (r : Reg) (v : Byte) (s : State) : SetsNZ v (s.loadReg r v) := by
  simp [SetsNZ]

end Sys2Proof.Proofs
end

section
/-! PROOFS. Loads, stores and transfers (42_load_store_transfer.md R130 to R141), and which instructions write memory
at all. -/

namespace Sys2Proof.Proofs

open Sys2Proof Sys2Proof.Machine

/-! ### The rows of the dispatch table -/

theorem ruleEncoding_lda : RuleEncoding .lda [(0xA9, .imm, 2), (0xA5, .zp0, 3), (0xB5, .zpx, 4), (0xAD, .abs, 4),
    (0xBD, .abx, 4), (0xB9, .aby, 4), (0xA1, .izx, 6), (0xB1, .izy, 5)] :=
  ruleEncoding_of (by set_option maxRecDepth 20000 in decide) (by decide)

theorem ruleEncoding_ldx : RuleEncoding .ldx
    [(0xA2, .imm, 2), (0xA6, .zp0, 3), (0xB6, .zpy, 4), (0xAE, .abs, 4), (0xBE, .aby, 4)] :=
  ruleEncoding_of (by set_option maxRecDepth 20000 in decide) (by decide)

theorem ruleEncoding_ldy : RuleEncoding .ldy
    [(0xA0, .imm, 2), (0xA4, .zp0, 3), (0xB4, .zpx, 4), (0xAC, .abs, 4), (0xBC, .abx, 4)] :=
  ruleEncoding_of (by set_option maxRecDepth 20000 in decide) (by decide)

theorem ruleEncoding_sta : RuleEncoding .sta [(0x85, .zp0, 3), (0x95, .zpx, 4), (0x8D, .abs, 4), (0x9D, .abx, 5),
    (0x99, .aby, 5), (0x81, .izx, 6), (0x91, .izy, 6)] :=
  ruleEncoding_of (by set_option maxRecDepth 20000 in decide) (by decide)

theorem ruleEncoding_stx : RuleEncoding .stx [(0x86, .zp0, 3), (0x96, .zpy, 4), (0x8E, .abs, 4)] :=
  ruleEncoding_of (by set_option maxRecDepth 20000 in decide) (by decide)

theorem ruleEncoding_sty : RuleEncoding .sty [(0x84, .zp0, 3), (0x94, .zpx, 4), (0x8C, .abs, 4)] :=
  ruleEncoding_of (by set_option maxRecDepth 20000 in decide) (by decide)

theorem ruleEncoding_tax : RuleEncoding .tax [(0xAA, .imp, 2)] :=
  ruleEncoding_of (by set_option maxRecDepth 20000 in decide) (by decide)

theorem ruleEncoding_tay : RuleEncoding .tay [(0xA8, .imp, 2)] :=
  ruleEncoding_of (by set_option maxRecDepth 20000 in decide) (by decide)

theorem ruleEncoding_tsx : RuleEncoding .tsx [(0xBA, .imp, 2)] :=
  ruleEncoding_of (by set_option maxRecDepth 20000 in decide) (by decide)

theorem ruleEncoding_txa : RuleEncoding .txa [(0x8A, .imp, 2)] :=
  ruleEncoding_of (by set_option maxRecDepth 20000 in decide) (by decide)

theorem ruleEncoding_txs : RuleEncoding .txs [(0x9A, .imp, 2)] :=
  ruleEncoding_of (by set_option maxRecDepth 20000 in decide) (by decide)

theorem ruleEncoding_tya : RuleEncoding .tya [(0x98, .imp, 2)] :=
  ruleEncoding_of (by set_option maxRecDepth 20000 in decide) (by decide)

/-! ### Loads -/

/-- What a load of any register leaves, in any mode (R130 to R132). -/
theorem load_spec (r : Reg) (o : Operand) (s : State) :
    let t := runHandler o true (onOperand o fun u m => u.loadReg r m) s
    t.reg r = operandByte o s ∧ SetsNZ (operandByte o s) t ∧ ReadsOperand [r] [.n, .z] true o s t := by
  refine ⟨?reg, ?flags, readsOperand_onOperand (fun u m => quiet_loadReg r m u) true o s⟩
  case reg => rw [runHandler_reg, onOperand, State.reg_loadReg, if_pos rfl, fetchOperand_fetched, operandByte]
  case flags =>
    rw [operandByte, ← fetchOperand_fetched]
    exact setsNZ_loadReg r _ (fetchOperand o (resolve o s).2)

/-- Settles O16: LDA, LDX and LDY are one handler, the load of their register. -/
theorem loadsCopyTheOperandByte : Obligations.LoadsCopyTheOperandByte :=
  ⟨ruleEncoding_lda, ruleEncoding_ldx, ruleEncoding_ldy, fun o s =>
    ⟨fun _ => ⟨_, exec_eq_runHandler _ _, load_spec .a o s⟩,
      fun _ => ⟨_, exec_eq_runHandler _ _, load_spec .x o s⟩,
      fun _ => ⟨_, exec_eq_runHandler _ _, load_spec .y o s⟩⟩⟩

/-! ### Stores -/

theorem keeps_busWrite (addr : Word) (v : Byte) (s : State) : Keeps [] [] s (s.busWrite addr v) where
  regs r _ := reg_busWrite s addr v r
  flags f _ := State.busWrite_flag s addr v f
  env := State.busWrite_env s addr v

/-- A byte stored after the resolver is stored: the resolver changes no memory. -/
theorem stored_of_resolve {o : Operand} {addr : Word} {v : Byte} {s t : State} (h : Stored addr v (resolve o s).2 t) :
    Stored addr v s t := by
  simpa only [Stored, resolve_peek, resolve_isDevice] using h

/-- What a store of any byte leaves, in any mode (R133 to R135). -/
theorem store_spec (v : Byte) (o : Operand) {s : State} (hwf : s.mem.wf = true) :
    let t := runHandler o false (fun u => u.busWrite u.addrAbs v) s
    Stored (effAddr o s) v s t ∧ Keeps [] [] s t ∧ t.pc = s.pc ∧ t.cycles = s.cycles ∧
      t.busLog = .write (effAddr o s) v :: (resolve o s).2.busLog := by
  refine ⟨stored_of_resolve (o := o) ?stored, keeps_runHandler (keeps_busWrite _ v _) false, ?pc, ?cycles, rfl⟩
  case stored => exact State.stored_busWrite (effAddr o s) v (by rwa [resolve_mem])
  case pc => rw [runHandler_pc, State.busWrite_pc, resolve_pc]
  case cycles => rw [runHandler_cycles, State.busWrite_cycles, resolve_cycles, Bool.and_false]; rfl

/-- Settles O17: STA, STX and STY are one handler, the bus write of their register. -/
theorem storesWriteTheRegister : Obligations.StoresWriteTheRegister :=
  ⟨ruleEncoding_sta, ruleEncoding_stx, ruleEncoding_sty, fun o s hwf =>
    ⟨fun _ => ⟨_, exec_store (p := (.sta o, s.a)) (by simp), store_spec s.a o hwf⟩,
      fun _ => ⟨_, exec_store (p := (.stx o, s.x)) (by simp), store_spec s.x o hwf⟩,
      fun _ => ⟨_, exec_store (p := (.sty o, s.y)) (by simp), store_spec s.y o hwf⟩⟩⟩

/-! ### A load after a store -/

/-- A well-formed instruction has no mode outside its mnemonic's (R72). -/
theorem mode_ne_of_not_allowed {i : Instr} {m : Mode} (hwf : i.wellFormed = true)
    (h : m ∉ allowedModes i.mnemonic) : i.operand.mode ≠ m :=
  ne_of_mem_of_not_mem (List.contains_iff_mem.mp (Bool.and_eq_true_iff.mp hwf).1) h

/-- After a store, an operand in memory at the same address is the byte stored, where that address is memory. -/
theorem operandByte_of_stored {o : Operand} {addr : Word} {v : Byte} {s t : State} (hstored : Stored addr v s t)
    (henv : t.env = s.env) (hdev : s.isDevice addr = false) (haddr : effAddr o t = addr) (himp : o.mode ≠ .imp)
    (himm : o.mode ≠ .imm) : operandByte o t = v := by
  have hpeek : t.peek addr = v := by simpa [hdev] using hstored.2
  have hdev' : t.isDevice (effAddr o t) = false := by rw [haddr, State.isDevice_congr henv, hdev]
  rw [operandByte_of_memory himp himm hdev', haddr, hpeek]

/-- A load of any register from the address just stored to gives the stored byte back. -/
theorem load_after_store {o o' : Operand} {p : Instr × Byte} {s t u : State} (r : Reg)
    (hp : p ∈ [(Instr.sta o, s.a), (.stx o, s.x), (.sty o, s.y)]) (hstore : exec p.1 s = .next t)
    (hload : runHandler o' true (onOperand o' fun w m => w.loadReg r m) t = u) (hwf : s.mem.wf = true)
    (hdev : s.isDevice (effAddr o s) = false) (haddr : effAddr o' t = effAddr o s) (himp : o'.mode ≠ .imp)
    (himm : o'.mode ≠ .imm) : u.reg r = p.2 ∧ SetsNZ p.2 u := by
  obtain rfl := Host.Outcome.next.inj ((exec_store hp).symm.trans hstore)
  obtain ⟨hstored, hkeeps, -⟩ := store_spec p.2 o hwf
  obtain ⟨hreg, hflags, -⟩ := load_spec r o' (runHandler o false (fun u => u.busWrite u.addrAbs p.2) s)
  rw [operandByte_of_stored hstored hkeeps.env hdev haddr himp himm, hload] at hreg hflags
  exact ⟨hreg, hflags⟩

/-- Settles O59, register by register; a load has no mode IMP. -/
theorem loadAfterStoreGivesTheRegisterBack : Obligations.LoadAfterStoreGivesTheRegisterBack := by
  intro o o' s t u hwf hdev haddr himm
  refine ⟨fun _ hload hstore hrun => ?a, fun _ hload hstore hrun => ?x, fun _ hload hstore hrun => ?y⟩
  case a =>
    have himp := mode_ne_of_not_allowed hload (show .imp ∉ allowedModes .lda by decide)
    exact load_after_store .a (p := (.sta o, s.a)) (by simp) hstore (exec_eq_next_iff.mp hrun) hwf hdev haddr himp himm
  case x =>
    have himp := mode_ne_of_not_allowed hload (show .imp ∉ allowedModes .ldx by decide)
    exact load_after_store .x (p := (.stx o, s.x)) (by simp) hstore (exec_eq_next_iff.mp hrun) hwf hdev haddr himp himm
  case y =>
    have himp := mode_ne_of_not_allowed hload (show .imp ∉ allowedModes .ldy by decide)
    exact load_after_store .y (p := (.sty o, s.y)) (by simp) hstore (exec_eq_next_iff.mp hrun) hwf hdev haddr himp himm

/-! ### Instructions that write no memory -/

/-- A handler without a bus write leaves memory alone. -/
theorem handler_mem_of_no_writes {i : Instr} (h : handlerWrites i = 0) (s : State) : (handler i s).mem = s.mem := by
  cases i
  case sta | stx | sty | inc | dec | pha | php | jsr | brk => cases h
  case asl o | lsr o | rol o | ror o =>
    cases o
    case imp => rfl
    all_goals cases h
  all_goals simp [handler, onOperand]

/-- A log that grew without a write grew by reads. -/
theorem reads_of_logGrows {reads : Nat} {before after : List BusEvent} (h : LogGrows reads 0 before after) :
    ∃ added, after = added ++ before ∧ ∀ e ∈ added, ∃ a v, e = .read a v := by
  obtain ⟨added, hlog, -, hwrites⟩ := h
  refine ⟨added, hlog, fun e he => ?_⟩
  have hread : isRead e = true := by
    simpa using List.filter_eq_nil_iff.mp (List.length_eq_zero_iff.mp hwrites) e he
  cases e
  case read a v => exact ⟨a, v, rfl⟩
  case write => cases hread

/-- The stores, read-modify-writes, pushes, JSR and BRK are the only handlers with a bus write, and the shifts outside
mode IMP (R133 to R135, R160, R161, R180, R201, R203, R215, R216). -/
theorem handlerWrites_eq_zero {i : Instr} (h : i.mnemonic ∉ [.sta, .stx, .sty, .inc, .dec, .pha, .php, .jsr, .brk])
    (hshift : i.mnemonic ∈ [.asl, .lsr, .rol, .ror] → i.operand = .imp) : handlerWrites i = 0 := by
  cases i
  case sta | stx | sty | inc | dec | pha | php | jsr | brk => exact absurd (by simp [Instr.mnemonic]) h
  case asl o | lsr o | rol o | ror o =>
    obtain rfl : o = .imp := hshift (by simp [Instr.mnemonic])
    rfl
  all_goals rfl

/-- Settles O39: the resolver only reads, and the handler makes no bus write. -/
theorem onlyStoresAndPushesChangeMemory : Obligations.OnlyStoresAndPushesChangeMemory := by
  intro i s t hexec hwriters hshift
  obtain rfl := exec_eq_next_iff.mp hexec
  have hwrites := handlerWrites_eq_zero hwriters hshift
  have hgrows := (logGrows_resolve i.operand s).trans (logGrows_handler i _)
  rw [hwrites] at hgrows
  exact ⟨by rw [runHandler_mem, handler_mem_of_no_writes hwrites, resolve_mem], reads_of_logGrows hgrows⟩

/-! ### Transfers -/

/-- What a register instruction of mode IMP leaves that only loads one register with N and Z (R136 to R141). -/
theorem loadReg_imp_spec (r : Reg) (v : Byte) (s : State) :
    let t := runHandler .imp false (fun u => u.loadReg r v) s
    t.reg r = v ∧ SetsNZ v t ∧ Quiet [r] [.n, .z] s t := by
  refine ⟨?reg, setsNZ_loadReg r v (resolve .imp s).2, quiet_runHandler_imp (quiet_loadReg r v _)⟩
  case reg => rw [runHandler_reg, State.reg_loadReg, if_pos rfl]

/-- Settles O18: five loads of a register, and TXS, which sets no flag. -/
theorem transfersCopyOneRegister : Obligations.TransfersCopyOneRegister :=
  ⟨ruleEncoding_tax, ruleEncoding_tay, ruleEncoding_tsx, ruleEncoding_txa, ruleEncoding_txs, ruleEncoding_tya, fun s =>
    ⟨⟨_, rfl, loadReg_imp_spec .x s.a s⟩, ⟨_, rfl, loadReg_imp_spec .y s.a s⟩, ⟨_, rfl, loadReg_imp_spec .x s.sp s⟩,
      ⟨_, rfl, loadReg_imp_spec .a s.x s⟩, ⟨_, rfl, loadReg_imp_spec .a s.y s⟩,
      ⟨_, rfl, rfl, quiet_runHandler_imp (quiet_setReg .sp s.x _)⟩⟩⟩

end Sys2Proof.Proofs
end

section
/-! PROOFS. Arithmetic, logic, compares, increments and decrements (43_arithmetic_logic.md R150 to R165). -/

namespace Sys2Proof.Proofs

open Sys2Proof Sys2Proof.Machine

/-! ### The rows of the dispatch table -/

theorem ruleEncoding_adc : RuleEncoding .adc [(0x69, .imm, 2), (0x65, .zp0, 3), (0x75, .zpx, 4), (0x6D, .abs, 4),
    (0x7D, .abx, 4), (0x79, .aby, 4), (0x61, .izx, 6), (0x71, .izy, 5)] :=
  ruleEncoding_of (by set_option maxRecDepth 20000 in decide) (by decide)

theorem ruleEncoding_sbc : RuleEncoding .sbc [(0xE9, .imm, 2), (0xE5, .zp0, 3), (0xF5, .zpx, 4), (0xED, .abs, 4),
    (0xFD, .abx, 4), (0xF9, .aby, 4), (0xE1, .izx, 6), (0xF1, .izy, 5)] :=
  ruleEncoding_of (by set_option maxRecDepth 20000 in decide) (by decide)

theorem ruleEncoding_and : RuleEncoding .and [(0x29, .imm, 2), (0x25, .zp0, 3), (0x35, .zpx, 4), (0x2D, .abs, 4),
    (0x3D, .abx, 4), (0x39, .aby, 4), (0x21, .izx, 6), (0x31, .izy, 5)] :=
  ruleEncoding_of (by set_option maxRecDepth 20000 in decide) (by decide)

theorem ruleEncoding_ora : RuleEncoding .ora [(0x09, .imm, 2), (0x05, .zp0, 3), (0x15, .zpx, 4), (0x0D, .abs, 4),
    (0x1D, .abx, 4), (0x19, .aby, 4), (0x01, .izx, 6), (0x11, .izy, 5)] :=
  ruleEncoding_of (by set_option maxRecDepth 20000 in decide) (by decide)

theorem ruleEncoding_eor : RuleEncoding .eor [(0x49, .imm, 2), (0x45, .zp0, 3), (0x55, .zpx, 4), (0x4D, .abs, 4),
    (0x5D, .abx, 4), (0x59, .aby, 4), (0x41, .izx, 6), (0x51, .izy, 5)] :=
  ruleEncoding_of (by set_option maxRecDepth 20000 in decide) (by decide)

theorem ruleEncoding_bit : RuleEncoding .bit [(0x24, .zp0, 3), (0x2C, .abs, 4)] :=
  ruleEncoding_of (by set_option maxRecDepth 20000 in decide) (by decide)

theorem ruleEncoding_cmp : RuleEncoding .cmp [(0xC9, .imm, 2), (0xC5, .zp0, 3), (0xD5, .zpx, 4), (0xCD, .abs, 4),
    (0xDD, .abx, 4), (0xD9, .aby, 4), (0xC1, .izx, 6), (0xD1, .izy, 5)] :=
  ruleEncoding_of (by set_option maxRecDepth 20000 in decide) (by decide)

theorem ruleEncoding_cpx : RuleEncoding .cpx [(0xE0, .imm, 2), (0xE4, .zp0, 3), (0xEC, .abs, 4)] :=
  ruleEncoding_of (by set_option maxRecDepth 20000 in decide) (by decide)

theorem ruleEncoding_cpy : RuleEncoding .cpy [(0xC0, .imm, 2), (0xC4, .zp0, 3), (0xCC, .abs, 4)] :=
  ruleEncoding_of (by set_option maxRecDepth 20000 in decide) (by decide)

theorem ruleEncoding_inc : RuleEncoding .inc [(0xE6, .zp0, 5), (0xF6, .zpx, 6), (0xEE, .abs, 6), (0xFE, .abx, 7)] :=
  ruleEncoding_of (by set_option maxRecDepth 20000 in decide) (by decide)

theorem ruleEncoding_dec : RuleEncoding .dec [(0xC6, .zp0, 5), (0xD6, .zpx, 6), (0xCE, .abs, 6), (0xDE, .abx, 7)] :=
  ruleEncoding_of (by set_option maxRecDepth 20000 in decide) (by decide)

theorem ruleEncoding_inx : RuleEncoding .inx [(0xE8, .imp, 2)] :=
  ruleEncoding_of (by set_option maxRecDepth 20000 in decide) (by decide)

theorem ruleEncoding_iny : RuleEncoding .iny [(0xC8, .imp, 2)] :=
  ruleEncoding_of (by set_option maxRecDepth 20000 in decide) (by decide)

theorem ruleEncoding_dex : RuleEncoding .dex [(0xCA, .imp, 2)] :=
  ruleEncoding_of (by set_option maxRecDepth 20000 in decide) (by decide)

theorem ruleEncoding_dey : RuleEncoding .dey [(0x88, .imp, 2)] :=
  ruleEncoding_of (by set_option maxRecDepth 20000 in decide) (by decide)

/-! ### What `Fetch` and the resolver hand to the rest of a handler -/

/-- The rest of a handler runs on the operand byte, in the state after resolver and `Fetch` (R11, R90, R94). -/
theorem runHandler_onOperand (o : Operand) (e : Bool) (rest : State → Byte → State) (s : State) :
    runHandler o e (onOperand o rest) s =
      addCycles ((resolve o s).1 && e).toNat (rest (fetchOperand o (resolve o s).2) (operandByte o s)) := by
  rw [runHandler_eq_addCycles, onOperand, fetchOperand_fetched, operandByte]

theorem a_runHandler_onOperand (o : Operand) (e : Bool) (rest : State → Byte → State) (s : State) :
    (runHandler o e (onOperand o rest) s).a = (rest (fetchOperand o (resolve o s).2) (operandByte o s)).a := by
  rw [runHandler_onOperand]
  rfl

theorem flag_runHandler_onOperand (o : Operand) (e : Bool) (rest : State → Byte → State) (s : State) (f : Flag) :
    (runHandler o e (onOperand o rest) s).flag f =
      (rest (fetchOperand o (resolve o s).2) (operandByte o s)).flag f :=
  congrArg (·.flag f) (runHandler_onOperand o e rest s)

/-! ### Frames of the shared operations -/

theorem quiet_addToA (m : Byte) (s : State) : Quiet [.a] [.c, .z, .v, .n] s (s.addToA m) where
  keeps :=
    { regs := fun r hr => by rw [reg_addToA, if_neg (List.ne_of_not_mem_cons hr)]
      flags := fun f hf => by simp_all [State.flag_addToA]
      env := rfl }
  pc := rfl
  mem _ := rfl
  log := rfl
  cycles := rfl

theorem quiet_compare (v m : Byte) (s : State) : Quiet [] [.c, .z, .n] s (s.compare v m) where
  keeps :=
    { regs := fun r _ => reg_compare s v m r
      flags := fun f hf => by simp_all [State.flag_compare]
      env := rfl }
  pc := rfl
  mem _ := rfl
  log := rfl
  cycles := rfl

theorem quiet_bitTest (m : Byte) (s : State) : Quiet [] [.z, .n, .v] s (s.bitTest m) where
  keeps :=
    { regs := fun r _ => reg_bitTest s m r
      flags := fun f hf => by simp_all [State.flag_bitTest]
      env := rfl }
  pc := rfl
  mem _ := rfl
  log := rfl
  cycles := rfl

/-! ### Addition and subtraction -/

/-- What an addition into A leaves, in any mode, for an addend made from the operand byte (R151). -/
theorem add_spec (addend : Byte → Byte) (o : Operand) (s : State) :
    let t := runHandler o true (onOperand o fun u m => u.addToA (addend m)) s
    let m := addend (operandByte o s)
    let sum := s.a.toNat + m.toNat + (s.flag .c).toNat
    t.a.toNat = sum % 256 ∧ SetsNZ t.a t ∧ t.flag .c = decide (255 < sum) ∧
      t.flag .v = (s.a.getLsbD 7 == m.getLsbD 7 && t.a.getLsbD 7 != s.a.getLsbD 7) ∧
      ReadsOperand [.a] [.c, .z, .v, .n] true o s t := by
  intro t m sum
  have ha : t.a = addResult s.a m (s.flag .c) := by
    rw [a_runHandler_onOperand, State.addToA_a, fetchOperand_a, fetchOperand_flag, resolve_a, resolve_flag]
  have hflag : ∀ f, t.flag f = (s.addToA m).flag f := fun f => by
    simp only [t, m, flag_runHandler_onOperand, State.flag_addToA, fetchOperand_a, fetchOperand_flag, resolve_a,
      resolve_flag]
  refine ⟨?a, ⟨?n, ?z⟩, ?c, ?v, readsOperand_onOperand (fun u m => quiet_addToA (addend m) u) true o s⟩
  case a => rw [ha, toNat_addResult]
  case n => rw [hflag, ha, State.flag_addToA]; rfl
  case z => rw [hflag, ha, State.flag_addToA]; rfl
  case c => rw [hflag, State.flag_addToA]; rfl
  case v => rw [hflag, ha, State.flag_addToA, ← addOverflow_eq]; rfl

/-- Adding the complement and the carry is subtracting the operand and the borrow (R152). -/
theorem complement_sum_mod (a m : Byte) (c : Bool) :
    (a.toNat + (~~~m).toNat + c.toNat) % 256 = (256 + a.toNat - m.toNat - (1 - c.toNat)) % 256 := by
  have hm := m.isLt
  have hc := c.toNat_le
  rw [BitVec.toNat_not]
  omega

/-- Adding the complement carries exactly when the subtraction does not borrow (R152). -/
theorem complement_sum_carry (a m : Byte) (c : Bool) :
    255 < a.toNat + (~~~m).toNat + c.toNat ↔ m.toNat + (1 - c.toNat) ≤ a.toNat := by
  have hm := m.isLt
  have hc := c.toNat_le
  rw [BitVec.toNat_not]
  omega

/-- Settles O19: ADC is the addition of the operand byte itself. -/
theorem adcAddsWithCarry : Obligations.AdcAddsWithCarry :=
  ⟨ruleEncoding_adc, fun o s _ => ⟨_, exec_eq_runHandler _ _, add_spec id o s⟩⟩

/-- SBC is the handler of ADC on the complemented operand byte (R152). -/
theorem exec_sbc (o : Operand) (s : State) :
    exec (.sbc o) s = .next (runHandler o true (onOperand o fun u m => u.addToA (~~~m)) s) := by
  simp only [exec_eq_runHandler, handler, xor_ff]
  rfl

/-- Settles O20: SBC is the addition of the complement, which is the subtraction with borrow. -/
theorem sbcSubtractsWithBorrow : Obligations.SbcSubtractsWithBorrow := by
  refine ⟨ruleEncoding_sbc, fun o s _ => ⟨_, exec_sbc o s, ?_⟩⟩
  obtain ⟨ha, hnz, hc, hv, hreads⟩ := add_spec (~~~·) o s
  refine ⟨ha, hnz, hc, hv, ?difference, ?noBorrow, hreads⟩
  case difference => exact ha.trans (complement_sum_mod _ _ _)
  case noBorrow => exact hc.trans (decide_eq_decide.mpr (complement_sum_carry _ _ _))

/-! ### Bitwise logic -/

/-- What an operation leaves that loads A with a result made from A and the operand byte (R153 to R155). -/
theorem logic_spec (op : Byte → Byte → Byte) (o : Operand) (s : State) :
    let t := runHandler o true (onOperand o fun u m => u.loadReg .a (op u.a m)) s
    t.a = op s.a (operandByte o s) ∧ SetsNZ t.a t ∧ ReadsOperand [.a] [.n, .z] true o s t := by
  refine ⟨?a, setsNZ_loadReg .a _ (fetchOperand o (resolve o s).2),
    readsOperand_onOperand (fun u m => quiet_loadReg .a (op u.a m) u) true o s⟩
  case a => rw [a_runHandler_onOperand, State.loadReg_a_a, fetchOperand_a, resolve_a]

/-- Settles O21: the three are one handler, and each bitwise operation of bytes works bit by bit. -/
theorem logicOperationsCombineBitwise : Obligations.LogicOperationsCombineBitwise := by
  refine ⟨ruleEncoding_and, ruleEncoding_ora, ruleEncoding_eor, fun o s =>
    ⟨fun _ => ?and, fun _ => ?ora, fun _ => ?eor⟩⟩
  case and =>
    obtain ⟨ha, hrest⟩ := logic_spec (· &&& ·) o s
    exact ⟨_, exec_eq_runHandler _ _, fun k _ => (congrArg (·.getLsbD k) ha).trans BitVec.getLsbD_and, hrest⟩
  case ora =>
    obtain ⟨ha, hrest⟩ := logic_spec (· ||| ·) o s
    exact ⟨_, exec_eq_runHandler _ _, fun k _ => (congrArg (·.getLsbD k) ha).trans BitVec.getLsbD_or, hrest⟩
  case eor =>
    obtain ⟨ha, hrest⟩ := logic_spec (· ^^^ ·) o s
    exact ⟨_, exec_eq_runHandler _ _, fun k _ => (congrArg (·.getLsbD k) ha).trans BitVec.getLsbD_xor, hrest⟩

/-! ### BIT and the compares -/

/-- What the bit test leaves, in any mode (R156). -/
theorem bitTest_spec (o : Operand) (s : State) :
    let t := runHandler o false (onOperand o fun u m => u.bitTest m) s
    t.flag .z = (s.a &&& operandByte o s == 0) ∧ t.flag .n = (operandByte o s).getLsbD 7 ∧
      t.flag .v = (operandByte o s).getLsbD 6 ∧ ReadsOperand [] [.z, .n, .v] false o s t := by
  intro t
  have hflag : ∀ f, t.flag f = (s.bitTest (operandByte o s)).flag f := fun f => by
    simp only [t, flag_runHandler_onOperand, State.flag_bitTest, fetchOperand_a, resolve_a, fetchOperand_flag,
      resolve_flag]
  refine ⟨?z, ?n, ?v, readsOperand_onOperand (fun u m => quiet_bitTest m u) false o s⟩
  case z => rw [hflag, State.flag_bitTest]; rfl
  case n => rw [hflag, State.flag_bitTest]; rfl
  case v => rw [hflag, State.flag_bitTest]; rfl

/-- Settles O22: BIT is the bit test of A with the operand byte, and signals no extra cycle. -/
theorem bitTestsWithoutWritingA : Obligations.BitTestsWithoutWritingA :=
  ⟨ruleEncoding_bit, fun o s _ => ⟨_, exec_eq_runHandler _ _, bitTest_spec o s⟩⟩

/-- What a compare of any register leaves, in any mode, with or without the extra cycle (R157 to R159). -/
theorem compare_spec (r : Reg) (signals : Bool) (o : Operand) (s : State) :
    let t := runHandler o signals (onOperand o fun u m => u.compare (u.reg r) m) s
    t.flag .c = decide ((operandByte o s).toNat ≤ (s.reg r).toNat) ∧ t.flag .z = (s.reg r == operandByte o s) ∧
      t.flag .n = (s.reg r - operandByte o s).getLsbD 7 ∧ ReadsOperand [] [.c, .z, .n] signals o s t := by
  intro t
  have hflag : ∀ f, t.flag f = (s.compare (s.reg r) (operandByte o s)).flag f := fun f => by
    simp only [t, flag_runHandler_onOperand, State.flag_compare, reg_fetchOperand, reg_resolve, fetchOperand_flag,
      resolve_flag]
  refine ⟨?c, ?z, ?n, readsOperand_onOperand (fun u m => quiet_compare (u.reg r) m u) signals o s⟩
  case c => rw [hflag, State.flag_compare]; rfl
  case z => rw [hflag, State.flag_compare]; rfl
  case n => rw [hflag, State.flag_compare]; rfl

/-- Settles O23: CMP, CPX and CPY are one handler, the compare of their register. -/
theorem comparesSubtractWithoutStoring : Obligations.ComparesSubtractWithoutStoring :=
  ⟨ruleEncoding_cmp, ruleEncoding_cpx, ruleEncoding_cpy, fun o s =>
    ⟨fun _ => ⟨_, exec_eq_runHandler _ _, compare_spec .a true o s⟩,
      fun _ => ⟨_, exec_eq_runHandler _ _, compare_spec .x false o s⟩,
      fun _ => ⟨_, exec_eq_runHandler _ _, compare_spec .y false o s⟩⟩⟩

/-! ### Increments and decrements -/

theorem keeps_setNZ_busWrite (addr : Word) (v : Byte) (s : State) :
    Keeps [] [.n, .z] s ((s.busWrite addr v).setNZ v) where
  regs r _ := (reg_setNZ _ v r).trans (reg_busWrite s addr v r)
  flags f hf := by simp_all
  env := rfl

theorem setsNZ_setNZ (v : Byte) (s : State) : SetsNZ v (s.setNZ v) := by
  simp [SetsNZ]

/-- A byte stored after `Fetch` is stored: `Fetch` changes no memory. -/
theorem stored_of_fetchOperand {o : Operand} {addr : Word} {v : Byte} {s t : State}
    (h : Stored addr v (fetchOperand o s) t) : Stored addr v s t := by
  simpa only [Stored, fetchOperand_peek, fetchOperand_isDevice] using h

/-- What an instruction leaves that writes back a byte made from the operand byte, with N and Z (R160, R161). -/
theorem modify_spec (result : Byte → Byte) (o : Operand) {s : State} (hwf : s.mem.wf = true) :
    let t := runHandler o false (onOperand o fun u m => (u.busWrite u.addrAbs (result m)).setNZ (result m)) s
    let r := result (operandByte o s)
    SetsNZ r t ∧ Stored (effAddr o s) r s t ∧ t.busLog = .write (effAddr o s) r :: readLog o s ∧
      Keeps [] [.n, .z] s t ∧ t.pc = s.pc ∧ t.cycles = s.cycles := by
  intro t r
  have ht : t = ((fetchOperand o (resolve o s).2).busWrite (effAddr o s) r).setNZ r := by
    simp only [t, r, effAddr, runHandler_onOperand, fetchOperand_addrAbs, Bool.and_false]
    rfl
  have hkeeps := keeps_trans (keeps_trans (keeps_resolve [] [.n, .z] o s) (keeps_fetchOperand _ _ o _))
    (keeps_setNZ_busWrite (effAddr o s) r _)
  have hstored : Stored (effAddr o s) r (fetchOperand o (resolve o s).2) _ :=
    State.stored_busWrite (effAddr o s) r (by rwa [fetchOperand_mem, resolve_mem])
  rw [ht]
  refine ⟨setsNZ_setNZ r _, stored_of_resolve (o := o) (stored_of_fetchOperand (o := o) hstored), rfl, hkeeps, ?pc,
    ?cycles⟩
  case pc => exact (fetchOperand_pc _ _).trans (resolve_pc _ _)
  case cycles => exact (fetchOperand_cycles _ _).trans (resolve_cycles _ _)

/-- Settles O24: INC and DEC write back one more and one less. -/
theorem incAndDecModifyMemoryOnce : Obligations.IncAndDecModifyMemoryOnce :=
  ⟨ruleEncoding_inc, ruleEncoding_dec, fun o _ hwf =>
    ⟨fun _ => ⟨_, _, exec_eq_runHandler _ _, BitVec.toNat_add _ 1, modify_spec (· + 1) o hwf⟩,
      fun _ => ⟨_, _, exec_eq_runHandler _ _, toNat_byte_sub_one _, modify_spec (· - 1) o hwf⟩⟩⟩

/-- What INX and its kin leave, whatever the number of the new value. -/
theorem adjust_spec (r : Reg) {v : Byte} {n : Nat} (hv : v.toNat = n) (s : State) :
    let t := runHandler .imp false (fun u => u.loadReg r v) s
    (t.reg r).toNat = n ∧ SetsNZ (t.reg r) t ∧ Quiet [r] [.n, .z] s t := by
  obtain ⟨hreg, hflags, hquiet⟩ := loadReg_imp_spec r v s
  dsimp only
  rw [hreg]
  exact ⟨hv, hflags, hquiet⟩

/-- Settles O25: each is the load of its register with the adjusted value. -/
theorem indexIncrementAndDecrementWrap : Obligations.IndexIncrementAndDecrementWrap :=
  ⟨ruleEncoding_inx, ruleEncoding_iny, ruleEncoding_dex, ruleEncoding_dey, fun s =>
    ⟨⟨_, rfl, adjust_spec .x (BitVec.toNat_add s.x 1) s⟩, ⟨_, rfl, adjust_spec .y (BitVec.toNat_add s.y 1) s⟩,
      ⟨_, rfl, adjust_spec .x (toNat_byte_sub_one s.x) s⟩, ⟨_, rfl, adjust_spec .y (toNat_byte_sub_one s.y) s⟩⟩⟩

end Sys2Proof.Proofs
end

section
/-! PROOFS. Shifts and rotates, on A or on memory (44_shift_rotate.md R180 to R184). -/

namespace Sys2Proof.Proofs

open Sys2Proof Sys2Proof.Machine

/-! ### The rows of the dispatch table -/

theorem ruleEncoding_asl : RuleEncoding .asl
    [(0x0A, .imp, 2), (0x06, .zp0, 5), (0x16, .zpx, 6), (0x0E, .abs, 6), (0x1E, .abx, 7)] :=
  ruleEncoding_of (by set_option maxRecDepth 20000 in decide) (by decide)

theorem ruleEncoding_lsr : RuleEncoding .lsr
    [(0x4A, .imp, 2), (0x46, .zp0, 5), (0x56, .zpx, 6), (0x4E, .abs, 6), (0x5E, .abx, 7)] :=
  ruleEncoding_of (by set_option maxRecDepth 20000 in decide) (by decide)

theorem ruleEncoding_rol : RuleEncoding .rol
    [(0x2A, .imp, 2), (0x26, .zp0, 5), (0x36, .zpx, 6), (0x2E, .abs, 6), (0x3E, .abx, 7)] :=
  ruleEncoding_of (by set_option maxRecDepth 20000 in decide) (by decide)

theorem ruleEncoding_ror : RuleEncoding .ror
    [(0x6A, .imp, 2), (0x66, .zp0, 5), (0x76, .zpx, 6), (0x6E, .abs, 6), (0x7E, .abx, 7)] :=
  ruleEncoding_of (by set_option maxRecDepth 20000 in decide) (by decide)

/-! ### What the rest of a shift does -/

theorem setsNZ_finishShift (o : Operand) (c : Bool) (v : Byte) (s : State) : SetsNZ v (finishShift o c v s) := by
  simp [SetsNZ]

theorem keeps_finishShift (o : Operand) (c : Bool) (v : Byte) (s : State) :
    Keeps (if o = .imp then [.a] else []) [.c, .n, .z] s (finishShift o c v s) where
  regs r hr := reg_finishShift (by rintro rfl rfl; exact hr (List.mem_singleton_self _)) c v s
  flags f hf := by simp_all
  env := finishShift_env s o c v

/-- In a mode with an address the result is stored there. -/
theorem stored_finishShift {o : Operand} (h : o ≠ .imp) (c : Bool) (v : Byte) {s : State} (hwf : s.mem.wf = true) :
    Stored s.addrAbs v s (finishShift o c v s) := by
  rw [finishShift, writeBack_memory h]
  exact State.stored_busWrite (s := s.setFlag .c c) s.addrAbs v hwf

theorem busLog_finishShift {o : Operand} (h : o ≠ .imp) (c : Bool) (v : Byte) (s : State) :
    (finishShift o c v s).busLog = .write s.addrAbs v :: s.busLog := by
  rw [finishShift, writeBack_memory h]
  rfl

/-! ### The four instructions -/

/-- What a shift leaves, in any mode, for any bit shifted away and any result made from the old carry and the operand
byte (R180). -/
theorem shift_spec (carryOut : Byte → Bool) (result : Byte → Bool → Byte) (o : Operand) {s : State}
    (hwf : s.mem.wf = true) :
    let t := runHandler o false
      (onOperand o fun u m => finishShift o (carryOut m) (result m (u.flag .c)) u) s
    let r := result (operandByte o s) (s.flag .c)
    t.flag .c = carryOut (operandByte o s) ∧ SetsNZ r t ∧
      Keeps (if o = .imp then [.a] else []) [.c, .n, .z] s t ∧ t.pc = s.pc ∧ t.cycles = s.cycles ∧
      (o = .imp → t.a = r ∧ MemKept s t ∧ t.busLog = s.busLog) ∧
      (o ≠ .imp → Stored (effAddr o s) r s t ∧ t.busLog = .write (effAddr o s) r :: readLog o s) := by
  intro t r
  have ht : t = finishShift o (carryOut (operandByte o s)) r (fetchOperand o (resolve o s).2) := by
    simp only [t, r, runHandler_onOperand, fetchOperand_flag, resolve_flag, Bool.and_false]
    rfl
  have haddr : (fetchOperand o (resolve o s).2).addrAbs = effAddr o s := fetchOperand_addrAbs _ _
  rw [ht]
  refine ⟨?c, setsNZ_finishShift o _ r _, ?keeps, ?pc, ?cycles, ?imp, fun ho => ⟨?stored, ?log⟩⟩
  case c => simp
  case keeps =>
    exact keeps_trans (keeps_trans (keeps_resolve _ _ o s) (keeps_fetchOperand _ _ o _)) (keeps_finishShift o _ r _)
  case pc => rw [finishShift_pc, fetchOperand_pc, resolve_pc]
  case cycles => rw [finishShift_cycles, fetchOperand_cycles, resolve_cycles]
  case imp => rintro rfl; exact ⟨rfl, fun _ => rfl, rfl⟩
  case stored =>
    have hstored := stored_finishShift ho (carryOut (operandByte o s)) r (s := fetchOperand o (resolve o s).2)
      (by rwa [fetchOperand_mem, resolve_mem])
    rw [haddr] at hstored
    exact stored_of_resolve (stored_of_fetchOperand hstored)
  case log => rw [busLog_finishShift ho, haddr, readLog]

/-- Settles O26: the four are one handler; ASL and LSR shift 0 in, ROL and ROR the old carry. -/
theorem shiftsWriteBackWhereTheOperandWas : Obligations.ShiftsWriteBackWhereTheOperandWas :=
  ⟨ruleEncoding_asl, ruleEncoding_lsr, ruleEncoding_rol, ruleEncoding_ror, fun o _ hwf =>
    ⟨fun _ => ⟨_, _, exec_eq_runHandler _ _, toNat_shiftLeft _ false,
        shift_spec (·.getLsbD 7) (fun m _ => shiftLeft m false) o hwf⟩,
      fun _ => ⟨_, _, exec_eq_runHandler _ _, (toNat_shiftRight _ false).trans (Nat.zero_add _),
        shift_spec (·.getLsbD 0) (fun m _ => shiftRight m false) o hwf⟩,
      fun _ => ⟨_, _, exec_eq_runHandler _ _, toNat_shiftLeft _ _, shift_spec (·.getLsbD 7) shiftLeft o hwf⟩,
      fun _ => ⟨_, _, exec_eq_runHandler _ _, toNat_shiftRight _ _, shift_spec (·.getLsbD 0) shiftRight o hwf⟩⟩⟩

end Sys2Proof.Proofs
end

section
/-! PROOFS. Control transfers (45_control_transfer.md R190 to R204): branches, jumps, calls and returns, BRK and RTI. -/

namespace Sys2Proof.Proofs

open Sys2Proof Sys2Proof.Machine

/-! ### The rows of the dispatch table -/

theorem ruleEncoding_bcc : RuleEncoding .bcc [(0x90, .rel, 2)] :=
  ruleEncoding_of (by set_option maxRecDepth 20000 in decide) (by decide)

theorem ruleEncoding_bcs : RuleEncoding .bcs [(0xB0, .rel, 2)] :=
  ruleEncoding_of (by set_option maxRecDepth 20000 in decide) (by decide)

theorem ruleEncoding_beq : RuleEncoding .beq [(0xF0, .rel, 2)] :=
  ruleEncoding_of (by set_option maxRecDepth 20000 in decide) (by decide)

theorem ruleEncoding_bne : RuleEncoding .bne [(0xD0, .rel, 2)] :=
  ruleEncoding_of (by set_option maxRecDepth 20000 in decide) (by decide)

theorem ruleEncoding_bmi : RuleEncoding .bmi [(0x30, .rel, 2)] :=
  ruleEncoding_of (by set_option maxRecDepth 20000 in decide) (by decide)

theorem ruleEncoding_bpl : RuleEncoding .bpl [(0x10, .rel, 2)] :=
  ruleEncoding_of (by set_option maxRecDepth 20000 in decide) (by decide)

theorem ruleEncoding_bvc : RuleEncoding .bvc [(0x50, .rel, 2)] :=
  ruleEncoding_of (by set_option maxRecDepth 20000 in decide) (by decide)

theorem ruleEncoding_bvs : RuleEncoding .bvs [(0x70, .rel, 2)] :=
  ruleEncoding_of (by set_option maxRecDepth 20000 in decide) (by decide)

theorem ruleEncoding_jmp : RuleEncoding .jmp [(0x4C, .abs, 3), (0x6C, .ind, 5)] :=
  ruleEncoding_of (by set_option maxRecDepth 20000 in decide) (by decide)

theorem ruleEncoding_jsr : RuleEncoding .jsr [(0x20, .abs, 6)] :=
  ruleEncoding_of (by set_option maxRecDepth 20000 in decide) (by decide)

theorem ruleEncoding_rts : RuleEncoding .rts [(0x60, .imp, 6)] :=
  ruleEncoding_of (by set_option maxRecDepth 20000 in decide) (by decide)

theorem ruleEncoding_brk : RuleEncoding .brk [(0x00, .imp, 7)] :=
  ruleEncoding_of (by set_option maxRecDepth 20000 in decide) (by decide)

theorem ruleEncoding_rti : RuleEncoding .rti [(0x40, .imp, 6)] :=
  ruleEncoding_of (by set_option maxRecDepth 20000 in decide) (by decide)

/-! ### The frame of a control transfer -/

/-- Without a signalled cycle, an instruction is its resolver and then its handler (R90, R94). -/
theorem exec_of_no_signal {i : Instr} (h : signalsExtra i.mnemonic = false) (s : State) :
    exec i s = .next (handler i (resolve i.operand s).2) := by
  rw [exec_eq_runHandler, runHandler_eq_addCycles, h, Bool.and_false]
  rfl

/-- Outside the shifts, whose registers depend on the mode, a handler keeps all that its mnemonic does not write. -/
theorem keeps_handler {i : Instr} (h : i.mnemonic ∉ shifts) (s : State) :
    Keeps (writtenRegs i.mnemonic) (writtenFlags i.mnemonic) s (handler i s) where
  regs _ hr := handler_reg hr (fun _ hm => absurd hm h) s
  flags _ hf := handler_flag hf s
  env := handler_env i s

/-- Resolver and handler write what R20 and R28 list the mnemonic for, and only a branch counts cycles. -/
theorem transfers_handler {i : Instr} (hshift : i.mnemonic ∉ shifts) (hbranch : branchCondition i.mnemonic = none)
    (s : State) :
    Transfers (writtenRegs i.mnemonic) (writtenFlags i.mnemonic) s (handler i (resolve i.operand s).2) where
  keeps := keeps_trans (keeps_resolve _ _ _ _) (keeps_handler hshift _)
  cycles := (handler_cycles_of_not_branch hbranch _).trans (resolve_cycles _ _)

theorem memKept_handler {i : Instr} (h : handlerWrites i = 0) (s : State) :
    MemKept s (handler i (resolve i.operand s).2) := fun addr => by
  rw [State.peek, handler_mem_of_no_writes h, resolve_mem, State.peek]

/-! ### Branches -/

/-- The branch target as a signed displacement from PC (R116, R190). -/
theorem add_sext16 (pc : Word) (d : Byte) : pc + sext16 d = BitVec.ofInt 16 (pc.toNat + d.toInt) := by
  rw [BitVec.ofInt_add, BitVec.ofInt_natCast, BitVec.ofNat_toNat, BitVec.setWidth_eq]
  rfl

/-- A branch signals no extra cycle: it counts its own (R94, R95). -/
theorem signalsExtra_of_branch {m : Mnemonic} {c : Flag × Bool} (h : branchCondition m = some c) :
    signalsExtra m = false := by
  cases m
  case bcc | bcs | beq | bne | bmi | bpl | bvc | bvs => rfl
  all_goals cases h

/-- What a branch on any flag leaves (R190). -/
theorem branch_spec {i : Instr} {d : Byte} {f : Flag} {v : Bool} (hop : i.operand = .rel d)
    (hcond : branchCondition i.mnemonic = some (f, v)) (s : State) :
    let target : Word := BitVec.ofInt 16 (s.pc.toNat + d.toInt)
    let cost := if page target = page s.pc then 1 else 2
    ∃ t, exec i s = .next t ∧
      t.pc = (if s.flag f = v then target else s.pc) ∧
      t.cycles = s.cycles + (if s.flag f = v then cost else 0) ∧
      Keeps [] [] s t ∧ MemKept s t ∧ t.busLog = s.busLog := by
  intro target cost
  have htarget : target = s.pc + sext16 d := (add_sext16 s.pc d).symm
  have hexec := exec_of_no_signal (signalsExtra_of_branch hcond) s
  rw [hop, handler_of_branch hcond, resolve_flag] at hexec
  refine ⟨_, hexec, ?pc, ?cycles, ⟨fun r _ => reg_branch _ _ r, fun _ _ => rfl, rfl⟩, fun _ => rfl, rfl⟩
  case pc => simp only [State.branch_pc, htarget, beq_iff_eq]; rfl
  case cycles =>
    simp only [branch_cycles, State.branch_pc, cost, htarget, beq_iff_eq]
    by_cases h : s.flag f = v
    · simp only [if_pos h]; rfl
    · simp only [if_neg h]; rfl

/-- Settles O27: the eight are one branch, on the flag and the value of R191 to R198. -/
theorem branchesTestTheirFlag : Obligations.BranchesTestTheirFlag := by
  refine ⟨ruleEncoding_bcc, ruleEncoding_bcs, ruleEncoding_beq, ruleEncoding_bne, ruleEncoding_bmi, ruleEncoding_bpl,
    ruleEncoding_bvc, ruleEncoding_bvs, fun d s => ?_⟩
  have hcond : ∀ p ∈ [(Instr.bcc d, Flag.c, false), (.bcs d, .c, true), (.beq d, .z, true), (.bne d, .z, false),
      (.bmi d, .n, true), (.bpl d, .n, false), (.bvc d, .v, false), (.bvs d, .v, true)],
      p.1.operand = .rel d ∧ branchCondition p.1.mnemonic = some p.2 := by
    simp [Instr.operand, Instr.mnemonic, branchCondition]
  exact fun p hp => have ⟨hop, hflag⟩ := hcond p hp; branch_spec hop hflag s

/-! ### JMP, JSR and RTS -/

/-- Settles O28: JMP writes PC alone, from what the resolver left in `addr_abs`. -/
theorem jmpGoesToTheEffectiveAddress : Obligations.JmpGoesToTheEffectiveAddress := by
  refine ⟨ruleEncoding_jmp, fun o s _ => ?_⟩
  obtain ⟨hkeeps, hcycles⟩ := transfers_handler (i := .jmp o) (show .jmp ∉ shifts by decide) rfl s
  exact ⟨_, exec_of_no_signal rfl s, rfl, hkeeps, memKept_handler rfl s, rfl, hcycles⟩

/-- Settles O29: JSR pushes a word, high byte first, and jumps. -/
theorem jsrPushesTheReturnAddressHighByteFirst : Obligations.JsrPushesTheReturnAddressHighByteFirst :=
  ⟨ruleEncoding_jsr, fun target s hwf => ⟨_, exec_of_no_signal rfl s, rfl, byte_sub_one_one s.sp,
    fun addr => State.peek_pushWord (s := (resolve (.abs target) s).2) addr (s.pc - 1) hwf, rfl,
    transfers_handler (i := .jsr target) (show .jsr ∉ shifts by decide) rfl s⟩⟩

/-- Settles O30: RTS pulls a word, low byte first, and jumps to the next address. -/
theorem rtsReturnsPastThePulledAddress : Obligations.RtsReturnsPastThePulledAddress := by
  refine ⟨ruleEncoding_rts, fun s => ?_⟩
  dsimp only
  rw [← byte_add_one_one]
  exact ⟨_, exec_of_no_signal rfl s, rfl, rfl, memKept_handler rfl s, rfl,
    transfers_handler (i := .rts) (by decide) rfl s⟩

/-- Two bytes that stand on the stack in memory are pulled as their word. -/
theorem pulledWord_of_memory {s : State} {loAt hiAt : Word} {w : Word} (hlo : s.isDevice loAt = false)
    (hhi : s.isDevice hiAt = false) (hlow : s.peek loAt = loByte w) (hhigh : s.peek hiAt = hiByte w) :
    mkWord ((s.afterRead loAt).busAnswer hiAt) (s.busAnswer loAt) = w := by
  rw [State.busAnswer_of_memory hlo, State.busAnswer_of_memory (s := s.afterRead loAt) hhi, State.afterRead_peek, hlow,
    hhigh, mkWord_hiByte_loByte]

/-- Settles O56: RTS reads the two addresses JSR wrote, and 1 more than PC - 1 is PC. -/
theorem rtsUndoesJsr : Obligations.RtsUndoesJsr := by
  intro target s t u hwf hdevHi hdevLo hjsr hrts
  obtain ⟨t', hjsr', -, htsp, hpeek, -, ⟨htkeeps, -⟩⟩ := jsrPushesTheReturnAddressHighByteFirst.2 target s hwf
  obtain rfl := Host.Outcome.next.inj (hjsr.symm.trans hjsr')
  obtain ⟨u', hrts', hupc, husp, -, -, ⟨hukeeps, -⟩⟩ := rtsReturnsPastThePulledAddress.2 t
  obtain rfl := Host.Outcome.next.inj (hrts.symm.trans hrts')
  have hkeeps := keeps_trans htkeeps hukeeps
  have hlo : t.sp + 1 = s.sp - 1 := by rw [htsp, ← byte_sub_one_one, BitVec.sub_add_cancel]
  have hhi : t.sp + 2 = s.sp := by rw [htsp, BitVec.sub_add_cancel]
  have hne : stackAddr s.sp ≠ stackAddr (s.sp - 1) := by
    rw [ne_eq, stackAddr_inj]
    bv_omega
  have hdev (addr : Word) : t.isDevice addr = s.isDevice addr := State.isDevice_congr htkeeps.env addr
  have hlow : t.peek (stackAddr (s.sp - 1)) = loByte (s.pc - 1) := by simp only [hpeek, hdevLo]; rfl
  have hhigh : t.peek (stackAddr s.sp) = hiByte (s.pc - 1) := by simp only [hpeek, hdevHi, if_neg hne]; rfl
  have hret := pulledWord_of_memory ((hdev _).trans hdevLo) ((hdev _).trans hdevHi) hlow hhigh
  rw [hlo, hhi, hret, BitVec.sub_add_cancel] at hupc
  exact ⟨hupc, husp.trans hhi, hkeeps.regs .a (by decide), hkeeps.regs .x (by decide), hkeeps.regs .y (by decide),
    status_ext fun f => hkeeps.flags f List.not_mem_nil⟩

/-! ### BRK and RTI -/

/-- BRK's pushes reach no address above the stack page, so not its vector. -/
theorem peek_brkPushed_of_above {s : State} {addr : Word} (hwf : s.mem.wf = true) (h : 512 ≤ addr.toNat) :
    s.brkPushed.peek addr = s.peek addr := by
  simp [State.peek_brkPushed hwf, stackAddr_ne_of_above h]

/-- Settles O31: BRK is `enterBreak`, three pushes and then the vector's two reads. -/
theorem brkTakesTheBreakEntry : Obligations.BrkTakesTheBreakEntry := by
  refine ⟨ruleEncoding_brk, fun s hwf => ?_⟩
  have hexec := exec_of_no_signal (i := .brk) rfl s
  have hkeeps := transfers_handler (i := .brk) (by decide) rfl s
  rw [handler, State.enterBreak_eq] at hexec hkeeps
  refine ⟨_, s.brkPushed.busAnswer 0xFFFE, (s.brkPushed.afterRead 0xFFFE).busAnswer 0xFFFF, hexec, rfl, rfl, ?lo, ?hi,
    rfl, ?i, fun addr => State.peek_brkPushed (s := (resolve .imp s).2) hwf addr, hkeeps⟩
  case lo => rw [← peek_brkPushed_of_above hwf (by decide)]; rfl
  case hi => rw [← peek_brkPushed_of_above hwf (by decide)]; rfl
  case i => exact (getFlag_putFlag _ _ _ _).trans (if_pos rfl)

/-- Settles O32: RTI is `returnFromBreak`, three pulls. -/
theorem rtiRestoresStatusAndAddress : Obligations.RtiRestoresStatusAndAddress := by
  refine ⟨ruleEncoding_rti, fun s => ?_⟩
  have hexec := exec_of_no_signal (i := .rti) rfl s
  have hkeeps := transfers_handler (i := .rti) (by decide) rfl s
  rw [handler, State.returnFromBreak_eq] at hexec hkeeps
  exact ⟨_, hexec, rfl, rfl, rfl, fun _ => rfl, rfl, hkeeps⟩

end Sys2Proof.Proofs
end

section
/-! PROOFS. Stack pushes and pulls, flag instructions, NOP and the sink (46_stack_flag_misc.md R215 to R227). -/

namespace Sys2Proof.Proofs

open Sys2Proof Sys2Proof.Machine

/-! ### The rows of the dispatch table -/

theorem ruleEncoding_pha : RuleEncoding .pha [(0x48, .imp, 3)] :=
  ruleEncoding_of (by set_option maxRecDepth 20000 in decide) (by decide)

theorem ruleEncoding_php : RuleEncoding .php [(0x08, .imp, 3)] :=
  ruleEncoding_of (by set_option maxRecDepth 20000 in decide) (by decide)

theorem ruleEncoding_pla : RuleEncoding .pla [(0x68, .imp, 4)] :=
  ruleEncoding_of (by set_option maxRecDepth 20000 in decide) (by decide)

theorem ruleEncoding_plp : RuleEncoding .plp [(0x28, .imp, 4)] :=
  ruleEncoding_of (by set_option maxRecDepth 20000 in decide) (by decide)

theorem ruleEncoding_clc : RuleEncoding .clc [(0x18, .imp, 2)] :=
  ruleEncoding_of (by set_option maxRecDepth 20000 in decide) (by decide)

theorem ruleEncoding_sec : RuleEncoding .sec [(0x38, .imp, 2)] :=
  ruleEncoding_of (by set_option maxRecDepth 20000 in decide) (by decide)

theorem ruleEncoding_cld : RuleEncoding .cld [(0xD8, .imp, 2)] :=
  ruleEncoding_of (by set_option maxRecDepth 20000 in decide) (by decide)

theorem ruleEncoding_sed : RuleEncoding .sed [(0xF8, .imp, 2)] :=
  ruleEncoding_of (by set_option maxRecDepth 20000 in decide) (by decide)

theorem ruleEncoding_cli : RuleEncoding .cli [(0x58, .imp, 2)] :=
  ruleEncoding_of (by set_option maxRecDepth 20000 in decide) (by decide)

theorem ruleEncoding_sei : RuleEncoding .sei [(0x78, .imp, 2)] :=
  ruleEncoding_of (by set_option maxRecDepth 20000 in decide) (by decide)

theorem ruleEncoding_clv : RuleEncoding .clv [(0xB8, .imp, 2)] :=
  ruleEncoding_of (by set_option maxRecDepth 20000 in decide) (by decide)

theorem ruleEncoding_nop : RuleEncoding .nop [(0xEA, .imp, 2)] :=
  ruleEncoding_of (by set_option maxRecDepth 20000 in decide) (by decide)

/-! ### Pushes -/

theorem keeps_push (v : Byte) (s : State) : Keeps [.sp] [] s (s.push v) where
  regs r hr := by rw [reg_push, if_neg (List.ne_of_not_mem_cons hr)]
  flags f _ := State.push_flag s v f
  env := State.push_env s v

/-- What a push instruction of any byte leaves (R215, R216). -/
theorem push_spec (v : Byte) {s : State} (hwf : s.mem.wf = true) :
    let t := runHandler .imp false (fun u => u.push v) s
    t.sp = s.sp - 1 ∧ Stored (stackAddr s.sp) v s t ∧ t.pc = s.pc ∧
      t.busLog = .write (stackAddr s.sp) v :: s.busLog ∧ Transfers [.sp] [] s t :=
  have hstored : Stored (stackAddr s.sp) v (resolve .imp s).2 ((resolve .imp s).2.push v) := stored_push v hwf
  ⟨rfl, stored_of_resolve hstored, rfl, rfl, keeps_runHandler (keeps_push v _) false, rfl⟩

/-- Settles O33: PHA and PHP are one push, of A and of P with B and U set. -/
theorem pushesStoreOneByteAndKeepP : Obligations.PushesStoreOneByteAndKeepP :=
  ⟨ruleEncoding_pha, ruleEncoding_php, fun s hwf =>
    ⟨⟨_, rfl, push_spec s.a hwf⟩, ⟨_, rfl, push_spec (pushedStatus s.p) hwf⟩⟩⟩

/-! ### Pulls -/

/-- A frame may list more registers and flags than were written, in any order. -/
theorem transfers_mono {regs regs' : List Reg} {flags flags' : List Flag} {s t : State} (h : Transfers regs flags s t)
    (hregs : regs ⊆ regs') (hflags : flags ⊆ flags') : Transfers regs' flags' s t where
  keeps :=
    { regs := fun r hr => h.keeps.regs r fun hmem => hr (hregs hmem)
      flags := fun f hf => h.keeps.flags f fun hmem => hf (hflags hmem)
      env := h.keeps.env }
  cycles := h.cycles

/-- Settles O34: both handlers are one pull, and what they write besides SP is what R20 and R28 list. -/
theorem pullsLoadOneByte : Obligations.PullsLoadOneByte :=
  ⟨ruleEncoding_pla, ruleEncoding_plp, fun s =>
    ⟨⟨_, exec_of_no_signal rfl s, rfl, setsNZ_loadReg .a _ _, rfl, rfl, memKept_handler rfl s, rfl,
        transfers_mono (transfers_handler (i := .pla) (by decide) rfl s) (by decide) (by decide)⟩,
      ⟨_, exec_of_no_signal rfl s, rfl, rfl, rfl, memKept_handler rfl s, rfl,
        transfers_handler (i := .plp) (by decide) rfl s⟩⟩⟩

/-! ### A pull after a push -/

/-- After a push to memory, the next pull's address is the one pushed to, and the bus answers the pushed byte there. -/
theorem busAnswer_of_pushed {s t : State} {v : Byte} (hsp : t.sp = s.sp - 1) (hstored : Stored (stackAddr s.sp) v s t)
    (henv : t.env = s.env) (hdev : s.isDevice (stackAddr s.sp) = false) :
    t.sp + 1 = s.sp ∧ t.busAnswer (stackAddr (t.sp + 1)) = v := by
  have hback : t.sp + 1 = s.sp := by rw [hsp, BitVec.sub_add_cancel]
  have hpeek : t.peek (stackAddr s.sp) = v := by simpa [hdev] using hstored.2
  have hanswer := State.busAnswer_of_memory ((State.isDevice_congr henv (stackAddr s.sp)).trans hdev)
  exact ⟨hback, by rw [hback, hanswer, hpeek]⟩

/-- Pulling a pushed status byte gives every flag back but B, which becomes 0, and U, which becomes 1 (R27). -/
theorem getFlag_pulledStatus_pushedStatus (p : Byte) (f : Flag) :
    getFlag (pulledStatus (pushedStatus p)) f = if f = .b then false else if f = .u then true else getFlag p f := by
  cases f <;> simp

/-- Settles O58: the pull reads the byte the push wrote. -/
theorem pullsUndoPushes : Obligations.PullsUndoPushes := by
  intro s t u hwf hdev
  obtain ⟨⟨ta, hpha, haSp, haStored, -, -, ⟨haKeeps, -⟩⟩, ⟨tp, hphp, hpSp, hpStored, -, -, ⟨hpKeeps, -⟩⟩⟩ :=
    pushesStoreOneByteAndKeepP.2.2 s hwf
  obtain ⟨⟨ua, hpla, huA, huNZ, huaSp, -⟩, ⟨up, hplp, huP, hupSp, -⟩⟩ := pullsLoadOneByte.2.2 t
  refine ⟨fun hpush hpull => ?a, fun hpush hpull => ?p⟩
  case a =>
    obtain rfl := Host.Outcome.next.inj (hpush.symm.trans hpha)
    obtain rfl := Host.Outcome.next.inj (hpull.symm.trans hpla)
    obtain ⟨hback, hbyte⟩ := busAnswer_of_pushed haSp haStored haKeeps.env hdev
    rw [hbyte] at huA huNZ
    exact ⟨huA, huaSp.trans hback, huNZ⟩
  case p =>
    obtain rfl := Host.Outcome.next.inj (hpush.symm.trans hphp)
    obtain rfl := Host.Outcome.next.inj (hpull.symm.trans hplp)
    obtain ⟨hback, hbyte⟩ := busAnswer_of_pushed hpSp hpStored hpKeeps.env hdev
    rw [hbyte] at huP
    have hflag (f : Flag) : u.flag f = if f = .b then false else if f = .u then true else s.flag f :=
      (congrArg (getFlag · f) huP).trans (getFlag_pulledStatus_pushedStatus s.p f)
    exact ⟨hupSp.trans hback, hflag .b, hflag .u, fun f hb hu => by rw [hflag, if_neg hb, if_neg hu]⟩

/-! ### Flag instructions -/

theorem quiet_setFlag (f : Flag) (b : Bool) (s : State) : Quiet [] [f] s (s.setFlag f b) where
  keeps :=
    { regs := fun r _ => reg_setFlag s f b r
      flags := fun g hg => by rw [State.flag_setFlag, if_neg (List.ne_of_not_mem_cons hg)]
      env := rfl }
  pc := rfl
  mem _ := rfl
  log := rfl
  cycles := rfl

/-- What an instruction of mode IMP leaves that only writes one flag (R219 to R225). -/
theorem setFlag_imp_spec (f : Flag) (b : Bool) (s : State) :
    let t := runHandler .imp false (fun u => u.setFlag f b) s
    t.flag f = b ∧ Quiet [] [f] s t :=
  ⟨(State.flag_setFlag (resolve .imp s).2 f f b).trans (if_pos rfl), quiet_runHandler_imp (quiet_setFlag f b _)⟩

/-- Settles O35: the seven are one handler, on the flag and the value of R219 to R225. -/
theorem flagInstructionsSetExactlyTheirFlag : Obligations.FlagInstructionsSetExactlyTheirFlag := by
  refine ⟨ruleEncoding_clc, ruleEncoding_sec, ruleEncoding_cld, ruleEncoding_sed, ruleEncoding_cli, ruleEncoding_sei,
    ruleEncoding_clv, fun s => ?_⟩
  have hexec : ∀ p ∈ [(Instr.clc, Flag.c, false), (.sec, .c, true), (.cld, .d, false), (.sed, .d, true),
      (.cli, .i, false), (.sei, .i, true), (.clv, .v, false)],
      exec p.1 s = .next (runHandler .imp false (fun u => u.setFlag p.2.1 p.2.2) s) := by
    simp [exec_eq_runHandler, Instr.operand, Instr.mnemonic, signalsExtra, handler]
  exact fun p hp => ⟨_, hexec p hp, setFlag_imp_spec p.2.1 p.2.2 s⟩

/-! ### NOP and the sink -/

/-- A well-formed sink instruction has a sink slot as its opcode (R74). -/
theorem contains_sinkSlots_of_wellFormed {op : Byte} (h : (Instr.xxx op).wellFormed = true) :
    sinkSlots.contains op = true :=
  (Bool.and_eq_true_iff.mp h).2

/-- Settles O36: the handler is the identity, so only the resolver of IMP acts. -/
theorem nopAndTheSinkHaveNoEffect : Obligations.NopAndTheSinkHaveNoEffect :=
  ⟨ruleEncoding_nop, fun op h => table_sinkSlot op (contains_sinkSlots_of_wellFormed h),
    fun s => ⟨exec_eq_runHandler .nop s, fun op _ => exec_eq_runHandler (.xxx op) s⟩⟩

end Sys2Proof.Proofs
end

section
/-! PROOFS. The BRK and RTI round trip (60_exceptions.md R243) and the host's register writes
(70_reset_and_hazards.md R264). -/

namespace Sys2Proof.Proofs

open Sys2Proof Sys2Proof.Machine

/-! ### RTI after BRK -/

/-- The three stack addresses below SP differ for every SP: the wrap inside the page never meets itself. -/
theorem stackAddrs_ne (sp : Byte) :
    stackAddr sp ≠ stackAddr (sp - 1) ∧ stackAddr sp ≠ stackAddr (sp - 2) ∧
      stackAddr (sp - 1) ≠ stackAddr (sp - 2) := by
  simp only [ne_eq, stackAddr_inj]
  refine ⟨?_, ?_, ?_⟩ <;> bv_omega

/-- SP three lower steps back up through the three addresses that the pushes went down (R203, R204). -/
theorem byte_sub_three_add (b : Byte) : b - 3 + 1 = b - 2 ∧ b - 3 + 2 = b - 1 ∧ b - 3 + 3 = b := by
  refine ⟨?_, ?_, ?_⟩ <;> bv_omega

/-- What stands in memory at the three stack addresses after BRK, where no device window covers them. -/
theorem peek_of_brk {s t : State} (hwf : s.mem.wf = true) (hdevHi : s.isDevice (stackAddr s.sp) = false)
    (hdevLo : s.isDevice (stackAddr (s.sp - 1)) = false) (hdevP : s.isDevice (stackAddr (s.sp - 2)) = false)
    (hbrk : exec .brk s = .next t) :
    t.peek (stackAddr (s.sp - 2)) = pushedStatus s.p ∧ t.peek (stackAddr (s.sp - 1)) = loByte (s.pc + 1) ∧
      t.peek (stackAddr s.sp) = hiByte (s.pc + 1) := by
  obtain ⟨t', -, -, hbrk', -, -, -, -, -, -, hpeek, -⟩ := brkTakesTheBreakEntry.2 s hwf
  obtain rfl := Host.Outcome.next.inj (hbrk.symm.trans hbrk')
  obtain ⟨hHiLo, hHiP, hLoP⟩ := stackAddrs_ne s.sp
  refine ⟨?status, ?low, ?high⟩
  case status => simp only [hpeek, hdevP]; rfl
  case low => simp only [hpeek, hdevLo, if_neg hLoP]; rfl
  case high => simp only [hpeek, hdevHi, if_neg hHiP, if_neg hHiLo]; rfl

/-- Settles O57: RTI reads the three addresses BRK wrote, and BRK pushed P before it set I. -/
theorem rtiUndoesBrk : Obligations.RtiUndoesBrk := by
  intro s t u hwf hdevHi hdevLo hdevP hbrk hrti
  obtain ⟨hstatus, hlow, hhigh⟩ := peek_of_brk hwf hdevHi hdevLo hdevP hbrk
  obtain ⟨t', -, -, hbrk', htsp, -, -, -, -, -, -, ⟨htkeeps, -⟩⟩ := brkTakesTheBreakEntry.2 s hwf
  obtain rfl := Host.Outcome.next.inj (hbrk.symm.trans hbrk')
  obtain ⟨u', hrti', hup, hupc, husp, -, -, ⟨hukeeps, -⟩⟩ := rtiRestoresStatusAndAddress.2 t
  obtain rfl := Host.Outcome.next.inj (hrti.symm.trans hrti')
  obtain ⟨hpAt, hloAt, hhiAt⟩ := byte_sub_three_add s.sp
  rw [htsp, hpAt] at hup
  rw [htsp, hpAt, hloAt, hhiAt] at hupc
  rw [htsp, hhiAt] at husp
  have hdev {addr : Word} (h : s.isDevice addr = false) : t.isDevice addr = false :=
    (State.isDevice_congr htkeeps.env addr).trans h
  have hret := pulledWord_of_memory (s := t.afterRead (stackAddr (s.sp - 2))) (hdev hdevLo) (hdev hdevHi) hlow hhigh
  have hpulled : u.p = pulledStatus (pushedStatus s.p) := by
    rw [hup, State.busAnswer_of_memory (hdev hdevP), hstatus]; rfl
  have hflag (f : Flag) : u.flag f = if f = .b then false else if f = .u then true else s.flag f :=
    (congrArg (getFlag · f) hpulled).trans (getFlag_pulledStatus_pushedStatus s.p f)
  have hreg (r : Reg) (h : r ∉ [.sp]) : u.reg r = s.reg r := (hukeeps.regs r h).trans (htkeeps.regs r h)
  exact ⟨hupc.trans hret, husp, hreg .a (by decide), hreg .x (by decide), hreg .y (by decide), hflag .b, hflag .u,
    fun f hb hu => by rw [hflag, if_neg hb, if_neg hu]⟩

/-! ### Host writes -/

theorem hostWrite_of_boundary {s : State} (h : s.cycles = 0) (r : HostReg) (v : Word) :
    hostWrite r v s = .next (s.setHostReg r v) := if_pos h

theorem hostWrite_of_countdown {s : State} (h : 0 < s.cycles) (r : HostReg) (v : Word) :
    hostWrite r v s = .refused .hostWriteMidInstruction := if_neg h.ne'

/-- Settles O49: the boundary is the guard of `hostWrite`, and behind it each register has its own update. -/
theorem hostWritesOnlyAtAnInstructionBoundary : Obligations.HostWritesOnlyAtAnInstructionBoundary := fun _ v =>
  ⟨rfl, fun r hbusy => hostWrite_of_countdown hbusy r v, fun h =>
    ⟨hostWrite_of_boundary h .a v, hostWrite_of_boundary h .x v, hostWrite_of_boundary h .y v,
      hostWrite_of_boundary h .sp v, hostWrite_of_boundary h .p v, hostWrite_of_boundary h .pc v⟩⟩

end Sys2Proof.Proofs
end
